-- ==== Sys2Proof/Word.lean ====
section
/-! DEFINITION. The word types of the codec block (00_scope.md R9, R10; 30_encoding.md R90). -/

namespace Sys2Proof

/-- A Word: "an opaque 32-bit unsigned integer" (00_scope.md R9, R15). -/
abbrev Word := BitVec 32

/-- One of the 8-bit slots `op`, `a`, `b`, `c` of a command word (30_encoding.md R90). -/
abbrev Slot := BitVec 8

/-- A 64-bit command word CMD64 (30_encoding.md R90). -/
abbrev CommandWord := BitVec 64

end Sys2Proof
end

