-- ==== Sys2Proof/Syntax.lean ====
section
/-! DEFINITION. The instructions: one constructor per row of spec/opcode_table.json, the 36 commands (30_encoding.md R96)
and the 7 shapes of a wire word (30_encoding.md R100, R104, R108). -/

namespace Sys2Proof

/-- One row of the opcode table with its operands. A command's operands stand in the order of 30_encoding.md R97; they
are the slots as they come, because an operand out of range is answered by the block (60_exceptions.md R301). -/
inductive Instr where
  -- 0x0: control and queries
  | clear
  | setStreamed
  | unpackInit
  | unpackSuccess
  | minBits (value : Word)
  | setKind (kind : Slot)
  | dataWords
  | timeslices
  -- 0x1: serial packer and unpacker
  | pack (value : Word) (nbits : Slot)
  | packFlush
  | unpack (nbits : Slot)
  -- 0x2: neutral multiplexer
  | packNeutral (pin : Slot) (value : Word) (nbits : Slot)
  | packNeutralParity (pin : Slot)
  | unpackNeutral (pin : Slot) (nbits : Slot)
  | unpackNeutralParityError (pin : Slot)
  -- 0x3: header, trailer, word helpers
  | hdrSet (field : Slot) (value : Word)
  | hdrGet (field : Slot)
  | hdrWord
  | hdrLoad (word : Word)
  | wordType (word : Word)
  | wordId (word : Word)
  | wordFormat (word : Word)
  | wordSeqno (word : Word)
  | wordModule (word : Word)
  | stSet (value : Word)
  | stGet (field : Slot)
  | stWord
  | stLoad (word : Word)
  -- 0x4: sub-block stream
  | write
  | readBegin
  | readWord (word : Word)
  -- 0x5: marshaller
  | fieldSet (fid slice index : Slot) (value : Word)
  | fieldGet (fid slice index : Slot)
  | mpack
  | munpack
  | roiLoad (word : Word)
  -- WIRE32: the words of the stream
  | wordHeaderC (version format : BitVec 3) (seqno : BitVec 6) (crate modNo slices2 slices1 : BitVec 4)
  | wordHeaderE (version format : BitVec 3) (seqno : BitVec 6) (crate modNo slices2 slices1 : BitVec 4)
  | wordHeaderF (version format : BitVec 3) (seqno : BitVec 6) (crate modNo slices2 slices1 : BitVec 4)
  | wordStatus (failingBCN seqno : BitVec 6) (crate modNo : BitVec 4) (glinkTimeout glinkDown unused upstreamError daqOverflow bcnMismatch glinkProtocol glinkParity : BitVec 1)
  | wordData00 (data : BitVec 30)
  | wordData01 (data : BitVec 30)
  | wordData10 (data : BitVec 30)
deriving DecidableEq, Repr

/-- The two kinds of word of 30_encoding.md: a command word, or a word of the stream. -/
inductive CodeWord where
  | cmd64 (w : CommandWord)
  | wire32 (w : Word)
deriving DecidableEq, Repr

/-- Why a command word is not a command of the block (30_encoding.md R93, R94). -/
inductive DecodeError where
  /-- R94: the operation code is not one of the 36. -/
  | unassignedOp (op : Slot)
  /-- R93: a field the operation does not use is not zero. -/
  | unusedNotZero (op : Slot)
deriving DecidableEq, Repr

end Sys2Proof
end

