-- ==== Sys2Proof/WellFormed.lean ====
section
/-! DEFINITION. Well-formed instructions: every operand lies in the range that holds for some block in some mode. An
ill-formed command still decodes; the block answers it BAD_OPERAND in every state (60_exceptions.md R301, R311). -/

namespace Sys2Proof

/-- `nbits` is at most 32: no word and no `value` holds more bits (40_bitstream.md R133; 41_neutral.md R171). -/
def nbitsInWord (nbits : Slot) : Bool := nbits.toNat ≤ 32

/-- `pin` is below 32, the largest `MAX_PINS` (41_neutral.md R171, R183). -/
def pinInWord (pin : Slot) : Bool := pin.toNat < 32

/-- A field selector is at most 7 (30_encoding.md R112). -/
def selectorKnown (field : Slot) : Bool := field.toNat ≤ 7

/-- A kind code is at most 7 (30_encoding.md R113). -/
def kindKnown (kind : Slot) : Bool := kind.toNat ≤ 7

/-- The checks on the operands of one instruction; an instruction not listed by a check has none. -/
def Instr.wellFormed : Instr → Bool
  | .clear => true
  | .setStreamed => true
  | .unpackInit => true
  | .unpackSuccess => true
  | .minBits _ => true
  | .setKind kind => kindKnown kind
  | .dataWords => true
  | .timeslices => true
  | .pack _ nbits => nbitsInWord nbits
  | .packFlush => true
  | .unpack nbits => nbitsInWord nbits
  | .packNeutral pin _ nbits => pinInWord pin && nbitsInWord nbits
  | .packNeutralParity pin => pinInWord pin
  | .unpackNeutral pin nbits => pinInWord pin && nbitsInWord nbits
  | .unpackNeutralParityError pin => pinInWord pin
  | .hdrSet field _ => selectorKnown field
  | .hdrGet field => selectorKnown field
  | .hdrWord => true
  | .hdrLoad _ => true
  | .wordType _ => true
  | .wordId _ => true
  | .wordFormat _ => true
  | .wordSeqno _ => true
  | .wordModule _ => true
  | .stSet _ => true
  | .stGet field => selectorKnown field
  | .stWord => true
  | .stLoad _ => true
  | .write => true
  | .readBegin => true
  | .readWord _ => true
  | .fieldSet _ _ _ _ => true
  | .fieldGet _ _ _ => true
  | .mpack => true
  | .munpack => true
  | .roiLoad _ => true
  | .wordHeaderC _ _ _ _ _ _ _ => true
  | .wordHeaderE _ _ _ _ _ _ _ => true
  | .wordHeaderF _ _ _ _ _ _ _ => true
  | .wordStatus _ _ _ _ _ _ _ _ _ _ _ _ => true
  | .wordData00 _ => true
  | .wordData01 _ => true
  | .wordData10 _ => true

end Sys2Proof
end

