-- ==== Sys2Proof/Decode.lean ====
section
/-! DEFINITION. Decoding command words and wire words, and encoding instructions (30_encoding.md R90 to R112). -/

namespace Sys2Proof

/-- `op` = bits [63:56] (30_encoding.md R90). -/
def opOf (w : CommandWord) : Slot := w.extractLsb' 56 8
/-- `a` = bits [55:48]. -/
def aOf (w : CommandWord) : Slot := w.extractLsb' 48 8
/-- `b` = bits [47:40]. -/
def bOf (w : CommandWord) : Slot := w.extractLsb' 40 8
/-- `c` = bits [39:32]. -/
def cOf (w : CommandWord) : Slot := w.extractLsb' 32 8
/-- `v` = bits [31:0]. -/
def vOf (w : CommandWord) : Word := w.extractLsb' 0 32

/-- `i` if the unused fields are zero, else R93's refusal by name. -/
def ifUnusedZero (op : Slot) (unusedZero : Bool) (i : Instr) : Except DecodeError Instr :=
  if unusedZero then .ok i else .error (.unusedNotZero op)

/-- The operation of a command word from its five fields: the table of 30_encoding.md R96, every unused field zero (R93),
every other `op` refused (R94). -/
def decodeFields (op a b c : Slot) (v : Word) : Except DecodeError Instr :=
  match op.toNat with
  | 0x01 => ifUnusedZero op (a == 0 && b == 0 && c == 0 && v == 0) .clear
  | 0x02 => ifUnusedZero op (a == 0 && b == 0 && c == 0 && v == 0) .setStreamed
  | 0x03 => ifUnusedZero op (a == 0 && b == 0 && c == 0 && v == 0) .unpackInit
  | 0x04 => ifUnusedZero op (a == 0 && b == 0 && c == 0 && v == 0) .unpackSuccess
  | 0x05 => ifUnusedZero op (a == 0 && b == 0 && c == 0) (.minBits v)
  | 0x06 => ifUnusedZero op (b == 0 && c == 0 && v == 0) (.setKind a)
  | 0x07 => ifUnusedZero op (a == 0 && b == 0 && c == 0 && v == 0) .dataWords
  | 0x08 => ifUnusedZero op (a == 0 && b == 0 && c == 0 && v == 0) .timeslices
  | 0x10 => ifUnusedZero op (a == 0 && c == 0) (.pack v b)
  | 0x11 => ifUnusedZero op (a == 0 && b == 0 && c == 0 && v == 0) .packFlush
  | 0x12 => ifUnusedZero op (a == 0 && c == 0 && v == 0) (.unpack b)
  | 0x20 => ifUnusedZero op (c == 0) (.packNeutral a v b)
  | 0x21 => ifUnusedZero op (b == 0 && c == 0 && v == 0) (.packNeutralParity a)
  | 0x22 => ifUnusedZero op (c == 0 && v == 0) (.unpackNeutral a b)
  | 0x23 => ifUnusedZero op (b == 0 && c == 0 && v == 0) (.unpackNeutralParityError a)
  | 0x30 => ifUnusedZero op (b == 0 && c == 0) (.hdrSet a v)
  | 0x31 => ifUnusedZero op (b == 0 && c == 0 && v == 0) (.hdrGet a)
  | 0x32 => ifUnusedZero op (a == 0 && b == 0 && c == 0 && v == 0) .hdrWord
  | 0x33 => ifUnusedZero op (a == 0 && b == 0 && c == 0) (.hdrLoad v)
  | 0x34 => ifUnusedZero op (a == 0 && b == 0 && c == 0) (.wordType v)
  | 0x35 => ifUnusedZero op (a == 0 && b == 0 && c == 0) (.wordId v)
  | 0x36 => ifUnusedZero op (a == 0 && b == 0 && c == 0) (.wordFormat v)
  | 0x37 => ifUnusedZero op (a == 0 && b == 0 && c == 0) (.wordSeqno v)
  | 0x38 => ifUnusedZero op (a == 0 && b == 0 && c == 0) (.wordModule v)
  | 0x39 => ifUnusedZero op (a == 0 && b == 0 && c == 0) (.stSet v)
  | 0x3A => ifUnusedZero op (b == 0 && c == 0 && v == 0) (.stGet a)
  | 0x3B => ifUnusedZero op (a == 0 && b == 0 && c == 0 && v == 0) .stWord
  | 0x3C => ifUnusedZero op (a == 0 && b == 0 && c == 0) (.stLoad v)
  | 0x40 => ifUnusedZero op (a == 0 && b == 0 && c == 0 && v == 0) .write
  | 0x41 => ifUnusedZero op (a == 0 && b == 0 && c == 0 && v == 0) .readBegin
  | 0x42 => ifUnusedZero op (a == 0 && b == 0 && c == 0) (.readWord v)
  | 0x50 => .ok (.fieldSet a b c v)
  | 0x51 => ifUnusedZero op (v == 0) (.fieldGet a b c)
  | 0x52 => ifUnusedZero op (a == 0 && b == 0 && c == 0 && v == 0) .mpack
  | 0x53 => ifUnusedZero op (a == 0 && b == 0 && c == 0 && v == 0) .munpack
  | 0x54 => ifUnusedZero op (a == 0 && b == 0 && c == 0) (.roiLoad v)
  | _ => .error (.unassignedOp op)

/-- Decoding a command word (30_encoding.md R90, R99). -/
def decodeCommand (w : CommandWord) : Except DecodeError Instr :=
  decodeFields (opOf w) (aOf w) (bOf w) (cOf w) (vOf w)

/-- Decoding a wire word: bits [31:30] tell Data from the rest, bits [29:28] Status from Header (30_encoding.md R100);
the fields are those of R104 and R108. Every word is exactly one of the seven rows. -/
def decodeWire (w : Word) : Instr :=
  match (w.extractLsb' 30 2).toNat with
  | 0 => .wordData00 (w.extractLsb' 0 30)
  | 1 => .wordData01 (w.extractLsb' 0 30)
  | 2 => .wordData10 (w.extractLsb' 0 30)
  | _ =>
    match (w.extractLsb' 28 2).toNat with
    | 0 => .wordHeaderC (w.extractLsb' 25 3) (w.extractLsb' 22 3) (w.extractLsb' 16 6) (w.extractLsb' 12 4) (w.extractLsb' 8 4) (w.extractLsb' 4 4) (w.extractLsb' 0 4)
    | 1 => .wordStatus (w.extractLsb' 22 6) (w.extractLsb' 16 6) (w.extractLsb' 12 4) (w.extractLsb' 8 4) (w.extractLsb' 7 1) (w.extractLsb' 6 1) (w.extractLsb' 5 1) (w.extractLsb' 4 1) (w.extractLsb' 3 1) (w.extractLsb' 2 1) (w.extractLsb' 1 1) (w.extractLsb' 0 1)
    | 2 => .wordHeaderE (w.extractLsb' 25 3) (w.extractLsb' 22 3) (w.extractLsb' 16 6) (w.extractLsb' 12 4) (w.extractLsb' 8 4) (w.extractLsb' 4 4) (w.extractLsb' 0 4)
    | _ => .wordHeaderF (w.extractLsb' 25 3) (w.extractLsb' 22 3) (w.extractLsb' 16 6) (w.extractLsb' 12 4) (w.extractLsb' 8 4) (w.extractLsb' 4 4) (w.extractLsb' 0 4)

/-- The decoder: total, refusing by name. -/
def decode : CodeWord → Except DecodeError Instr
  | .cmd64 w => decodeCommand w
  | .wire32 w => .ok (decodeWire w)

/-! ## The encoder -/

/-- A command word from its five fields (30_encoding.md R90). -/
def commandWord (op a b c : Slot) (v : Word) : CommandWord := op ++ a ++ b ++ c ++ v

/-- The header word, `hdr_encode` of 30_encoding.md R104: the eight fields from bit 31 down. -/
def headerWord (wordId : BitVec 4) (version format : BitVec 3) (seqno : BitVec 6) (crate modNo slices2 slices1 : BitVec 4) : Word :=
  wordId ++ version ++ format ++ seqno ++ crate ++ modNo ++ slices2 ++ slices1

/-- The status word in the layout of 30_encoding.md R108 (bit 5 unused, kept as received). -/
def statusWord (failingBCN seqno : BitVec 6) (crate modNo : BitVec 4) (glinkTimeout glinkDown unused upstreamError daqOverflow bcnMismatch glinkProtocol glinkParity : BitVec 1) : Word :=
  0xD#4 ++ failingBCN ++ seqno ++ crate ++ modNo ++ glinkTimeout ++ glinkDown ++ unused ++ upstreamError ++ daqOverflow ++ bcnMismatch ++ glinkProtocol ++ glinkParity

/-- A data word: its top two bits and the other thirty (30_encoding.md R100, R102). -/
def dataWord (top : BitVec 2) (data : BitVec 30) : Word := top ++ data

/-- The word of an instruction: the five fields of each row of 30_encoding.md R96, or the wire word itself. -/
def encode : Instr → CodeWord
  | .clear => .cmd64 (commandWord 0x01 0 0 0 0)
  | .setStreamed => .cmd64 (commandWord 0x02 0 0 0 0)
  | .unpackInit => .cmd64 (commandWord 0x03 0 0 0 0)
  | .unpackSuccess => .cmd64 (commandWord 0x04 0 0 0 0)
  | .minBits value => .cmd64 (commandWord 0x05 0 0 0 value)
  | .setKind kind => .cmd64 (commandWord 0x06 kind 0 0 0)
  | .dataWords => .cmd64 (commandWord 0x07 0 0 0 0)
  | .timeslices => .cmd64 (commandWord 0x08 0 0 0 0)
  | .pack value nbits => .cmd64 (commandWord 0x10 0 nbits 0 value)
  | .packFlush => .cmd64 (commandWord 0x11 0 0 0 0)
  | .unpack nbits => .cmd64 (commandWord 0x12 0 nbits 0 0)
  | .packNeutral pin value nbits => .cmd64 (commandWord 0x20 pin nbits 0 value)
  | .packNeutralParity pin => .cmd64 (commandWord 0x21 pin 0 0 0)
  | .unpackNeutral pin nbits => .cmd64 (commandWord 0x22 pin nbits 0 0)
  | .unpackNeutralParityError pin => .cmd64 (commandWord 0x23 pin 0 0 0)
  | .hdrSet field value => .cmd64 (commandWord 0x30 field 0 0 value)
  | .hdrGet field => .cmd64 (commandWord 0x31 field 0 0 0)
  | .hdrWord => .cmd64 (commandWord 0x32 0 0 0 0)
  | .hdrLoad word => .cmd64 (commandWord 0x33 0 0 0 word)
  | .wordType word => .cmd64 (commandWord 0x34 0 0 0 word)
  | .wordId word => .cmd64 (commandWord 0x35 0 0 0 word)
  | .wordFormat word => .cmd64 (commandWord 0x36 0 0 0 word)
  | .wordSeqno word => .cmd64 (commandWord 0x37 0 0 0 word)
  | .wordModule word => .cmd64 (commandWord 0x38 0 0 0 word)
  | .stSet value => .cmd64 (commandWord 0x39 0 0 0 value)
  | .stGet field => .cmd64 (commandWord 0x3A field 0 0 0)
  | .stWord => .cmd64 (commandWord 0x3B 0 0 0 0)
  | .stLoad word => .cmd64 (commandWord 0x3C 0 0 0 word)
  | .write => .cmd64 (commandWord 0x40 0 0 0 0)
  | .readBegin => .cmd64 (commandWord 0x41 0 0 0 0)
  | .readWord word => .cmd64 (commandWord 0x42 0 0 0 word)
  | .fieldSet fid slice index value => .cmd64 (commandWord 0x50 fid slice index value)
  | .fieldGet fid slice index => .cmd64 (commandWord 0x51 fid slice index 0)
  | .mpack => .cmd64 (commandWord 0x52 0 0 0 0)
  | .munpack => .cmd64 (commandWord 0x53 0 0 0 0)
  | .roiLoad word => .cmd64 (commandWord 0x54 0 0 0 word)
  | .wordHeaderC version format seqno crate modNo slices2 slices1 => .wire32 (headerWord 0xC version format seqno crate modNo slices2 slices1)
  | .wordHeaderE version format seqno crate modNo slices2 slices1 => .wire32 (headerWord 0xE version format seqno crate modNo slices2 slices1)
  | .wordHeaderF version format seqno crate modNo slices2 slices1 => .wire32 (headerWord 0xF version format seqno crate modNo slices2 slices1)
  | .wordStatus failingBCN seqno crate modNo glinkTimeout glinkDown unused upstreamError daqOverflow bcnMismatch glinkProtocol glinkParity =>
    .wire32 (statusWord failingBCN seqno crate modNo glinkTimeout glinkDown unused upstreamError daqOverflow bcnMismatch glinkProtocol glinkParity)
  | .wordData00 data => .wire32 (dataWord 0 data)
  | .wordData01 data => .wire32 (dataWord 1 data)
  | .wordData10 data => .wire32 (dataWord 2 data)

/-! ## The opcode table's numbering -/

/-- The word that a row of spec/opcode_table.json gives as the number `w` of `nbits` bits: a WIRE32 row has 32 bits, a
CMD64 row 64, numbered as the table numbers them (bit 0 the least significant). -/
def codeWordOfTable (nbits w : Nat) : Option CodeWord :=
  if nbits ≤ 32 then some (.wire32 (BitVec.ofNat 32 w))
  else if nbits ≤ 64 then some (.cmd64 (BitVec.ofNat 64 w))
  else none

/-- The instruction the decoder reads from a row's word; none where it refuses. -/
def decodeTableWord (nbits w : Nat) : Option Instr :=
  match codeWordOfTable nbits w with
  | none => none
  | some c =>
    match decode c with
    | .ok i => some i
    | .error _ => none

end Sys2Proof
end

