-- ==== Sys2Proof/Config.lean ====
section
/-! DEFINITION. The parameters of 00_scope.md R8, as plain data, and the constants without a body that stand for what
the spec leaves open. -/

namespace Sys2Proof

/-- The eight sub-block kinds (43_marshaller.md R250; codes 0 to 7 in this order, 30_encoding.md R113). -/
inductive Kind where
  | ppm | cpm | cpmRoi | jem | jemRoi | cmmCp | cmmJet | cmmEnergy
deriving DecidableEq, Repr

/-- One item `(fid, slice, index, width)` of a serial layout descriptor (43_marshaller.md R254). -/
structure SerialItem where
  fid : Slot
  slice : Slot
  index : Slot
  width : Nat
deriving DecidableEq, Repr

/-- A serial layout descriptor (43_marshaller.md R254). -/
structure SerialLayout where
  streamed : Bool
  items : List SerialItem
deriving DecidableEq, Repr

/-- One item `(pin, fid, index, width)` of a neutral layout descriptor (43_marshaller.md R254). -/
structure NeutralItem where
  pin : Nat
  fid : Slot
  index : Slot
  width : Nat
deriving DecidableEq, Repr

/-- A neutral layout descriptor: it describes one slice (43_marshaller.md R254). -/
structure NeutralLayout where
  bpspp : Nat
  pins : List Nat
  items : List NeutralItem
deriving DecidableEq, Repr

/-- A layout descriptor other than `none` (43_marshaller.md R254). -/
inductive Layout where
  | serial (L : SerialLayout)
  | neutral (L : NeutralLayout)
deriving DecidableEq, Repr

/-- What `LAYOUT(kind, hdr)` may depend on: the kind and the header's `version`, `format`, `slices1`, `slices2`
(43_marshaller.md R254). -/
structure LayoutKey where
  kind : Kind
  version : BitVec 3
  format : BitVec 3
  slices1 : BitVec 4
  slices2 : BitVec 4
deriving DecidableEq, Repr

/-- One line of the table that holds the parameter `LAYOUT`. -/
structure LayoutRow where
  key : LayoutKey
  layout : Layout
deriving DecidableEq, Repr

/-- One line of the table that holds the parameter `SLICES_HDR`; arguments with no line take the suggested value
`slices1` (43_marshaller.md R260). -/
structure SlicesRow where
  kind : Kind
  slices1 : BitVec 4
  slices2 : BitVec 4
  count : BitVec 8
deriving DecidableEq, Repr

/-- One line of the table that holds the parameter `ROI_MATCH`: words `w` of that kind with `w & mask = value` are RoI
words (43_marshaller.md R269). Every set of words is such a list. -/
structure RoiPattern where
  kind : Kind
  mask : Word
  value : Word
deriving DecidableEq, Repr

/-- One entry `(fid, index, lo, width)` of `ROI_LAYOUT(kind)` (43_marshaller.md R269). -/
structure RoiField where
  kind : Kind
  fid : Slot
  index : Slot
  lo : Nat
  width : Nat
deriving DecidableEq, Repr

/-- The parameters of one block (00_scope.md R8), "fixed for the life of a block" (10_state.md R42). `State` carries
them as a read-only record, so that a statement about every state is a statement about every admissible value.
DESIGN CHOICE, log entry 2. -/
structure Config where
  /-- `MAX_PINS - 20`: `MAX_PINS` is 20 .. 32. -/
  extraPins : Fin 13
  /-- `NEUTRAL_FILL`. -/
  neutralFill : Word
  /-- `STREAM_MARK`. -/
  streamMark : Bool
  /-- `PAYLOAD_MAX`; `none` is unbounded. -/
  payloadMax : Option Nat
  /-- `LAYOUT`. -/
  layouts : List LayoutRow
  /-- `SLICES_HDR`. -/
  slicesHdr : List SlicesRow
  /-- `ROI_MATCH`. -/
  roiMatch : List RoiPattern
  /-- `ROI_LAYOUT`, all kinds in one list. -/
  roiLayout : List RoiField
deriving DecidableEq, Repr

/-- The unspecified 32-bit results U1 and U2 (93_implementation_defined.md): the n-th one drawn. -/
opaque Config.freeWord : Nat → Word

/-- The unspecified parity results U3 (93_implementation_defined.md, "0 or 1"): the n-th one drawn. -/
opaque Config.freeBit : Nat → Bool

/-- The 32-bit result of a count of 2^32 or more, which the spec does not state (log entry 9). -/
opaque Config.unstatedCount : Nat → Word

/-- The OPEN parameter `NEUTRAL_FILL` of the block that reset starts (no value is suggested). -/
opaque Config.openNeutralFill : Word

/-- The OPEN parameter `LAYOUT` of the block that reset starts. -/
opaque Config.openLayouts : List LayoutRow

/-- The OPEN parameter `ROI_MATCH` of the block that reset starts. -/
opaque Config.openRoiMatch : List RoiPattern

/-- The OPEN parameter `ROI_LAYOUT` of the block that reset starts. -/
opaque Config.openRoiLayout : List RoiField

/-- `GLINK_PINS(kind) - 16`: informative, no command reads it (00_scope.md R8; 41_neutral.md R183). -/
opaque Config.glinkPinsAbove16 : Kind → Fin 5

/-- Which of 0xC, 0xE, 0xF is `WORDID(kind)`: the host's check, no command reads it (00_scope.md R8; R234). -/
opaque Config.wordIdChoice : Kind → Fin 3

/-- `GLINK_PINS(kind)`, 16 .. 20 (00_scope.md R8). -/
def Config.glinkPins (k : Kind) : Nat := 16 + (Config.glinkPinsAbove16 k).val

/-- `WORDID(kind)` (00_scope.md R8). -/
def Config.wordId (k : Kind) : BitVec 4 :=
  match (Config.wordIdChoice k).val with
  | 0 => 0xC
  | 1 => 0xE
  | _ => 0xF

/-- The parameters of the block that reset starts: the spec's value where it suggests one (`MAX_PINS` 20, `STREAM_MARK`
false, `PAYLOAD_MAX` unbounded, `SLICES_HDR` = `slices1`), a constant without a body where it suggests none.
DESIGN CHOICE, unsafe for statements about the reset state only, log entry 3. -/
def Config.block : Config where
  extraPins := 0
  neutralFill := Config.openNeutralFill
  streamMark := false
  payloadMax := none
  layouts := Config.openLayouts
  slicesHdr := []
  roiMatch := Config.openRoiMatch
  roiLayout := Config.openRoiLayout

end Sys2Proof
end

