-- ==== Sys2Proof/Machine/State.lean ====
section
/-! DEFINITION. The state of one codec block (10_state.md), its command port, and the state after reset. -/

namespace Sys2Proof.Machine

open Sys2Proof

/-- No step of the block faults: "Nothing in the spec is `stuck` or `fault`: the step function is total"
(93_implementation_defined.md section 1), so there is no fault to name. -/
inductive Fault where
deriving DecidableEq, Repr

/-- The model's own refusals. A refusal of the BLOCK (60_exceptions.md R300, R301) is an answer it gives, a next state
with that status, and is not one of these. -/
inductive Refusal where
  /-- Raised by `exec` alone, for an instruction with no meaning yet (none is left). Safe. -/
  | notModelled (mnemonic : String)
deriving DecidableEq, Repr

/-- The status codes of 60_exceptions.md R301. -/
inductive Status where
  | ok | illegalCmd | badOperand | badState | unsupported | structural | full
deriving DecidableEq, Repr

/-- One response: status and 32-bit result (30_encoding.md R91). -/
structure Response where
  status : Status
  result : Word
deriving DecidableEq, Repr

/-- The direction of the pass (10_state.md R33, R35). -/
inductive Pass where
  | pack | unpack
deriving DecidableEq, Repr

/-- The bit-level family that has touched the payload since the pass began (10_state.md R33, R36). -/
inductive PMode where
  | none | serial | neutral
deriving DecidableEq, Repr

/-- The state of the sub-block reader (10_state.md R33; 42_header_trailer.md R232). -/
inductive Reader where
  | idle | expectHeader | inData | done
deriving DecidableEq, Repr

/-- What the host does at the block's ports (92_eei_decisions.md D1). -/
inductive PortEvent where
  /-- The reset input (70_reset_and_hazards.md R340). -/
  | reset
  /-- A command word on the command port, or a wire word offered to the reader (log entry 5). -/
  | word (w : CodeWord)
  /-- The host removes `n` words from the front of `out` (10_state.md R37). -/
  | drain (n : Nat)
deriving DecidableEq, Repr

/-- The field store: pairs of a key and a word that is not 0, keys strictly rising; an unlisted key reads 0
(10_state.md R34, R44). -/
abbrev Memory := List (Nat × Word)

/-- The state of one codec block. -/
structure State where
  /-- The parameters, read-only (10_state.md R42; log entry 2). -/
  cfg : Config
  /-- The payload store (R21). -/
  payload : List Word
  /-- The rolling accumulator (R22). -/
  acc : Word
  /-- The number of bits of `acc` filled (R23). -/
  wcur : Nat
  /-- The index of the payload word the unpacker stands in (R24). -/
  rpos : Nat
  /-- The number of bits of that word already drawn (R24). -/
  rbit : Nat
  /-- The sticky success flag (R27). -/
  ok : Bool
  /-- Streamed mode (R28). -/
  streamed : Bool
  /-- The per-pin cursors (R25), one entry for each column of a word; the lanes are the entries below `MAX_PINS`. -/
  pincur : Vector Nat 32
  /-- The per-pin odd-parity accumulators (R26), as `pincur`. -/
  par : Vector Bool 32
  /-- The header word, or 0 (R30). -/
  hdr : Word
  /-- The trailer word, or 0 (R31). -/
  trl : Word
  /-- The sub-block kind (R32). -/
  kind : Kind
  /-- The marshaller's field store (R34). -/
  fields : Memory
  /-- The output word stream (R37). -/
  out : List Word
  /-- The direction of the pass (R35). -/
  pass : Pass
  /-- The family of the pass (R36). -/
  pmode : PMode
  /-- The reader's state (R33). -/
  rd : Reader
  /-- The response to the last command (30_encoding.md R91); none before the first (log entry 11). -/
  resp : Option Response
  /-- What the host has presented and the block has not yet taken, next first (log entry 1). -/
  port : List PortEvent
  /-- The model's own: how many unspecified values have been drawn (log entry 8). -/
  free : Nat
deriving DecidableEq, Repr

/-- The block right after reset: the table of 10_state.md R43. -/
def State.reset : State where
  cfg := Config.block
  payload := []
  acc := 0
  wcur := 0
  rpos := 0
  rbit := 0
  ok := true
  streamed := false
  pincur := Vector.replicate 32 0
  par := Vector.replicate 32 true
  hdr := 0
  trl := 0
  kind := .ppm
  fields := []
  out := []
  pass := .pack
  pmode := .none
  rd := .idle
  resp := none
  port := []
  free := 0

end Sys2Proof.Machine
end

