-- ==== Sys2Proof/Machine/Ops.lean ====
section
/-! DEFINITION. The named operations over words, stores and registers (00_scope.md R10 to R13), and how a command ends. -/

namespace Sys2Proof.Machine

open Sys2Proof

/-! ## Words -/

/-- `mask(n) = 2^n - 1` for n up to 32 (00_scope.md R10). -/
def mask (n : Nat) : Word := BitVec.ofNat 32 (2 ^ n - 1)

/-- `w[lo+width-1 : lo]`, zero-extended (00_scope.md R9). -/
def wordSlice (w : Word) (lo width : Nat) : Word := (w >>> lo) &&& mask width

/-- `setbit(w, i, d)`: w with bit i replaced by d (00_scope.md R11). -/
def setbit (w : Word) (i : Nat) (d : Bool) : Word :=
  (w &&& ~~~(1#32 <<< i)) ||| (if d then 1#32 <<< i else 0)

/-- A Boolean result: 1 for true, 0 for false (00_scope.md R13). -/
def boolWord (b : Bool) : Word := if b then 1 else 0

/-- A count as a 32-bit result. The spec states no result for a count that does not fit (log entry 9). -/
def countWord (n : Nat) : Word := if n < 2 ^ 32 then BitVec.ofNat 32 n else Config.unstatedCount n

/-! ## Parameters and derived quantities -/

/-- `MAX_PINS`, 20 .. 32 (00_scope.md R8). -/
def maxPins (c : Config) : Nat := c.extraPins.val + 20

/-- Whether a payload of `n` words is within `PAYLOAD_MAX` (20_memory.md R62). -/
def fits (c : Config) (n : Nat) : Bool :=
  match c.payloadMax with
  | none => true
  | some m => n ≤ m

/-- `maxbits = 31 if streamed else 32` (10_state.md R39). -/
def maxbits (streamed : Bool) : Nat := if streamed then 31 else 32

/-- `maxmask` (10_state.md R39). -/
def maxmask (streamed : Bool) : Word := if streamed then 0x7FFFFFFF else 0xFFFFFFFF

/-! ## The field store (10_state.md R34) -/

/-- The address of the key `(fid, slice, index)`: 24 bits. -/
def fieldKey (fid slice index : Slot) : Nat := fid.toNat * 65536 + slice.toNat * 256 + index.toNat

/-- The value under a key; an unlisted key reads 0 (10_state.md R44). -/
def Memory.read : Memory → Nat → Word
  | [], _ => 0
  | (k, v) :: m, a => if a = k then v else Memory.read m a

/-- The store with `v` under key `a`, in the canonical form: writing 0 removes the entry. -/
def Memory.write : Memory → Nat → Word → Memory
  | [], a, v => if v = 0#32 then [] else [(a, v)]
  | (k, x) :: m, a, v =>
    if a < k then (if v = 0#32 then (k, x) :: m else (a, v) :: (k, x) :: m)
    else if a = k then (if v = 0#32 then m else (a, v) :: m)
    else (k, x) :: Memory.write m a v

/-- The canonical form: keys strictly rising and within 24 bits, no value 0. -/
abbrev Memory.wf (m : Memory) : Prop :=
  m.Pairwise (fun x y => x.1 < y.1) ∧ (∀ x ∈ m, x.1 < 2 ^ 24) ∧ (∀ x ∈ m, x.2 ≠ 0)

/-- `fields[(fid, slice, index)]` (10_state.md R34). -/
def State.field (s : State) (fid slice index : Slot) : Word := s.fields.read (fieldKey fid slice index)

/-- `fields[(fid, slice, index)] <- v` (10_state.md R34). -/
def State.setField (s : State) (fid slice index : Slot) (v : Word) : State :=
  { s with fields := s.fields.write (fieldKey fid slice index) v }

/-! ## The payload store (00_scope.md R12; 20_memory.md R60) -/

/-- `MemRead(i, 32)`; every caller has `i < len(payload)`. -/
def memRead (payload : List Word) (i : Nat) : Word := payload.getD i 0

/-- `MemWrite(i, 32, w)`; every caller has `i < len(payload)`. -/
def memWrite (payload : List Word) (i : Nat) (w : Word) : List Word := payload.set i w

/-- `MemAppend(w)`, refused FULL when the payload would exceed `PAYLOAD_MAX` (20_memory.md R62). -/
def memAppend (s : State) (w : Word) : Except Status State :=
  if fits s.cfg (s.payload.length + 1) then .ok { s with payload := s.payload ++ [w] } else .error .full

/-! ## The lane registers (10_state.md R25, R26) -/

/-- `pincur[p]`. -/
def State.cursor (s : State) (p : Nat) : Nat := s.pincur[p]?.getD 0

/-- `par[p]`. -/
def State.parity (s : State) (p : Nat) : Bool := s.par[p]?.getD true

/-- `pincur[p] <- n`. -/
def State.setCursor (s : State) (p n : Nat) : State := { s with pincur := s.pincur.setIfInBounds p n }

/-- `par[p] <- b`. -/
def State.setParity (s : State) (p : Nat) (b : Bool) : State := { s with par := s.par.setIfInBounds p b }

/-- Every `pincur[p] <- 0` and every `par[p] <- 1` (40_bitstream.md R131, R140). -/
def State.resetLanes (s : State) : State :=
  { s with pincur := Vector.replicate 32 0, par := Vector.replicate 32 true }

/-! ## How a command ends (00_scope.md R13; 60_exceptions.md R300) -/

/-- The numeric code of a status (60_exceptions.md R301). -/
def Status.code : Status → BitVec 4
  | .ok => 0
  | .illegalCmd => 1
  | .badOperand => 2
  | .badState => 3
  | .unsupported => 4
  | .structural => 5
  | .full => 6

/-- The 36-bit response word RESP36 (30_encoding.md R91). -/
def Response.word36 (r : Response) : BitVec 36 := r.status.code ++ r.result

/-- The response goes out. -/
def State.answer (s : State) (c : Status) (r : Word) : State := { s with resp := some ⟨c, r⟩ }

/-- `raise Refuse(code)`: no state element changes, the response carries the code and result 0 (00_scope.md R13;
60_exceptions.md R300, R312). The block's only counterpart of taking an exception; nothing is returned from. -/
def State.refuse (s : State) (c : Status) : State := s.answer c 0

/-- A command ends in `return (OK, r)` with its writes, or in `raise Refuse(code)` with none (00_scope.md R13). -/
def finish (s : State) : Except Status (State × Word) → Host.Outcome State Fault Refusal
  | .ok (t, r) => .next (t.answer .ok r)
  | .error c => .next (s.refuse c)

/-- A command that always completes. -/
def complete (t : State) (r : Word) : Host.Outcome State Fault Refusal := .next (t.answer .ok r)

/-! ## Values the spec leaves unspecified (00_scope.md R13; 93_implementation_defined.md U1 to U5) -/

/-- An unspecified 32-bit value, a fresh one each time (U1, U2; log entry 6). -/
def State.drawWord (s : State) : State × Word := ({ s with free := s.free + 1 }, Config.freeWord s.free)

/-- An unspecified Boolean result, a fresh one each time (U3; log entry 7). -/
def State.drawBit (s : State) : State × Word := ({ s with free := s.free + 1 }, boolWord (Config.freeBit s.free))

/-! ## Reset and the output port -/

/-- The reset input: every state element at the value of 10_state.md R43 (70_reset_and_hazards.md R340). The parameters
are not state (R42); what the host has yet to present, and the model's count of free values, stay. -/
def applyReset (s : State) : State := { State.reset with cfg := s.cfg, port := s.port, free := s.free }

/-- The host removes `n` words from the front of `out` (10_state.md R37). -/
def drainOut (n : Nat) (s : State) : State := { s with out := s.out.drop n }

end Sys2Proof.Machine
end

