-- ==== Sys2Proof/Machine/Operands.lean ====
section
/-! DEFINITION. Operands: field selectors, kinds, classification of words, header and trailer fields, operand ranges, and
the look-ups in the parameters. -/

namespace Sys2Proof.Machine

open Sys2Proof

/-! ## Word classification (30_encoding.md R100) -/

/-- The kinds of a Word. -/
inductive WordKind where
  | data | header | status
deriving DecidableEq, Repr

/-- `wordtype(w)` (30_encoding.md R100; 90_conflicts.md C1). -/
def wordtype (w : Word) : WordKind :=
  if w.extractLsb' 30 2 = 0b11#2 then (if w.extractLsb' 28 2 = 0b01#2 then .status else .header) else .data

/-- The result codes of WORD_TYPE (42_header_trailer.md R201). -/
def WordKind.code : WordKind → Word
  | .data => 0
  | .header => 1
  | .status => 2

/-! ## Header and trailer fields -/

/-- Position `(lo, width)` of a header field by its selector (30_encoding.md R104, R112). -/
def hdrField (sel : Slot) : Option (Nat × Nat) :=
  match sel.toNat with
  | 0 => some (28, 4)
  | 1 => some (25, 3)
  | 2 => some (22, 3)
  | 3 => some (16, 6)
  | 4 => some (12, 4)
  | 5 => some (8, 4)
  | 6 => some (4, 4)
  | 7 => some (0, 4)
  | _ => none

/-- Position `(lo, width)` of a trailer field by its selector (30_encoding.md R108, R112). -/
def stField (sel : Slot) : Option (Nat × Nat) :=
  match sel.toNat with
  | 0 => some (22, 6)
  | 1 => some (7, 1)
  | 2 => some (6, 1)
  | 3 => some (4, 1)
  | 4 => some (3, 1)
  | 5 => some (2, 1)
  | 6 => some (1, 1)
  | 7 => some (0, 1)
  | _ => none

/-- `w` with the field at `(lo, width)` replaced by the low bits of `value` (42_header_trailer.md R206). -/
def replaceField (w : Word) (lo width : Nat) (value : Word) : Word :=
  (w &&& ~~~(mask width <<< lo)) ||| ((value &&& mask width) <<< lo)

/-- `version` = `hdr[27:25]` (10_state.md R30). -/
def hdrVersion (h : Word) : BitVec 3 := h.extractLsb' 25 3
/-- `format` = `hdr[24:22]`. -/
def hdrFormat (h : Word) : BitVec 3 := h.extractLsb' 22 3
/-- `slices2` = `hdr[7:4]`. -/
def hdrSlices2 (h : Word) : BitVec 4 := h.extractLsb' 4 4
/-- `slices1` = `hdr[3:0]`. -/
def hdrSlices1 (h : Word) : BitVec 4 := h.extractLsb' 0 4

/-- `ERR_MASK`: `failingBCN` and the seven flags (30_encoding.md R109). -/
def errMask : Word := 0x0FC000DF

/-- A trailer is present exactly when an error field is set (30_encoding.md R109). -/
def trailerPresent (trl : Word) : Bool := trl &&& errMask != 0

/-! ## Operand ranges (60_exceptions.md R301, R311) -/

/-- `0 <= nbits <= maxbits` for PACK and UNPACK (40_bitstream.md R133). -/
def serialWidthOk (s : State) (nbits : Nat) : Bool := nbits ≤ maxbits s.streamed

/-- `0 <= nbits <= 32` for PACK_NEUTRAL and UNPACK_NEUTRAL (41_neutral.md R171). -/
def neutralWidthOk (nbits : Nat) : Bool := nbits ≤ 32

/-- `0 <= pin < MAX_PINS` (41_neutral.md R171). -/
def pinOk (s : State) (pin : Nat) : Bool := pin < maxPins s.cfg

/-- The kind of a code (30_encoding.md R113). -/
def kindOfCode (code : Slot) : Option Kind :=
  match code.toNat with
  | 0 => some .ppm
  | 1 => some .cpm
  | 2 => some .cpmRoi
  | 3 => some .jem
  | 4 => some .jemRoi
  | 5 => some .cmmCp
  | 6 => some .cmmJet
  | 7 => some .cmmEnergy
  | _ => none

/-! ## Which commands the pass allows (10_state.md R35, R36) -/

/-- A serial packing command may run. -/
def maySerialPack (s : State) : Bool := s.pass == .pack && s.pmode != .neutral
/-- A serial unpacking command may run. -/
def maySerialUnpack (s : State) : Bool := s.pass == .unpack && s.pmode != .neutral
/-- A neutral packing command may run. -/
def mayNeutralPack (s : State) : Bool := s.pass == .pack && s.pmode != .serial
/-- A neutral unpacking command may run. -/
def mayNeutralUnpack (s : State) : Bool := s.pass == .unpack && s.pmode != .serial

/-! ## The parameters LAYOUT, SLICES_HDR, ROI_MATCH, ROI_LAYOUT -/

/-- `PARITY_FID` (43_marshaller.md R268). -/
def parityFid : Slot := 255

/-- `HAS_COMPRESSION`, fixed false by the spec (43_marshaller.md R265). -/
def hasCompression : Bool := false

/-- The payload words that a serial layout fills: `ceil(sum of widths / maxbits)` (43_marshaller.md R263). -/
def serialWords (L : SerialLayout) : Nat :=
  ((L.items.map (·.width)).sum + maxbits L.streamed - 1) / maxbits L.streamed

/-- `slicesLUT + slicesFADC` of a header: its two slice counts, in one order or the other (43_marshaller.md R258; log
entry 22). -/
def ppmSlices (key : LayoutKey) : Nat := key.slices1.toNat + key.slices2.toNat

/-- The number of channels of a PPM layout, one payload word for each channel and sample (43_marshaller.md R257, R258). -/
def ppmChannels (key : LayoutKey) (L : SerialLayout) : Nat := serialWords L / ppmSlices key

/-- The PPM length invariant: the items fill exactly `channels x (slicesLUT + slicesFADC)` words (43_marshaller.md R258). -/
def ppmLengthOk (key : LayoutKey) (L : SerialLayout) : Bool := serialWords L == ppmChannels key L * ppmSlices key

/-- Slices of one serial instance: PPM's layout holds all its samples; any other kind's instance holds one slice, and every
item has slice 0 (43_marshaller.md R258, R259). -/
def instanceSlicesOk (key : LayoutKey) (L : SerialLayout) : Bool :=
  if key.kind = .ppm then ppmLengthOk key L else L.items.all (fun it => it.slice == 0)

/-- A well-formed serial descriptor for this kind and header (43_marshaller.md R255, R258, R259, R268). -/
def serialLayoutWf (key : LayoutKey) (L : SerialLayout) : Bool :=
  key.format == 1 && L.items.all (fun it => it.width ≤ maxbits L.streamed && it.fid != parityFid) && instanceSlicesOk key L

/-- The sum of the widths of a pin's items in one slice. -/
def laneBits (L : NeutralLayout) (pin : Nat) : Nat :=
  ((L.items.filter (fun it => it.pin == pin)).map (·.width)).sum

/-- A well-formed neutral descriptor for a header with this `format` in a block with this `MAX_PINS` (43_marshaller.md
R254, R256, R268). -/
def neutralLayoutWf (pins : Nat) (format : BitVec 3) (L : NeutralLayout) : Bool :=
  format == 0 && decide (1 ≤ L.bpspp) && decide L.pins.Nodup &&
    L.pins.all (fun p => p < pins && laneBits L p == L.bpspp - 1) &&
    L.items.all (fun it => L.pins.contains it.pin && it.width ≤ 32 && it.fid != parityFid)

/-- A descriptor that the parameter `LAYOUT` may give for this kind and header (43_marshaller.md R255, R256, R258, R259). -/
def layoutWf (pins : Nat) (key : LayoutKey) : Layout → Bool
  | .serial L => serialLayoutWf key L
  | .neutral L => neutralLayoutWf pins key.format L

/-- What `LAYOUT` sees of a header (43_marshaller.md R254). -/
def layoutKey (kind : Kind) (h : Word) : LayoutKey :=
  ⟨kind, hdrVersion h, hdrFormat h, hdrSlices1 h, hdrSlices2 h⟩

/-- `LAYOUT(kind, hdr)`: the first row of the table with this key, if it is well formed (log entry 4). -/
def layoutOf (c : Config) (kind : Kind) (h : Word) : Option Layout :=
  let key := layoutKey kind h
  match c.layouts.find? (fun r => r.key == key) with
  | none => none
  | some r => if layoutWf (maxPins c) key r.layout then some r.layout else none

/-- `SLICES_HDR(kind, slices1, slices2)`, 0 .. 255 (43_marshaller.md R260). -/
def slicesHdr (c : Config) (kind : Kind) (slices1 slices2 : BitVec 4) : Nat :=
  match c.slicesHdr.find? (fun r => r.kind == kind && r.slices1 == slices1 && r.slices2 == slices2) with
  | none => slices1.toNat
  | some r => r.count.toNat

/-- `ROI_MATCH(kind, word)` (43_marshaller.md R269). -/
def roiMatch (c : Config) (kind : Kind) (w : Word) : Bool :=
  c.roiMatch.any (fun p => p.kind == kind && w &&& p.mask == p.value)

/-- The entry is a slice `word[lo+width-1 : lo]` of the word (43_marshaller.md R269; 00_scope.md R9). -/
def roiSliceOk (f : RoiField) : Bool := 1 ≤ f.width && f.lo + f.width ≤ 32

/-- The bit ranges of two entries do not overlap (43_marshaller.md R269). -/
abbrev roiApart (f g : RoiField) : Prop := f.lo + f.width ≤ g.lo ∨ g.lo + g.width ≤ f.lo

/-- "A list of non-overlapping slices of the word" (43_marshaller.md R269; 93_implementation_defined.md section 2). -/
def roiLayoutWf (l : List RoiField) : Bool := l.all roiSliceOk && decide (l.Pairwise roiApart)

/-- `ROI_LAYOUT(kind)` (43_marshaller.md R269): the kind's entries in order, if they are well formed (log entry 18). -/
def roiLayout (c : Config) (kind : Kind) : List RoiField :=
  let l := c.roiLayout.filter (fun f => f.kind == kind)
  if roiLayoutWf l then l else []

end Sys2Proof.Machine
end

