-- ==== Sys2Proof/Machine/Flags.lean ====
section
/-! DEFINITION. The flags: the sticky `ok` (10_state.md R27) and the running odd parities (10_state.md R26;
41_neutral.md R178). The block has no other condition codes (10_state.md R29). -/

namespace Sys2Proof.Machine

open Sys2Proof

/-- The odd-parity identity (41_neutral.md R178). -/
def parityIdentity : Bool := true

/-- `par <- par ^ d` (41_neutral.md R172, R178). -/
def foldParity (par d : Bool) : Bool := par ^^ d

/-- The parity after the low `n` bits of `value` are folded in, bit 0 first. -/
def foldParityBits (par : Bool) (value : Word) : Nat → Bool
  | 0 => par
  | n + 1 => foldParity (foldParityBits par value n) (value.getLsbD n)

/-- "The received parity bit disagrees with the recomputed one" (41_neutral.md R177). -/
def parityMismatch (received par : Bool) : Bool := received != par

/-- `ok <- 0` (40_bitstream.md R143; 41_neutral.md R176, R177). -/
def State.truncated (s : State) : State := { s with ok := false }

end Sys2Proof.Machine
end

