-- ==== Sys2Proof/Machine/Control.lean ====
section
/-! DEFINITION. The control commands and queries of 40_bitstream.md. -/

namespace Sys2Proof.Machine

open Sys2Proof

/-- What CLEAR does (40_bitstream.md R131): everything but `streamed`, `kind` and `out`. -/
def clearState (s : State) : State :=
  { s.resetLanes with
    payload := [], acc := 0, wcur := 0, rpos := 0, rbit := 0, ok := true, hdr := 0, trl := 0, fields := [],
    pass := .pack, pmode := .none, rd := .idle }

/-- What SET_STREAMED does (40_bitstream.md R132). -/
def setStreamedBody (s : State) : Except Status State :=
  if s.pmode != .none then .error .badState else .ok { s with streamed := true }

/-- What UNPACK_INIT does (40_bitstream.md R140). -/
def unpackInitBody (s : State) : Except Status State :=
  if s.wcur != 0 then .error .badState
  else .ok { s.resetLanes with rpos := 0, rbit := 0, ok := true, pass := .unpack, pmode := .none }

/-- The loop of MIN_BITS: from `n` upwards, at most `fuel` times (40_bitstream.md R145). -/
def minBitsFrom (value : Nat) : Nat → Nat → Nat
  | 0, n => n
  | fuel + 1, n => if value ≥ 2 ^ n then minBitsFrom value fuel (n + 1) else n

/-- The smallest field width able to hold `value`, 0 .. 32 (40_bitstream.md R145). -/
def minBitsOf (value : Word) : Nat := minBitsFrom value.toNat 32 0

/-- A body without a result returns 0 (30_encoding.md R91). -/
def noResult : Except Status State → Except Status (State × Word)
  | .ok t => .ok (t, 0)
  | .error c => .error c

/-- CLEAR (R131). -/
def execClear (s : State) : Host.Outcome State Fault Refusal := complete (clearState s) 0

/-- SET_STREAMED (R132). -/
def execSetStreamed (s : State) : Host.Outcome State Fault Refusal := finish s (noResult (setStreamedBody s))

/-- UNPACK_INIT (R140). -/
def execUnpackInit (s : State) : Host.Outcome State Fault Refusal := finish s (noResult (unpackInitBody s))

/-- UNPACK_SUCCESS (R144). -/
def execUnpackSuccess (s : State) : Host.Outcome State Fault Refusal := complete s (boolWord s.ok)

/-- MIN_BITS (R145). -/
def execMinBits (value : Word) (s : State) : Host.Outcome State Fault Refusal :=
  complete s (BitVec.ofNat 32 (minBitsOf value))

/-- DATA_WORDS (R148). -/
def execDataWords (s : State) : Host.Outcome State Fault Refusal := complete s (countWord s.payload.length)

end Sys2Proof.Machine
end

