-- ==== Sys2Proof/Machine/Header.lean ====
section
/-! DEFINITION. The helpers over a bare Word, the header register and the trailer register (42_header_trailer.md R200 to
R223). -/

namespace Sys2Proof.Machine

open Sys2Proof

/-! ## Helpers over a bare word: no state is read or written (R200) -/

/-- WORD_TYPE (R201). -/
def execWordType (word : Word) (s : State) : Host.Outcome State Fault Refusal := complete s (wordtype word).code

/-- WORD_ID: `word[31:28]` (R202). -/
def execWordId (word : Word) (s : State) : Host.Outcome State Fault Refusal := complete s (wordSlice word 28 4)

/-- WORD_FORMAT: `word[24:22]` (R203). -/
def execWordFormat (word : Word) (s : State) : Host.Outcome State Fault Refusal := complete s (wordSlice word 22 3)

/-- WORD_SEQNO: `word[21:16]` (R204). -/
def execWordSeqno (word : Word) (s : State) : Host.Outcome State Fault Refusal := complete s (wordSlice word 16 6)

/-- WORD_MODULE: `word[11:8]` (R205). -/
def execWordModule (word : Word) (s : State) : Host.Outcome State Fault Refusal := complete s (wordSlice word 8 4)

/-! ## The header register -/

/-- What HDR_SET does (R206). -/
def hdrSetBody (field : Slot) (value : Word) (s : State) : Except Status State :=
  match hdrField field with
  | none => .error .badOperand
  | some (lo, width) => .ok { s with hdr := replaceField s.hdr lo width value }

/-- What HDR_GET answers (R207). -/
def hdrGetBody (field : Slot) (s : State) : Except Status (State × Word) :=
  match hdrField field with
  | none => .error .badOperand
  | some (lo, width) => .ok (s, wordSlice s.hdr lo width)

/-- What HDR_WORD answers (R208). -/
def hdrWordBody (s : State) : Except Status (State × Word) :=
  if wordtype s.hdr != .header then .error .badState else .ok (s, s.hdr)

/-- What HDR_LOAD does (R209). -/
def hdrLoadBody (word : Word) (s : State) : Except Status State :=
  if wordtype word != .header then .error .structural else .ok { s with hdr := word }

/-- HDR_SET (R206). -/
def execHdrSet (field : Slot) (value : Word) (s : State) : Host.Outcome State Fault Refusal :=
  finish s (noResult (hdrSetBody field value s))

/-- HDR_GET (R207). -/
def execHdrGet (field : Slot) (s : State) : Host.Outcome State Fault Refusal := finish s (hdrGetBody field s)

/-- HDR_WORD (R208). -/
def execHdrWord (s : State) : Host.Outcome State Fault Refusal := finish s (hdrWordBody s)

/-- HDR_LOAD (R209). -/
def execHdrLoad (word : Word) (s : State) : Host.Outcome State Fault Refusal := finish s (noResult (hdrLoadBody word s))

/-! ## The trailer register -/

/-- The trailer that ST_SET makes: the Status pattern, the error fields, the copies of the header's `seqno`, `crate` and
`module`; 0 when no error field is set (R220). -/
def trailerOf (hdr value : Word) : Word :=
  let e := value &&& errMask
  if e = 0 then 0 else 0xD0000000 ||| e ||| (hdr &&& 0x003FFF00)

/-- What ST_GET answers (R221). -/
def stGetBody (field : Slot) (s : State) : Except Status (State × Word) :=
  match stField field with
  | none => .error .badOperand
  | some (lo, width) => .ok (s, wordSlice s.trl lo width)

/-- What ST_LOAD does (R223). -/
def stLoadBody (word : Word) (s : State) : Except Status State :=
  if wordtype word != .status then .error .structural else .ok { s with trl := word }

/-- ST_SET (R220). -/
def execStSet (value : Word) (s : State) : Host.Outcome State Fault Refusal :=
  complete { s with trl := trailerOf s.hdr value } 0

/-- ST_GET (R221). -/
def execStGet (field : Slot) (s : State) : Host.Outcome State Fault Refusal := finish s (stGetBody field s)

/-- ST_WORD: the trailer as WRITE would emit it, or 0 (R222). -/
def execStWord (s : State) : Host.Outcome State Fault Refusal :=
  complete s (if trailerPresent s.trl then s.trl else 0)

/-- ST_LOAD (R223). -/
def execStLoad (word : Word) (s : State) : Host.Outcome State Fault Refusal := finish s (noResult (stLoadBody word s))

end Sys2Proof.Machine
end

