-- ==== Sys2Proof/Machine/Neutral.lean ====
section
/-! DEFINITION. The neutral multiplexer: per-pin lanes with running odd parity (41_neutral.md R170 to R178). -/

namespace Sys2Proof.Machine

open Sys2Proof

/-- The payload with rows `NEUTRAL_FILL` added until it has `need` rows (41_neutral.md R173). -/
def growTo (fill : Word) (need : Nat) (payload : List Word) : List Word :=
  payload ++ List.replicate (need - payload.length) fill

/-- Bits 0 .. n-1 of `value` written into column `pin` from row `row` on, bit 0 first (41_neutral.md R172). -/
def putBits (pin row : Nat) (value : Word) : Nat → List Word → List Word
  | 0, payload => payload
  | n + 1, payload =>
    let p := putBits pin row value n payload
    memWrite p (row + n) (setbit (memRead p (row + n)) pin (value.getLsbD n))

/-- Bits of column `pin` in rows `row` .. `row+n-1`, the first as bit 0 (41_neutral.md R175). -/
def getBits (payload : List Word) (pin row : Nat) : Nat → Word
  | 0 => 0
  | n + 1 => getBits payload pin row n ||| (boolWord ((memRead payload (row + n)).getLsbD pin) <<< n)

/-- PACK_NEUTRAL (41_neutral.md R172). -/
def packNeutralBody (pin : Nat) (value : Word) (nbits : Nat) (s : State) : Except Status State :=
  if !(pinOk s pin && neutralWidthOk nbits) then .error .badOperand
  else if !mayNeutralPack s then .error .badState
  else
    let need := s.cursor pin + nbits
    if !fits s.cfg need then .error .full
    else
      let t := (s.setParity pin (foldParityBits (s.parity pin) value nbits)).setCursor pin need
      .ok { t with
        payload := putBits pin (s.cursor pin) value nbits (growTo s.cfg.neutralFill need s.payload), pmode := .neutral }

/-- PACK_NEUTRAL_PARITY (41_neutral.md R174). -/
def packNeutralParityBody (pin : Nat) (s : State) : Except Status State :=
  if !pinOk s pin then .error .badOperand
  else if !mayNeutralPack s then .error .badState
  else
    let need := s.cursor pin + 1
    if !fits s.cfg need then .error .full
    else
      let t := (s.setParity pin parityIdentity).setCursor pin need
      .ok { t with
        payload := putBits pin (s.cursor pin) (boolWord (s.parity pin)) 1 (growTo s.cfg.neutralFill need s.payload),
        pmode := .neutral }

/-- UNPACK_NEUTRAL (41_neutral.md R175, R176). -/
def unpackNeutralBody (pin nbits : Nat) (s : State) : Except Status (State × Word) :=
  if !(pinOk s pin && neutralWidthOk nbits) then .error .badOperand
  else if !mayNeutralUnpack s then .error .badState
  else
    let t := { s with pmode := .neutral }
    if nbits = 0 then .ok (t, 0)
    else if s.cursor pin + nbits > s.payload.length then .ok t.truncated.drawWord
    else
      let val := getBits s.payload pin (s.cursor pin) nbits
      .ok ((t.setParity pin (foldParityBits (s.parity pin) val nbits)).setCursor pin (s.cursor pin + nbits), val)

/-- UNPACK_NEUTRAL_PARITY_ERROR (41_neutral.md R177). -/
def unpackNeutralParityErrorBody (pin : Nat) (s : State) : Except Status (State × Word) :=
  if !pinOk s pin then .error .badOperand
  else if !mayNeutralUnpack s then .error .badState
  else
    let t := { s with pmode := .neutral }.setParity pin parityIdentity
    if s.cursor pin ≥ s.payload.length then .ok t.truncated.drawBit
    else
      let received := (memRead s.payload (s.cursor pin)).getLsbD pin
      .ok (t.setCursor pin (s.cursor pin + 1), boolWord (parityMismatch received (s.parity pin)))

/-- PACK_NEUTRAL (R172). -/
def execPackNeutral (pin : Slot) (value : Word) (nbits : Slot) (s : State) : Host.Outcome State Fault Refusal :=
  finish s (noResult (packNeutralBody pin.toNat value nbits.toNat s))

/-- PACK_NEUTRAL_PARITY (R174). -/
def execPackNeutralParity (pin : Slot) (s : State) : Host.Outcome State Fault Refusal :=
  finish s (noResult (packNeutralParityBody pin.toNat s))

/-- UNPACK_NEUTRAL (R175, R176). -/
def execUnpackNeutral (pin nbits : Slot) (s : State) : Host.Outcome State Fault Refusal :=
  finish s (unpackNeutralBody pin.toNat nbits.toNat s)

/-- UNPACK_NEUTRAL_PARITY_ERROR (R177). -/
def execUnpackNeutralParityError (pin : Slot) (s : State) : Host.Outcome State Fault Refusal :=
  finish s (unpackNeutralParityErrorBody pin.toNat s)

end Sys2Proof.Machine
end

