-- ==== Sys2Proof/Machine/Serial.lean ====
section
/-! DEFINITION. The serial bitstream packer and unpacker (40_bitstream.md R133 to R143). -/

namespace Sys2Proof.Machine

open Sys2Proof

/-- A completed word: cut to the word width, bit 31 marked in streamed mode if `STREAM_MARK` (40_bitstream.md R134). -/
def emittedWord (s : State) (a : Word) : Word :=
  let w := a &&& maxmask s.streamed
  if s.streamed && s.cfg.streamMark then w ||| 0x80000000 else w

/-- What PACK does once its checks have passed (40_bitstream.md R134). -/
def packStep (value : Word) (nbits : Nat) (s : State) : Except Status State :=
  let x := value &&& mask nbits
  let a := s.acc ||| (x <<< s.wcur)
  let c := s.wcur + nbits
  if c ≥ maxbits s.streamed then
    let left := c - maxbits s.streamed
    match memAppend s (emittedWord s a) with
    | .ok t => .ok { t with acc := x >>> (nbits - left), wcur := left, pmode := .serial }
    | .error e => .error e
  else .ok { s with acc := a, wcur := c, pmode := .serial }

/-- PACK: its checks, then its effect (40_bitstream.md R134). -/
def packBody (value : Word) (nbits : Nat) (s : State) : Except Status State :=
  if !serialWidthOk s nbits then .error .badOperand
  else if !maySerialPack s then .error .badState
  else packStep value nbits s

/-- PACK_FLUSH (40_bitstream.md R136). -/
def packFlushBody (s : State) : Except Status State :=
  if !maySerialPack s then .error .badState
  else if s.wcur > 0 then
    match memAppend s (emittedWord s s.acc) with
    | .ok t => .ok { t with acc := 0, wcur := 0, pmode := .serial }
    | .error e => .error e
  else .ok { s with pmode := .serial }

/-- The bits left in the bitstream (40_bitstream.md R142). -/
def availableBits (s : State) : Nat := (s.payload.length - s.rpos) * maxbits s.streamed - s.rbit

/-- UNPACK out of data: `ok <- 0`, the cursor at the end, an unspecified value (40_bitstream.md R143). -/
def unpackTruncated (s : State) : State × Word :=
  { s with rpos := s.payload.length, rbit := 0 }.truncated.drawWord

/-- UNPACK with enough bits left: the value drawn and the cursor moved (40_bitstream.md R142). -/
def unpackDraw (nbits : Nat) (s : State) : State × Word :=
  let n1 := min nbits (maxbits s.streamed - s.rbit)
  let lo := (memRead s.payload s.rpos >>> s.rbit) &&& mask n1
  if n1 = nbits then
    if s.rbit + nbits = maxbits s.streamed then ({ s with rpos := s.rpos + 1, rbit := 0 }, lo)
    else ({ s with rbit := s.rbit + nbits }, lo)
  else
    let hi := memRead s.payload (s.rpos + 1) &&& mask (nbits - n1)
    ({ s with rpos := s.rpos + 1, rbit := nbits - n1 }, lo ||| (hi <<< n1))

/-- UNPACK: its checks, then its effect (40_bitstream.md R142, R143). -/
def unpackBody (nbits : Nat) (s : State) : Except Status (State × Word) :=
  if !serialWidthOk s nbits then .error .badOperand
  else if !maySerialUnpack s then .error .badState
  else
    let t := { s with pmode := .serial }
    if nbits = 0 then .ok (t, 0)
    else if nbits > availableBits t then .ok (unpackTruncated t)
    else .ok (unpackDraw nbits t)

/-- PACK (R134). -/
def execPack (value : Word) (nbits : Slot) (s : State) : Host.Outcome State Fault Refusal :=
  finish s (noResult (packBody value nbits.toNat s))

/-- PACK_FLUSH (R136). -/
def execPackFlush (s : State) : Host.Outcome State Fault Refusal := finish s (noResult (packFlushBody s))

/-- UNPACK (R142, R143). -/
def execUnpack (nbits : Slot) (s : State) : Host.Outcome State Fault Refusal := finish s (unpackBody nbits.toNat s)

end Sys2Proof.Machine
end

