-- ==== Sys2Proof/Machine/Marshal.lean ====
section
/-! DEFINITION. The format-specific field marshaller (43_marshaller.md R250 to R269): an engine over the parameter LAYOUT,
built on the bodies of the bit-level commands (30_encoding.md R98). -/

namespace Sys2Proof.Machine

open Sys2Proof

/-! ## Slices -/

/-- The slice count of TIMESLICES (R260): from the header, else from a neutral payload, else 1. -/
def timeslicesOf (s : State) : Nat :=
  let n := slicesHdr s.cfg s.kind (hdrSlices1 s.hdr) (hdrSlices2 s.hdr)
  let n :=
    if n = 0 && hdrFormat s.hdr == 0 then
      match layoutOf s.cfg s.kind s.hdr with
      | some (.neutral L) => s.payload.length / L.bpspp
      | _ => n
    else n
  if n = 0 then 1 else n

/-! ## Packing -/

/-- PACK of every item, in order (R263). -/
def packItems : List SerialItem → State → Except Status State
  | [], s => .ok s
  | it :: rest, s =>
    match packBody (s.field it.fid it.slice it.index) it.width s with
    | .ok t => packItems rest t
    | .error e => .error e

/-- `packUncompressed(L)` (R263). -/
def packUncompressed (L : SerialLayout) (s : State) : Except Status State :=
  match packItems L.items (if L.streamed then { s with streamed := true } else s) with
  | .ok t => packFlushBody t
  | .error e => .error e

/-- PACK_NEUTRAL of every item of slice `slice`, in order (R264). -/
def packNeutralItems (slice : Slot) : List NeutralItem → State → Except Status State
  | [], s => .ok s
  | it :: rest, s =>
    match packNeutralBody it.pin (s.field it.fid slice it.index) it.width s with
    | .ok t => packNeutralItems slice rest t
    | .error e => .error e

/-- PACK_NEUTRAL_PARITY of every pin, in order (R264). -/
def packParities : List Nat → State → Except Status State
  | [], s => .ok s
  | pin :: rest, s =>
    match packNeutralParityBody pin s with
    | .ok t => packParities rest t
    | .error e => .error e

/-- The slices from `first` on, `count` of them (R264). -/
def packSlices (L : NeutralLayout) (first : Nat) : Nat → State → Except Status State
  | 0, s => .ok s
  | count + 1, s =>
    match packNeutralItems (BitVec.ofNat 8 first) L.items s with
    | .error e => .error e
    | .ok t =>
      match packParities L.pins t with
      | .error e => .error e
      | .ok u => packSlices L (first + 1) count u

/-- `packNeutral(L)` (R264). -/
def packNeutralLayout (L : NeutralLayout) (s : State) : Except Status State :=
  if timeslicesOf s > 256 then .error .badState else packSlices L 0 (timeslicesOf s) s

/-! ## Unpacking -/

/-- UNPACK of every item into the field store, in order (R267). -/
def unpackItems : List SerialItem → State → Except Status State
  | [], s => .ok s
  | it :: rest, s =>
    match unpackBody it.width s with
    | .ok (t, v) => unpackItems rest (t.setField it.fid it.slice it.index v)
    | .error e => .error e

/-- `unpackUncompressed(L)` (R267). -/
def unpackUncompressed (L : SerialLayout) (s : State) : Except Status State :=
  unpackItems L.items (if L.streamed then { s with streamed := true } else s)

/-- UNPACK_NEUTRAL of every item of slice `slice` into the field store, in order (R268). -/
def unpackNeutralItems (slice : Slot) : List NeutralItem → State → Except Status State
  | [], s => .ok s
  | it :: rest, s =>
    match unpackNeutralBody it.pin it.width s with
    | .ok (t, v) => unpackNeutralItems slice rest (t.setField it.fid slice it.index v)
    | .error e => .error e

/-- The parity result of every pin into the field store under `PARITY_FID`, in order (R268). -/
def unpackParities (slice : Slot) : List Nat → State → Except Status State
  | [], s => .ok s
  | pin :: rest, s =>
    match unpackNeutralParityErrorBody pin s with
    | .ok (t, v) => unpackParities slice rest (t.setField parityFid slice (BitVec.ofNat 8 pin) v)
    | .error e => .error e

/-- The slices from `first` on, `count` of them (R268). -/
def unpackSlices (L : NeutralLayout) (first : Nat) : Nat → State → Except Status State
  | 0, s => .ok s
  | count + 1, s =>
    match unpackNeutralItems (BitVec.ofNat 8 first) L.items s with
    | .error e => .error e
    | .ok t =>
      match unpackParities (BitVec.ofNat 8 first) L.pins t with
      | .error e => .error e
      | .ok u => unpackSlices L (first + 1) count u

/-- `unpackNeutral(L)` (R268). -/
def unpackNeutralLayout (L : NeutralLayout) (s : State) : Except Status State :=
  if timeslicesOf s > 256 then .error .badState else unpackSlices L 0 (timeslicesOf s) s

/-! ## Dispatch on the header -/

/-- The descriptor that MPACK and MUNPACK walk, with their common checks (R262, R265, R266): reserved and compressed
formats, and headers without a layout, are UNSUPPORTED; a block in streamed mode cannot walk a serial layout that is not. -/
def chooseLayout (s : State) : Except Status Layout :=
  let fmt := (hdrFormat s.hdr).toNat
  if fmt ≥ 4 then .error .unsupported
  else if fmt ≥ 2 && !hasCompression then .error .unsupported
  else
    match layoutOf s.cfg s.kind s.hdr with
    | none => .error .unsupported
    | some (.serial L) => if s.streamed && !L.streamed then .error .badState else .ok (.serial L)
    | some (.neutral L) => .ok (.neutral L)

/-- MPACK (R262). -/
def mpackBody (s : State) : Except Status (State × Word) :=
  if wordtype s.hdr != .header then .error .badState
  else if s.pass != .pack || s.pmode != .none || s.payload.length != 0 then .error .badState
  else
    match chooseLayout s with
    | .error e => .error e
    | .ok (.serial L) =>
      match packUncompressed L s with
      | .ok t => .ok (t, 1)
      | .error e => .error e
    | .ok (.neutral L) =>
      match packNeutralLayout L s with
      | .ok t => .ok (t, 1)
      | .error e => .error e

/-- MUNPACK (R266). -/
def munpackBody (s : State) : Except Status (State × Word) :=
  if wordtype s.hdr != .header then .error .badState
  else if s.wcur != 0 then .error .badState
  else
    match chooseLayout s with
    | .error e => .error e
    | .ok layout =>
      match unpackInitBody s with
      | .error e => .error e
      | .ok t =>
        match layout with
        | .serial L =>
          match unpackUncompressed L t with
          | .ok u => .ok (u, boolWord u.ok)
          | .error e => .error e
        | .neutral L =>
          match unpackNeutralLayout L t with
          | .ok u => .ok (u, boolWord u.ok)
          | .error e => .error e

/-! ## RoI words -/

/-- The fields of a bare RoI word into the field store, slice 0 (R269). -/
def roiStore (word : Word) : List RoiField → State → State
  | [], s => s
  | f :: rest, s => roiStore word rest (s.setField f.fid 0 f.index (wordSlice word f.lo f.width))

/-- Whether the kind is one of the two RoI kinds (R269). -/
def isRoiKind : Kind → Bool
  | .cpmRoi => true
  | .jemRoi => true
  | .ppm => false
  | .cpm => false
  | .jem => false
  | .cmmCp => false
  | .cmmJet => false
  | .cmmEnergy => false

/-- What ROI_LOAD does (R269). -/
def roiLoadBody (word : Word) (s : State) : State × Word :=
  if !isRoiKind s.kind then (s, 0)
  else if !roiMatch s.cfg s.kind word then (s, 0)
  else (roiStore word (roiLayout s.cfg s.kind) s, 1)

/-- What SET_KIND does (R251). -/
def setKindBody (kind : Slot) (s : State) : Except Status State :=
  match kindOfCode kind with
  | none => .error .badOperand
  | some k => .ok { s with kind := k }

/-! ## The commands -/

/-- SET_KIND (R251). -/
def execSetKind (kind : Slot) (s : State) : Host.Outcome State Fault Refusal := finish s (noResult (setKindBody kind s))

/-- TIMESLICES (R260). -/
def execTimeslices (s : State) : Host.Outcome State Fault Refusal := complete s (countWord (timeslicesOf s))

/-- FIELD_SET (R252). -/
def execFieldSet (fid slice index : Slot) (value : Word) (s : State) : Host.Outcome State Fault Refusal :=
  complete (s.setField fid slice index value) 0

/-- FIELD_GET (R253). -/
def execFieldGet (fid slice index : Slot) (s : State) : Host.Outcome State Fault Refusal :=
  complete s (s.field fid slice index)

/-- MPACK (R262). -/
def execMpack (s : State) : Host.Outcome State Fault Refusal := finish s (mpackBody s)

/-- MUNPACK (R266). -/
def execMunpack (s : State) : Host.Outcome State Fault Refusal := finish s (munpackBody s)

/-- ROI_LOAD (R269). -/
def execRoiLoad (word : Word) (s : State) : Host.Outcome State Fault Refusal :=
  complete (roiLoadBody word s).1 (roiLoadBody word s).2

end Sys2Proof.Machine
end

