-- ==== Sys2Proof/Machine/Stream.lean ====
section
/-! DEFINITION. Writing and reading a whole sub-block (42_header_trailer.md R230 to R232), and the seven shapes of a wire
word as they come in (30_encoding.md R100, R110). -/

namespace Sys2Proof.Machine

open Sys2Proof

/-- The sub-block on the wire: header, data words, trailer if present (30_encoding.md R110; 42_header_trailer.md R230). -/
def subBlockWords (s : State) : List Word :=
  [s.hdr] ++ s.payload ++ (if trailerPresent s.trl then [s.trl] else [])

/-- What WRITE does (R230). -/
def writeBody (s : State) : Except Status (State × Word) :=
  if wordtype s.hdr != .header then .error .badState
  else if s.wcur != 0 then .error .badState
  else .ok ({ s with out := s.out ++ subBlockWords s }, countWord (subBlockWords s).length)

/-- What the reader does with the next word of the fragment (R232). -/
def readWordBody (word : Word) (s : State) : Except Status (State × Word) :=
  match s.rd with
  | .idle => .error .badState
  | .expectHeader =>
    if wordtype word != .header then .error .structural
    else .ok ({ s with hdr := word, rd := .inData }, 1)
  | .inData =>
    match wordtype word with
    | .data =>
      match memAppend s word with
      | .ok t => .ok (t, 1)
      | .error e => .error e
    | .status => .ok ({ s with trl := word, rd := .done }, 1)
    | .header => .ok ({ s with rd := .done }, 0)
  | .done => .ok (s, 0)

/-- WRITE (R230). -/
def execWrite (s : State) : Host.Outcome State Fault Refusal := finish s (writeBody s)

/-- READ_BEGIN: all that CLEAR does, then the reader expects a header (R231). -/
def execReadBegin (s : State) : Host.Outcome State Fault Refusal :=
  complete { clearState s with rd := .expectHeader } 0

/-- READ_WORD (R232). -/
def execReadWord (word : Word) (s : State) : Host.Outcome State Fault Refusal := finish s (readWordBody word s)

/-! ## Wire words: the word comes in as the operand of READ_WORD (10_state.md R37; log entry 5) -/

/-- WORD.HEADER_C: a header word with `wordId` 0xC. -/
def execWordHeaderC (version format : BitVec 3) (seqno : BitVec 6) (crate modNo slices2 slices1 : BitVec 4) (s : State) :
    Host.Outcome State Fault Refusal :=
  finish s (readWordBody (headerWord 0xC version format seqno crate modNo slices2 slices1) s)

/-- WORD.HEADER_E: a header word with `wordId` 0xE. -/
def execWordHeaderE (version format : BitVec 3) (seqno : BitVec 6) (crate modNo slices2 slices1 : BitVec 4) (s : State) :
    Host.Outcome State Fault Refusal :=
  finish s (readWordBody (headerWord 0xE version format seqno crate modNo slices2 slices1) s)

/-- WORD.HEADER_F: a header word with `wordId` 0xF. -/
def execWordHeaderF (version format : BitVec 3) (seqno : BitVec 6) (crate modNo slices2 slices1 : BitVec 4) (s : State) :
    Host.Outcome State Fault Refusal :=
  finish s (readWordBody (headerWord 0xF version format seqno crate modNo slices2 slices1) s)

/-- WORD.STATUS: a trailer word. -/
def execWordStatus (failingBCN seqno : BitVec 6) (crate modNo : BitVec 4)
    (glinkTimeout glinkDown unused upstreamError daqOverflow bcnMismatch glinkProtocol glinkParity : BitVec 1) (s : State) :
    Host.Outcome State Fault Refusal :=
  finish s (readWordBody (statusWord failingBCN seqno crate modNo glinkTimeout glinkDown unused upstreamError daqOverflow bcnMismatch glinkProtocol glinkParity) s)

/-- WORD.DATA_00: a data word with top bits 00. -/
def execWordData00 (data : BitVec 30) (s : State) : Host.Outcome State Fault Refusal :=
  finish s (readWordBody (dataWord 0 data) s)

/-- WORD.DATA_01: a data word with top bits 01. -/
def execWordData01 (data : BitVec 30) (s : State) : Host.Outcome State Fault Refusal :=
  finish s (readWordBody (dataWord 1 data) s)

/-- WORD.DATA_10: a data word with top bits 10. -/
def execWordData10 (data : BitVec 30) (s : State) : Host.Outcome State Fault Refusal :=
  finish s (readWordBody (dataWord 2 data) s)

end Sys2Proof.Machine
end

