-- ==== Sys2Proof/Machine/Dispatch.lean ====
section
/-! DEFINITION. One arm per constructor of Instr, each one direct call of its meaning. -/

namespace Sys2Proof.Machine

open Sys2Proof

def exec (i : Instr) (s : State) : Host.Outcome State Fault Refusal :=
  match i with
  | .clear => Sys2Proof.Machine.execClear s
  | .setStreamed => Sys2Proof.Machine.execSetStreamed s
  | .unpackInit => Sys2Proof.Machine.execUnpackInit s
  | .unpackSuccess => Sys2Proof.Machine.execUnpackSuccess s
  | .minBits value => Sys2Proof.Machine.execMinBits value s
  | .setKind kind => Sys2Proof.Machine.execSetKind kind s
  | .dataWords => Sys2Proof.Machine.execDataWords s
  | .timeslices => Sys2Proof.Machine.execTimeslices s
  | .pack value nbits => Sys2Proof.Machine.execPack value nbits s
  | .packFlush => Sys2Proof.Machine.execPackFlush s
  | .unpack nbits => Sys2Proof.Machine.execUnpack nbits s
  | .packNeutral pin value nbits => Sys2Proof.Machine.execPackNeutral pin value nbits s
  | .packNeutralParity pin => Sys2Proof.Machine.execPackNeutralParity pin s
  | .unpackNeutral pin nbits => Sys2Proof.Machine.execUnpackNeutral pin nbits s
  | .unpackNeutralParityError pin => Sys2Proof.Machine.execUnpackNeutralParityError pin s
  | .hdrSet field value => Sys2Proof.Machine.execHdrSet field value s
  | .hdrGet field => Sys2Proof.Machine.execHdrGet field s
  | .hdrWord => Sys2Proof.Machine.execHdrWord s
  | .hdrLoad word => Sys2Proof.Machine.execHdrLoad word s
  | .wordType word => Sys2Proof.Machine.execWordType word s
  | .wordId word => Sys2Proof.Machine.execWordId word s
  | .wordFormat word => Sys2Proof.Machine.execWordFormat word s
  | .wordSeqno word => Sys2Proof.Machine.execWordSeqno word s
  | .wordModule word => Sys2Proof.Machine.execWordModule word s
  | .stSet value => Sys2Proof.Machine.execStSet value s
  | .stGet field => Sys2Proof.Machine.execStGet field s
  | .stWord => Sys2Proof.Machine.execStWord s
  | .stLoad word => Sys2Proof.Machine.execStLoad word s
  | .write => Sys2Proof.Machine.execWrite s
  | .readBegin => Sys2Proof.Machine.execReadBegin s
  | .readWord word => Sys2Proof.Machine.execReadWord word s
  | .fieldSet fid slice index value => Sys2Proof.Machine.execFieldSet fid slice index value s
  | .fieldGet fid slice index => Sys2Proof.Machine.execFieldGet fid slice index s
  | .mpack => Sys2Proof.Machine.execMpack s
  | .munpack => Sys2Proof.Machine.execMunpack s
  | .roiLoad word => Sys2Proof.Machine.execRoiLoad word s
  | .wordHeaderC version format seqno crate modNo slices2 slices1 => Sys2Proof.Machine.execWordHeaderC version format seqno crate modNo slices2 slices1 s
  | .wordHeaderE version format seqno crate modNo slices2 slices1 => Sys2Proof.Machine.execWordHeaderE version format seqno crate modNo slices2 slices1 s
  | .wordHeaderF version format seqno crate modNo slices2 slices1 => Sys2Proof.Machine.execWordHeaderF version format seqno crate modNo slices2 slices1 s
  | .wordStatus failingBCN seqno crate modNo glinkTimeout glinkDown unused upstreamError daqOverflow bcnMismatch glinkProtocol glinkParity => Sys2Proof.Machine.execWordStatus failingBCN seqno crate modNo glinkTimeout glinkDown unused upstreamError daqOverflow bcnMismatch glinkProtocol glinkParity s
  | .wordData00 data => Sys2Proof.Machine.execWordData00 data s
  | .wordData01 data => Sys2Proof.Machine.execWordData01 data s
  | .wordData10 data => Sys2Proof.Machine.execWordData10 data s

end Sys2Proof.Machine
end

