-- ==== Sys2Proof/Machine/Fetch.lean ====
section
/-! DEFINITION. Taking the next event from the ports (92_eei_decisions.md D1; 10_state.md R38). -/

namespace Sys2Proof.Machine

open Sys2Proof

/-- What the block finds at its ports, with the state from which the event is already taken. -/
inductive Fetched where
  /-- Nothing is offered: the block waits (70_reset_and_hazards.md R342). -/
  | nothing
  /-- The reset input. -/
  | reset (t : State)
  /-- The host removes words from `out`. -/
  | drain (n : Nat) (t : State)
  /-- A word that decodes. -/
  | run (i : Instr) (t : State)
  /-- A command word that is not a command (30_encoding.md R93, R94). -/
  | illegal (e : DecodeError) (t : State)
deriving DecidableEq, Repr

/-- Take the first event of `port` and decode it. -/
def fetch (s : State) : Fetched :=
  match s.port with
  | [] => .nothing
  | .reset :: rest => .reset { s with port := rest }
  | .drain n :: rest => .drain n { s with port := rest }
  | .word c :: rest =>
    match decode c with
    | .ok i => .run i { s with port := rest }
    | .error e => .illegal e { s with port := rest }

/-- A word that is not a command is refused ILLEGAL_CMD (30_encoding.md R93, R94). -/
def refuseIllegal (_e : DecodeError) (s : State) : State := s.refuse .illegalCmd

/-- The word of an opcode-table row, put where the next step fetches it. -/
def presentTableWord (nbits w : Nat) (s : State) : State :=
  match codeWordOfTable nbits w with
  | some c => { s with port := .word c :: s.port }
  | none => s

end Sys2Proof.Machine
end

