-- ==== Sys2Proof/Machine/Step.lean ====
section
/-! DEFINITION. One step of the block: take one event from the ports and do all of it (20_memory.md R70, R72). -/

namespace Sys2Proof.Machine

open Sys2Proof

/-- One step. With nothing offered the block waits (70_reset_and_hazards.md R342). -/
def step (s : State) : Host.Outcome State Fault Refusal :=
  match fetch s with
  | .nothing => .next s
  | .reset t => .next (applyReset t)
  | .drain n t => .next (drainOut n t)
  | .run i t => exec i t
  | .illegal e t => .next (refuseIllegal e t)

/-- `s` with the word of an opcode-table row offered next, so that the next step runs it (log entry 1). -/
def State.withFetchWord (s : State) (nbits w : Nat) : State := presentTableWord nbits w s

end Sys2Proof.Machine
end

