-- ==== Sys2Proof/Safety.lean ====
section
/-! DEFINITION. The terms that claims about the block use: the invariants of 10_state.md R40, the logical bitstream of
00_scope.md R14, what it is for a command to complete or to be refused, and runs of instructions. -/

namespace Sys2Proof.Machine

open Sys2Proof

/-- The invariants of 10_state.md R40 ((e) holds by the type of `par`), with the facts that R40's reasons rest on and
that make them hold step by step: what has not been touched since the pass began stands as the pass began, a trailer
word classifies as Status, and the field store keeps its canonical form. -/
structure State.Inv (s : State) : Prop where
  /-- R40 (a). -/
  wcur_lt : s.wcur < maxbits s.streamed
  /-- R40 (b). -/
  acc_lt : s.acc.toNat < 2 ^ s.wcur
  /-- R40 (c). -/
  rpos_le : s.rpos ≤ s.payload.length
  /-- R40 (c). -/
  rbit_lt : s.rbit < maxbits s.streamed
  /-- R40 (c). -/
  rbit_end : s.rpos = s.payload.length → s.rbit = 0
  /-- R40 (d). -/
  cursor_le : ∀ p < maxPins s.cfg, s.cursor p ≤ s.payload.length
  /-- R40 (f). -/
  fits_max : fits s.cfg s.payload.length = true
  /-- R40 (g). -/
  unpack_flushed : s.pass = .unpack → s.wcur = 0 ∧ s.acc = 0
  /-- Outside a serial pass both serial cursors stand at a word boundary. -/
  not_serial : s.pmode ≠ .serial → s.wcur = 0 ∧ s.rbit = 0
  /-- Outside a neutral pass every lane stands at row 0 with the odd-parity identity. -/
  not_neutral : s.pmode ≠ .neutral → ∀ p, s.cursor p = 0 ∧ s.parity p = true
  /-- The trailer register holds 0 or a Status word (10_state.md R31). -/
  trl_status : s.trl = 0 ∨ wordtype s.trl = .status
  /-- The field store is in its canonical form. -/
  fields_wf : s.fields.wf

/-- The first `n` bits of a word, bit 0 first. -/
def wordBits (n : Nat) (w : Word) : List Bool := (List.range n).map (fun k => w.getLsbD k)

/-- `bitstream(P, m)` (00_scope.md R14): bit number `i*m + j` is `P[i][j]`. -/
def bitstream (payload : List Word) (m : Nat) : List Bool := payload.flatMap (wordBits m)

/-- The bits packed so far: the payload's bitstream, then the low `wcur` bits of `acc` (40_bitstream.md R146). -/
def packedBits (s : State) : List Bool := bitstream s.payload (maxbits s.streamed) ++ wordBits s.wcur s.acc

/-- The unpacker's position in the bitstream (10_state.md R24). -/
def readPosition (s : State) : Nat := s.rpos * maxbits s.streamed + s.rbit

/-- The bit of lane `pin` in row `row` (41_neutral.md R170). -/
def laneBit (payload : List Word) (pin row : Nat) : Bool := (memRead payload row).getLsbD pin

/-- How many of the `n` rows from `row` on hold a 1 in column `pin`. -/
def laneOnes (payload : List Word) (pin row n : Nat) : Nat :=
  ((List.range n).filter (fun k => laneBit payload pin (row + k))).length

/-- The command completes: status OK with result `r`, and the state writes that make `t` of `s`. -/
def Completes (i : Instr) (s t : State) (r : Word) : Prop := exec i s = .next (t.answer .ok r)

/-- The command is refused with `c`: nothing else changes (00_scope.md R13). -/
def RefusedWith (i : Instr) (s : State) (c : Status) : Prop := exec i s = .next (s.refuse c)

/-- Instructions one after the other: the responses in order and the state they leave; none if one of them does not
answer. -/
def runAll : List Instr → State → Option (List Response × State)
  | [], s => some ([], s)
  | i :: rest, s =>
    match exec i s with
    | .next t =>
      match t.resp, runAll rest t with
      | some r, some (rs, u) => some (r :: rs, u)
      | _, _ => none
    | .fault _ => none
    | .refused _ => none

end Sys2Proof.Machine
end

