-- ==== Sys2Proof/Certificates/Slice0/Obligations.lean ====
section
/-! DEFINITION. The statements for the provers, and the few terms of spec/ they are written in. -/

open Sys2Proof Sys2Proof.Machine

namespace Sys2Proof.Spec

/-- `w[hi:lo]` as 00_scope.md R9 defines it: `(w >> lo) mod 2^(hi-lo+1)`. -/
def bits (w : Word) (hi lo : Nat) : Nat := w.toNat / 2 ^ lo % 2 ^ (hi - lo + 1)

/-- The low `n` bits of a value, bit 0 first. -/
def lowBits (value : Word) (n : Nat) : List Bool := (List.range n).map fun k => value.toNat.testBit k

/-- Whether the low `n` bits of a value hold an odd number of ones. -/
def oddOnes (value : Word) (n : Nat) : Bool := (lowBits value n).count true % 2 == 1

/-- `ceil(bits / width)`. -/
def wordsFor (bits width : Nat) : Nat := (bits + width - 1) / width

/-- The 36 rows of 30_encoding.md R96 as match and mask: the mask covers `op` and every unused field (R93). -/
def commandRows : List (CommandWord × CommandWord) :=
  [(0x0100000000000000, 0xFFFFFFFFFFFFFFFF), (0x0200000000000000, 0xFFFFFFFFFFFFFFFF), (0x0300000000000000, 0xFFFFFFFFFFFFFFFF),
   (0x0400000000000000, 0xFFFFFFFFFFFFFFFF), (0x0500000000000000, 0xFFFFFFFF00000000), (0x0600000000000000, 0xFF00FFFFFFFFFFFF),
   (0x0700000000000000, 0xFFFFFFFFFFFFFFFF), (0x0800000000000000, 0xFFFFFFFFFFFFFFFF), (0x1000000000000000, 0xFFFF00FF00000000),
   (0x1100000000000000, 0xFFFFFFFFFFFFFFFF), (0x1200000000000000, 0xFFFF00FFFFFFFFFF), (0x2000000000000000, 0xFF0000FF00000000)] ++
  [(0x2100000000000000, 0xFF00FFFFFFFFFFFF), (0x2200000000000000, 0xFF0000FFFFFFFFFF), (0x2300000000000000, 0xFF00FFFFFFFFFFFF),
   (0x3000000000000000, 0xFF00FFFF00000000), (0x3100000000000000, 0xFF00FFFFFFFFFFFF), (0x3200000000000000, 0xFFFFFFFFFFFFFFFF),
   (0x3300000000000000, 0xFFFFFFFF00000000), (0x3400000000000000, 0xFFFFFFFF00000000), (0x3500000000000000, 0xFFFFFFFF00000000),
   (0x3600000000000000, 0xFFFFFFFF00000000), (0x3700000000000000, 0xFFFFFFFF00000000), (0x3800000000000000, 0xFFFFFFFF00000000)] ++
  [(0x3900000000000000, 0xFFFFFFFF00000000), (0x3A00000000000000, 0xFF00FFFFFFFFFFFF), (0x3B00000000000000, 0xFFFFFFFFFFFFFFFF),
   (0x3C00000000000000, 0xFFFFFFFF00000000), (0x4000000000000000, 0xFFFFFFFFFFFFFFFF), (0x4100000000000000, 0xFFFFFFFFFFFFFFFF),
   (0x4200000000000000, 0xFFFFFFFF00000000), (0x5000000000000000, 0xFF00000000000000), (0x5100000000000000, 0xFF000000FFFFFFFF),
   (0x5200000000000000, 0xFFFFFFFFFFFFFFFF), (0x5300000000000000, 0xFFFFFFFFFFFFFFFF), (0x5400000000000000, 0xFFFFFFFF00000000)]

/-- The eight kinds in the order of their codes (30_encoding.md R113). -/
def kinds : List Kind := [.ppm, .cpm, .cpmRoi, .jem, .jemRoi, .cmmCp, .cmmJet, .cmmEnergy]

/-- The header fields `(hi, lo)` in the order of their selectors (30_encoding.md R104, R112). -/
def headerFields : List (Nat × Nat) := [(31, 28), (27, 25), (24, 22), (21, 16), (15, 12), (11, 8), (7, 4), (3, 0)]

/-- The trailer fields `(hi, lo)` in the order of their selectors (30_encoding.md R108, R112). -/
def trailerFields : List (Nat × Nat) := [(27, 22), (7, 7), (6, 6), (4, 4), (3, 3), (2, 2), (1, 1), (0, 0)]

/-- One field of a word by its selector. -/
def fieldBits (table : List (Nat × Nat)) (w : Word) (sel : Nat) : Nat :=
  match table[sel]? with
  | some (hi, lo) => bits w hi lo
  | none => 0

/-- The marker bit of an emitted word (40_bitstream.md R134). -/
def markOf (s : State) : Nat := if s.streamed && s.cfg.streamMark then 2 ^ 31 else 0

/-- The words READ_WORD consumes of a list, up to the first one it answers otherwise than 1 (42_header_trailer.md R233),
and the state then. -/
def readWords : List Word → State → Nat × State
  | [], s => (0, s)
  | w :: ws, s =>
    match exec (.readWord w) s with
    | .next t => if t.resp = some ⟨.ok, 1⟩ then ((readWords ws t).1 + 1, (readWords ws t).2) else (0, t)
    | .fault _ => (0, s)
    | .refused _ => (0, s)

/-- The lane of a neutral command. -/
def pinOf : Instr → Option Slot
  | .packNeutral pin _ _ => some pin
  | .packNeutralParity pin => some pin
  | .unpackNeutral pin _ => some pin
  | .unpackNeutralParityError pin => some pin
  | _ => none

/-- One step of a lane: a field of `n` bits, or the parity bit. -/
def packLane (x : Slot × Option (Word × Slot)) : Instr :=
  match x.2 with
  | some (v, n) => .packNeutral x.1 v n
  | none => .packNeutralParity x.1

/-- The mirrored step (41_neutral.md R181). -/
def unpackLane (x : Slot × Option (Word × Slot)) : Instr :=
  match x.2 with
  | some (_, n) => .unpackNeutral x.1 n
  | none => .unpackNeutralParityError x.1

/-- What the mirrored step must answer: the value cut to its width, or no parity error. -/
def laneResult (x : Slot × Option (Word × Slot)) : Response :=
  match x.2 with
  | some (v, n) => ⟨.ok, BitVec.ofNat 32 (v.toNat % 2 ^ n.toNat)⟩
  | none => ⟨.ok, 0⟩

/-- The rows a step of a lane takes. -/
def laneRows (x : Slot × Option (Word × Slot)) : Nat :=
  match x.2 with
  | some (_, n) => n.toNat
  | none => 1

/-- The elements that the last column of 10_state.md R43's table marks "yes" have their reset values. -/
def clearedState (t : State) : Prop :=
  t.payload = [] ∧ t.acc = 0 ∧ t.wcur = 0 ∧ t.rpos = 0 ∧ t.rbit = 0 ∧ t.ok = true ∧
    (∀ p < maxPins t.cfg, t.cursor p = 0 ∧ t.parity p = true) ∧ t.hdr = 0 ∧ t.trl = 0 ∧
    (∀ fid slice index : Slot, t.field fid slice index = 0) ∧ t.pass = .pack ∧ t.pmode = .none ∧ t.rd = .idle

/-- The widths of a list of fields, summed. -/
def widthSum (l : List (Word × Slot)) : Nat := (l.map fun x => x.2.toNat).sum

/-- What the fields of a list are cut to: each value modulo 2 to its width. -/
def cutFields (l : List (Word × Slot)) : List Response := l.map fun x => ⟨.ok, BitVec.ofNat 32 (x.1.toNat % 2 ^ x.2.toNat)⟩

/-- `n` commands that completed with result 0. -/
def allOk (n : Nat) : List Response := List.replicate n ⟨.ok, 0⟩

/-- CLEAR, the fields packed in order, PACK_FLUSH. -/
def serialPacking (l : List (Word × Slot)) : List Instr := .clear :: (l.map (fun x => Instr.pack x.1 x.2) ++ [.packFlush])

/-- UNPACK_INIT, then fields of the same widths. -/
def serialUnpacking (l : List (Word × Slot)) : List Instr := .unpackInit :: l.map (fun x => Instr.unpack x.2)

/-- CLEAR, the fields packed in order on one pin, and its parity. -/
def lanePacking (pin : Slot) (l : List (Word × Slot)) : List Instr :=
  .clear :: (l.map (fun x => Instr.packNeutral pin x.1 x.2) ++ [.packNeutralParity pin])

/-- UNPACK_INIT, then fields of the same widths from the pin, and the parity question. -/
def laneUnpacking (pin : Slot) (l : List (Word × Slot)) : List Instr :=
  .unpackInit :: (l.map (fun x => Instr.unpackNeutral pin x.2) ++ [.unpackNeutralParityError pin])

/-- How many rows of a lane differ between two payloads of the same length. -/
def laneChanges (old new : List Word) (pin : Nat) : Nat :=
  ((List.range old.length).filter fun k => laneBit new pin k != laneBit old pin k).length

/-- The sum of the widths of a serial layout's items. -/
def serialBits (L : SerialLayout) : Nat := (L.items.map (·.width)).sum

/-- Where a read cursor stands after reads of these widths, one after the other, from a payload of `len` rows: a read that
finds its rows passes them, any other leaves the cursor (41_neutral.md R175, R176, R177). -/
def cursorAfter (len : Nat) : List Nat → Nat → Nat
  | [], pos => pos
  | w :: ws, pos => cursorAfter len ws (if pos + w ≤ len then pos + w else pos)

/-- The reads that MUNPACK makes of one lane in `n` slices: its items' widths and the parity bit's, slice after slice
(43_marshaller.md R268). -/
def laneReads (L : NeutralLayout) (pin n : Nat) : List Nat :=
  (List.replicate n ((L.items.filter (fun it => it.pin == pin)).map (·.width) ++ [1])).flatten

/-- The payload does not hold all that MUNPACK reads of it under the layout (40_bitstream.md R143; 41_neutral.md R176,
R177). -/
def runsOut (s : State) : Layout → Prop
  | .serial L => s.payload.length * maxbits L.streamed < serialBits L
  | .neutral L => L.pins ≠ [] ∧ s.payload.length < timeslicesOf s * L.bpspp

/-- The bits of one slice of a lane: its items' values, then the odd-parity bit (43_marshaller.md R256, R264). -/
def laneSlice (s : State) (L : NeutralLayout) (pin slice : Nat) : List Bool :=
  let data := (L.items.filter (fun it => it.pin == pin)).flatMap fun it =>
    lowBits (s.field it.fid (BitVec.ofNat 8 slice) it.index) it.width
  data ++ [data.count true % 2 == 0]

/-- In each of `n` slices `t` has the fields of `s` under the layout's keys, and 0 under its parity keys (43_marshaller.md
R268, R271). -/
def slicesCameBack (L : NeutralLayout) (n : Nat) (s t : State) : Prop :=
  ∀ slice < n, (∀ it ∈ L.items, t.field it.fid (BitVec.ofNat 8 slice) it.index = s.field it.fid (BitVec.ofNat 8 slice) it.index) ∧
    ∀ p ∈ L.pins, t.field 255 (BitVec.ofNat 8 slice) (BitVec.ofNat 8 p) = 0

end Sys2Proof.Spec

open Sys2Proof.Spec

/-! ## Encoding -/

/-- Decoding the word of an instruction gives the instruction, for every instruction and every operand
(30_encoding.md R90, R93, R96, R104, R108). -/
def Obligations.DecodeInvertsEncode : Prop := ∀ i : Instr, decode (encode i) = .ok i

/-- A word that decodes is the word of the instruction it decodes to: no two words mean one instruction. -/
def Obligations.EncodeInvertsDecode : Prop := ∀ (c : CodeWord) (i : Instr), decode c = .ok i → encode i = c

/-- A 64-bit word is a command exactly when it lies in one of the 36 rows (30_encoding.md R93, R94, R96). -/
def Obligations.CommandsAreExactlyTheTableRows : Prop :=
  ∀ w : CommandWord, (∃ i, decodeCommand w = .ok i) ↔ ∃ r ∈ commandRows, w &&& r.2 = r.1

/-- Any other 64-bit word on the command port (log entry 1) is refused ILLEGAL_CMD and changes nothing (30_encoding.md R93,
R94). -/
def Obligations.ForeignCommandWordIsIllegal : Prop :=
  ∀ (s : State) (w : CommandWord) (rest : List PortEvent), s.port = .word (.cmd64 w) :: rest →
    (∀ r ∈ commandRows, w &&& r.2 ≠ r.1) → step s = .next ({ s with port := rest }.refuse .illegalCmd)

/-- Words written out from the encodings of 30_encoding.md R96, R104, R108 decode to what they stand for. -/
def Obligations.WrittenOutWordsDecode : Prop :=
  decode (.cmd64 0x10000900000001F3) = .ok (.pack 0x1F3 9) ∧ decode (.cmd64 0x2013010000000001) = .ok (.packNeutral 19 1 1) ∧
  decode (.cmd64 0x3005000000000009) = .ok (.hdrSet 5 9) ∧ decode (.cmd64 0x42000000ABCDEF9D) = .ok (.readWord 0xABCDEF9D) ∧
  decode (.cmd64 0x5002000500000003) = .ok (.fieldSet 2 0 5 3) ∧ decode (.cmd64 0x0607000000000000) = .ok (.setKind 7) ∧
  decode (.wire32 0xC2453951) = .ok (.wordHeaderC 1 1 5 3 9 5 1) ∧
  decode (.wire32 0xDA853905) = .ok (.wordStatus 0x2A 5 3 9 0 0 0 0 0 1 0 1) ∧
  decode (.wire32 0xB6FBBEA5) = .ok (.wordData10 0x36FBBEA5)

/-! ## The step -/

/-- A step with a word that decodes runs the instruction it decodes to, on the state from which the word is taken. That the
words stand in a list of host events is the model's choice (log entry 1). -/
def Obligations.StepRunsTheDecodedInstruction : Prop :=
  ∀ (s : State) (c : CodeWord) (i : Instr) (rest : List PortEvent), s.port = .word c :: rest → decode c = .ok i →
    step s = exec i { s with port := rest }

/-- With nothing offered the block waits; a drain takes words from the front of `out` and nothing else. That a step then
happens at all is the model's choice (log entries 1, 15). -/
def Obligations.StepWaitsOrDrains : Prop :=
  (∀ s : State, s.port = [] → step s = .next s) ∧
  (∀ (s : State) (n : Nat) (rest : List PortEvent), s.port = .drain n :: rest →
    step s = .next { s with port := rest, out := s.out.drop n })

/-- After reset every state element has the value of the table of 10_state.md R43: in the state the model starts from, and
after the reset input (on the port, log entry 15). CLEAR restores the values its last column marks. -/
def Obligations.ResetGivesTheTable : Prop :=
  (∀ t : State, (t = State.reset ∨ ∃ (s : State) (rest : List PortEvent), s.port = .reset :: rest ∧ step s = .next t) →
    clearedState t ∧ t.streamed = false ∧ t.kind = .ppm ∧ t.out = []) ∧
  ∀ s : State, ∃ t : State, Completes .clear s t 0 ∧ clearedState t ∧
    t.streamed = s.streamed ∧ t.kind = s.kind ∧ t.out = s.out

/-- The reset input always takes effect, and is CLEAR with `streamed`, `kind` and `out` reset besides
(70_reset_and_hazards.md R341; the input stands on the port, log entry 15; what `resp` holds then is left open). -/
def Obligations.ResetIsClearAndThreeMore : Prop :=
  ∀ (s : State) (rest : List PortEvent), s.port = .reset :: rest → ∃ t u : State,
    Completes .clear { s with port := rest } u 0 ∧ step s = .next t ∧
    t = { u with streamed := false, kind := .ppm, out := [], resp := t.resp }

/-- In the reset state, whatever the block's parameters, the commands that 70_reset_and_hazards.md R342 derives are refused
BAD_STATE. -/
def Obligations.ResetStateRefuses : Prop :=
  ∀ (c : Config) (s : State), s = { State.reset with cfg := c } →
    (∀ nbits : Slot, nbits.toNat ≤ 32 → RefusedWith (.unpack nbits) s .badState) ∧
    (∀ pin nbits : Slot, pin.toNat < maxPins c → nbits.toNat ≤ 32 → RefusedWith (.unpackNeutral pin nbits) s .badState) ∧
    (∀ pin : Slot, pin.toNat < maxPins c → RefusedWith (.unpackNeutralParityError pin) s .badState) ∧
    (∀ w : Word, RefusedWith (.readWord w) s .badState) ∧ RefusedWith .hdrWord s .badState ∧ RefusedWith .write s .badState ∧
    RefusedWith .mpack s .badState ∧ RefusedWith .munpack s .badState

/-! ## Whole-machine rules -/

/-- No step is stuck, faults or is refused by the model, every instruction is answered, and an answer other than OK carries
result 0 and changes nothing else (00_scope.md R13; 60_exceptions.md R300; 93_implementation_defined.md section 1). -/
def Obligations.RefusalChangesNothing : Prop :=
  (∀ s : State, ∃ t : State, step s = .next t) ∧
  ∀ (i : Instr) (s : State), ∃ (t : State) (r : Response), exec i s = .next t ∧ t.resp = some r ∧
    (r.status ≠ .ok → t = s.refuse r.status)

/-- An instruction with an operand that no block takes is refused BAD_OPERAND in every state, whatever else is wrong
(60_exceptions.md R311). -/
def Obligations.IllFormedIsBadOperand : Prop :=
  ∀ (i : Instr) (s : State), i.wellFormed = false → RefusedWith i s .badOperand

/-- The invariants that 10_state.md R40 derives, with what they rest on, are kept by every step from every state that has them. -/
def Obligations.EveryStepKeepsTheInvariants : Prop :=
  ∀ s t : State, s.Inv → step s = .next t → t.Inv

/-- The invariants that 10_state.md R40 derives hold at reset, whatever the parameters. -/
def Obligations.ResetHasTheInvariants : Prop := ∀ c : Config, { State.reset with cfg := c }.Inv

/-- `ok` becomes true only by UNPACK_INIT, CLEAR, READ_BEGIN and MUNPACK, which begins with UNPACK_INIT, and becomes false
only by UNPACK, UNPACK_NEUTRAL, UNPACK_NEUTRAL_PARITY_ERROR and MUNPACK, each only when the payload does not hold what it
asks for (10_state.md R27; 60_exceptions.md R308). A parity mismatch does not clear it (60_exceptions.md R309). -/
def Obligations.OkIsSticky : Prop :=
  ∀ (i : Instr) (s t : State), exec i s = .next t →
    (s.ok = false → t.ok = true → i = .unpackInit ∨ i = .clear ∨ i = .readBegin ∨ i = .munpack) ∧
    (s.ok = true → t.ok = false →
      (∃ n : Slot, i = .unpack n ∧ s.payload.length * maxbits s.streamed < readPosition s + n.toNat) ∨
      (∃ p n : Slot, i = .unpackNeutral p n ∧ s.payload.length < s.cursor p.toNat + n.toNat) ∨
      (∃ p : Slot, i = .unpackNeutralParityError p ∧ s.payload.length ≤ s.cursor p.toNat) ∨
      (i = .munpack ∧ ∃ L, layoutOf s.cfg s.kind s.hdr = some L ∧ runsOut s L))

/-- Who writes the registers outside the payload (10_state.md): no command writes the parameters (R42) or leaves streamed
mode (R28); `kind` is SET_KIND's (R32); `out` is WRITE's and only grows (R37); `hdr` and `trl` are their writers' (R30,
R31); the field store its writers' (R34); what the host has yet to present is no command's. -/
def Obligations.RegistersHaveTheirWriters : Prop :=
  ∀ (i : Instr) (s t : State), exec i s = .next t →
    t.cfg = s.cfg ∧ (s.streamed = true → t.streamed = true) ∧
    (t.streamed ≠ s.streamed → i = .setStreamed ∨ i = .mpack ∨ i = .munpack) ∧
    (t.kind ≠ s.kind → ∃ k, i = .setKind k) ∧
    (∃ ws, t.out = s.out ++ ws ∧ (ws ≠ [] → i = .write)) ∧
    (t.hdr ≠ s.hdr → i = .clear ∨ i = .readBegin ∨ (∃ f v, i = .hdrSet f v) ∨ (∃ w, i = .hdrLoad w) ∨ (∃ w, i = .readWord w) ∨
      ∃ w, i = decodeWire w) ∧
    (t.trl ≠ s.trl → i = .clear ∨ i = .readBegin ∨ (∃ v, i = .stSet v) ∨ (∃ w, i = .stLoad w) ∨ (∃ w, i = .readWord w) ∨
      ∃ w, i = decodeWire w) ∧
    (t.fields ≠ s.fields → i = .clear ∨ i = .readBegin ∨ (∃ f sl x v, i = .fieldSet f sl x v) ∨ i = .munpack ∨
      ∃ w, i = .roiLoad w) ∧
    t.port = s.port

/-- The payload store grows at its end only: apart from CLEAR and READ_BEGIN, which empty it, no command shortens it, and
only the two neutral packing commands change a word already in it, each in its own column alone (20_memory.md R60;
41_neutral.md R170). MPACK starts from an empty payload and is among the rest. -/
def Obligations.PayloadOnlyGrows : Prop :=
  ∀ (i : Instr) (s t : State), exec i s = .next t → i ≠ .clear → i ≠ .readBegin →
    s.payload.length ≤ t.payload.length ∧
    ∀ row < s.payload.length, ∀ col < 32, (pinOf i).map BitVec.toNat ≠ some col →
      laneBit t.payload col row = laneBit s.payload col row

/-- No cursor moves backwards inside a pass (10_state.md R38): only CLEAR, READ_BEGIN, UNPACK_INIT and MUNPACK, which start
a pass, move one back. The write position is counted in bits. -/
def Obligations.CursorsNeverMoveBack : Prop :=
  ∀ (i : Instr) (s t : State), s.Inv → exec i s = .next t → i ≠ .clear → i ≠ .readBegin → i ≠ .unpackInit → i ≠ .munpack →
    (∀ p, s.cursor p ≤ t.cursor p) ∧ (t.streamed = s.streamed →
      readPosition s ≤ readPosition t ∧
      s.payload.length * maxbits s.streamed + s.wcur ≤ t.payload.length * maxbits t.streamed + t.wcur)

/-! ## Word classification and the helpers over a bare word -/

/-- Every word is exactly one of Header, Status or Data, by its bits [31:28] alone (30_encoding.md R100, R101). -/
def Obligations.WordKindIsDecidedByTheTopNibble : Prop :=
  ∀ w : Word, (wordtype w = .header ↔ bits w 31 28 = 0xC ∨ bits w 31 28 = 0xE ∨ bits w 31 28 = 0xF) ∧
    (wordtype w = .status ↔ bits w 31 28 = 0xD) ∧ (wordtype w = .data ↔ bits w 31 28 ≤ 0xB)

/-- The five helpers answer a slice of their operand, in every state, and change nothing (42_header_trailer.md R200 to
R205). -/
def Obligations.WordHelpersAnswerTheirSlice : Prop :=
  ∀ (w : Word) (s : State),
    Completes (.wordType w) s s (if bits w 31 30 ≠ 3 then 0 else if bits w 29 28 = 1 then 2 else 1) ∧
    Completes (.wordId w) s s (BitVec.ofNat 32 (bits w 31 28)) ∧
    Completes (.wordFormat w) s s (BitVec.ofNat 32 (bits w 24 22)) ∧
    Completes (.wordSeqno w) s s (BitVec.ofNat 32 (bits w 21 16)) ∧
    Completes (.wordModule w) s s (BitVec.ofNat 32 (bits w 11 8))

/-! ## Control and queries -/

/-- CLEAR (40_bitstream.md R131): always accepted; `streamed`, `kind`, `out` and what is not the sub-block's stay. -/
def Obligations.ClearEmptiesTheSubBlock : Prop :=
  ∀ s : State, ∃ t : State, Completes .clear s t 0 ∧
    t = { s with payload := [], acc := 0, wcur := 0, rpos := 0, rbit := 0, ok := true, pincur := t.pincur, par := t.par,
                 hdr := 0, trl := 0, fields := t.fields, pass := .pack, pmode := .none, rd := .idle } ∧
    (∀ p, t.cursor p = 0 ∧ t.parity p = true) ∧ ∀ fid slice index, t.field fid slice index = 0

/-- SET_STREAMED (40_bitstream.md R132). -/
def Obligations.SetStreamedBeforeAnyPacking : Prop :=
  ∀ s : State, (s.pmode = .none → Completes .setStreamed s { s with streamed := true } 0) ∧
    (s.pmode ≠ .none → RefusedWith .setStreamed s .badState)

/-- UNPACK_INIT (40_bitstream.md R140). -/
def Obligations.UnpackInitStartsAPass : Prop :=
  ∀ s : State,
    (s.wcur = 0 → ∃ t : State, Completes .unpackInit s t 0 ∧
      t = { s with rpos := 0, rbit := 0, ok := true, pincur := t.pincur, par := t.par, pass := .unpack, pmode := .none } ∧
      ∀ p, t.cursor p = 0 ∧ t.parity p = true) ∧
    (s.wcur ≠ 0 → RefusedWith .unpackInit s .badState)

/-- UNPACK_SUCCESS and DATA_WORDS answer `ok` and `len(payload)` and change nothing (40_bitstream.md R144, R148). A length
that does not fit 32 bits is answered too, with a value the spec does not state (log entry 9). -/
def Obligations.QueriesAnswerTheState : Prop :=
  ∀ s : State, Completes .unpackSuccess s s (if s.ok then 1 else 0) ∧
    (s.payload.length < 2 ^ 32 → Completes .dataWords s s (BitVec.ofNat 32 s.payload.length)) ∧
    ∃ r, Completes .dataWords s s r

/-- MIN_BITS answers the smallest `n` with `value < 2^n` and changes nothing (40_bitstream.md R145). -/
def Obligations.MinBitsIsTheSmallestWidth : Prop :=
  ∀ (value : Word) (s : State), ∃ n ≤ 32, Completes (.minBits value) s s (BitVec.ofNat 32 n) ∧ value.toNat < 2 ^ n ∧
    ∀ m, value.toNat < 2 ^ m → n ≤ m

/-- SET_KIND writes `kind` and nothing else; a code above 7 is refused (43_marshaller.md R251; 30_encoding.md R113). -/
def Obligations.SetKindWritesTheKind : Prop :=
  ∀ (code : Slot) (s : State),
    (∀ k, kinds[code.toNat]? = some k → Completes (.setKind code) s { s with kind := k } 0) ∧
    (code.toNat > 7 → RefusedWith (.setKind code) s .badOperand)

/-! ## The serial packer and unpacker -/

/-- PACK, case by case, on numbers as 40_bitstream.md R134 computes. -/
def Obligations.PackFollowsItsRule : Prop :=
  ∀ (s : State) (value : Word) (nbits : Slot),
    (nbits.toNat > maxbits s.streamed → RefusedWith (.pack value nbits) s .badOperand) ∧
    (nbits.toNat ≤ maxbits s.streamed →
      (s.pass ≠ .pack ∨ s.pmode = .neutral → RefusedWith (.pack value nbits) s .badState) ∧
      (s.pass = .pack → s.pmode ≠ .neutral →
        ∀ x a c : Nat, x = value.toNat % 2 ^ nbits.toNat → a = (s.acc.toNat ||| x * 2 ^ s.wcur) % 2 ^ 32 → c = s.wcur + nbits.toNat →
          (c < maxbits s.streamed →
            Completes (.pack value nbits) s { s with acc := BitVec.ofNat 32 a, wcur := c, pmode := .serial } 0) ∧
          (maxbits s.streamed ≤ c → fits s.cfg (s.payload.length + 1) = false → RefusedWith (.pack value nbits) s .full) ∧
          (maxbits s.streamed ≤ c → fits s.cfg (s.payload.length + 1) = true →
            Completes (.pack value nbits) s
              { s with payload := s.payload ++ [BitVec.ofNat 32 (a % 2 ^ maxbits s.streamed + markOf s)],
                       acc := BitVec.ofNat 32 (x / 2 ^ (nbits.toNat - (c - maxbits s.streamed))),
                       wcur := c - maxbits s.streamed, pmode := .serial } 0)))

/-- An accepted PACK appends the low `nbits` bits of its value to the bitstream, an accepted PACK_FLUSH the
`(maxbits - wcur) mod maxbits` zero bits up to a word boundary, and nothing else (the law that 40_bitstream.md R146 derives). -/
def Obligations.PackingAppendsToTheBitstream : Prop :=
  ∀ s : State, s.Inv → s.pass = .pack → s.pmode ≠ .neutral → fits s.cfg (s.payload.length + 1) = true →
    (∀ (value : Word) (nbits : Slot), nbits.toNat ≤ maxbits s.streamed → ∃ t : State,
      Completes (.pack value nbits) s t 0 ∧ t = { s with payload := t.payload, acc := t.acc, wcur := t.wcur, pmode := .serial } ∧
      packedBits t = packedBits s ++ lowBits value nbits.toNat) ∧
    ∃ t : State, Completes .packFlush s t 0 ∧ t = { s with payload := t.payload, acc := 0, wcur := 0, pmode := .serial } ∧
      packedBits t = packedBits s ++ List.replicate ((maxbits s.streamed - s.wcur) % maxbits s.streamed) false

/-- PACK_FLUSH, case by case (40_bitstream.md R136). -/
def Obligations.PackFlushFollowsItsRule : Prop :=
  ∀ s : State,
    (s.pass ≠ .pack ∨ s.pmode = .neutral → RefusedWith .packFlush s .badState) ∧
    (s.pass = .pack → s.pmode ≠ .neutral →
      (s.wcur = 0 → Completes .packFlush s { s with pmode := .serial } 0) ∧
      (s.wcur > 0 → fits s.cfg (s.payload.length + 1) = false → RefusedWith .packFlush s .full) ∧
      (s.wcur > 0 → fits s.cfg (s.payload.length + 1) = true →
        Completes .packFlush s
          { s with payload := s.payload ++ [BitVec.ofNat 32 (s.acc.toNat % 2 ^ maxbits s.streamed + markOf s)],
                   acc := 0, wcur := 0, pmode := .serial } 0))

/-- UNPACK with enough bits left answers the next `nbits` bits of the bitstream, first bit as bit 0, moves the read position
by `nbits` and changes nothing else but `pmode` (40_bitstream.md R142, R146). -/
def Obligations.UnpackReadsTheBitstream : Prop :=
  ∀ (s : State) (nbits : Slot), s.Inv → nbits.toNat ≤ maxbits s.streamed → s.pass = .unpack → s.pmode ≠ .neutral →
    readPosition s + nbits.toNat ≤ s.payload.length * maxbits s.streamed →
    ∃ (t : State) (r : Word), Completes (.unpack nbits) s t r ∧
      t = { s with rpos := t.rpos, rbit := t.rbit, pmode := .serial } ∧ t.rbit < maxbits s.streamed ∧
      readPosition t = readPosition s + nbits.toNat ∧ r.toNat < 2 ^ nbits.toNat ∧
      lowBits r nbits.toNat = ((bitstream s.payload (maxbits s.streamed)).drop (readPosition s)).take nbits.toNat

/-- UNPACK's other ends: BAD_OPERAND, BAD_STATE, no bits, and truncation, whose result is any value (40_bitstream.md R142,
R143). -/
def Obligations.UnpackRefusesOrTruncates : Prop :=
  ∀ (s : State) (nbits : Slot),
    (nbits.toNat > maxbits s.streamed → RefusedWith (.unpack nbits) s .badOperand) ∧
    (nbits.toNat ≤ maxbits s.streamed → s.pass ≠ .unpack ∨ s.pmode = .neutral → RefusedWith (.unpack nbits) s .badState) ∧
    (nbits.toNat ≤ maxbits s.streamed → s.pass = .unpack → s.pmode ≠ .neutral →
      (nbits = 0 → Completes (.unpack nbits) s { s with pmode := .serial } 0) ∧
      ((s.payload.length - s.rpos) * maxbits s.streamed - s.rbit < nbits.toNat →
        ∃ r, Completes (.unpack nbits) s
          { s with ok := false, rpos := s.payload.length, rbit := 0, pmode := .serial, free := s.free + 1 } r))

/-- The serial round trip (the law that 40_bitstream.md R147 derives), in either mode, with a word count of `ceil(sum / maxbits)`. -/
def Obligations.SerialRoundTrip : Prop :=
  ∀ (s : State) (l : List (Word × Slot)), (∀ x ∈ l, x.2.toNat ≤ maxbits s.streamed) →
    fits s.cfg (wordsFor (widthSum l) (maxbits s.streamed)) = true →
    ∃ t : State, runAll (serialPacking l ++ serialUnpacking l) s = some (allOk (l.length + 3) ++ cutFields l, t) ∧
      t.ok = true ∧ t.payload.length = wordsFor (widthSum l) (maxbits s.streamed)

/-! ## The neutral multiplexer -/

/-- PACK_NEUTRAL, case by case (41_neutral.md R171, R172, R173): the bits go down the pin's column, bit 0 first; new rows
are `NEUTRAL_FILL` elsewhere; the parity folds them; every other column, cursor and parity stays. -/
def Obligations.PackNeutralWritesItsColumn : Prop :=
  ∀ (s : State) (pin nbits : Slot) (value : Word),
    (pin.toNat ≥ maxPins s.cfg ∨ nbits.toNat > 32 → RefusedWith (.packNeutral pin value nbits) s .badOperand) ∧
    (pin.toNat < maxPins s.cfg → nbits.toNat ≤ 32 →
      (s.pass ≠ .pack ∨ s.pmode = .serial → RefusedWith (.packNeutral pin value nbits) s .badState) ∧
      (s.pass = .pack → s.pmode ≠ .serial →
        (fits s.cfg (s.cursor pin.toNat + nbits.toNat) = false → RefusedWith (.packNeutral pin value nbits) s .full) ∧
        (fits s.cfg (s.cursor pin.toNat + nbits.toNat) = true → ∃ t : State, Completes (.packNeutral pin value nbits) s t 0 ∧
          t = { s with payload := t.payload, pincur := t.pincur, par := t.par, pmode := .neutral } ∧
          (∀ q, t.cursor q = if q = pin.toNat then s.cursor q + nbits.toNat else s.cursor q) ∧
          (∀ q, t.parity q = if q = pin.toNat then s.parity q ^^ oddOnes value nbits.toNat else s.parity q) ∧
          t.payload.length = max s.payload.length (s.cursor pin.toNat + nbits.toNat) ∧
          ∀ row < t.payload.length, ∀ col < 32, laneBit t.payload col row =
            if col = pin.toNat ∧ s.cursor col ≤ row ∧ row < s.cursor col + nbits.toNat then value.toNat.testBit (row - s.cursor col)
            else if row < s.payload.length then laneBit s.payload col row else s.cfg.neutralFill.toNat.testBit col)))

/-- PACK_NEUTRAL_PARITY, case by case (41_neutral.md R174): the parity bit goes down the column and the parity starts anew. -/
def Obligations.PackNeutralParityWritesTheParity : Prop :=
  ∀ (s : State) (pin : Slot),
    (pin.toNat ≥ maxPins s.cfg → RefusedWith (.packNeutralParity pin) s .badOperand) ∧
    (pin.toNat < maxPins s.cfg →
      (s.pass ≠ .pack ∨ s.pmode = .serial → RefusedWith (.packNeutralParity pin) s .badState) ∧
      (s.pass = .pack → s.pmode ≠ .serial →
        (fits s.cfg (s.cursor pin.toNat + 1) = false → RefusedWith (.packNeutralParity pin) s .full) ∧
        (fits s.cfg (s.cursor pin.toNat + 1) = true → ∃ t : State, Completes (.packNeutralParity pin) s t 0 ∧
          t = { s with payload := t.payload, pincur := t.pincur, par := t.par, pmode := .neutral } ∧
          (∀ q, t.cursor q = if q = pin.toNat then s.cursor q + 1 else s.cursor q) ∧
          (∀ q, t.parity q = if q = pin.toNat then true else s.parity q) ∧
          t.payload.length = max s.payload.length (s.cursor pin.toNat + 1) ∧
          ∀ row < t.payload.length, ∀ col < 32, laneBit t.payload col row =
            if col = pin.toNat ∧ row = s.cursor col then s.parity col
            else if row < s.payload.length then laneBit s.payload col row else s.cfg.neutralFill.toNat.testBit col)))

/-- UNPACK_NEUTRAL, case by case (41_neutral.md R171, R175, R176): the bits of the pin's column from its cursor on, first
bit as bit 0; out of rows, any value, with cursor and parity unchanged. -/
def Obligations.UnpackNeutralReadsItsColumn : Prop :=
  ∀ (s : State) (pin nbits : Slot),
    (pin.toNat ≥ maxPins s.cfg ∨ nbits.toNat > 32 → RefusedWith (.unpackNeutral pin nbits) s .badOperand) ∧
    (pin.toNat < maxPins s.cfg → nbits.toNat ≤ 32 →
      (s.pass ≠ .unpack ∨ s.pmode = .serial → RefusedWith (.unpackNeutral pin nbits) s .badState) ∧
      (s.pass = .unpack → s.pmode ≠ .serial →
        (nbits = 0 → Completes (.unpackNeutral pin nbits) s { s with pmode := .neutral } 0) ∧
        (0 < nbits.toNat → s.payload.length < s.cursor pin.toNat + nbits.toNat → ∃ r,
          Completes (.unpackNeutral pin nbits) s { s with ok := false, pmode := .neutral, free := s.free + 1 } r) ∧
        (0 < nbits.toNat → s.cursor pin.toNat + nbits.toNat ≤ s.payload.length → ∃ (t : State) (r : Word),
          Completes (.unpackNeutral pin nbits) s t r ∧ t = { s with pincur := t.pincur, par := t.par, pmode := .neutral } ∧
          (∀ q, t.cursor q = if q = pin.toNat then s.cursor q + nbits.toNat else s.cursor q) ∧
          (∀ q, t.parity q = if q = pin.toNat then s.parity q ^^ oddOnes r nbits.toNat else s.parity q) ∧
          r.toNat < 2 ^ nbits.toNat ∧
          ∀ k < nbits.toNat, r.toNat.testBit k = laneBit s.payload pin.toNat (s.cursor pin.toNat + k))))

/-- UNPACK_NEUTRAL_PARITY_ERROR, case by case (41_neutral.md R177): 1 when the received parity bit differs from the
recomputed one. Without a row R177 calls the result an unspecified value; that it is 0 or 1 is U3 of
93_implementation_defined.md, which the model takes (log entry 7). -/
def Obligations.ParityErrorComparesTheBit : Prop :=
  ∀ (s : State) (pin : Slot),
    (pin.toNat ≥ maxPins s.cfg → RefusedWith (.unpackNeutralParityError pin) s .badOperand) ∧
    (pin.toNat < maxPins s.cfg →
      (s.pass ≠ .unpack ∨ s.pmode = .serial → RefusedWith (.unpackNeutralParityError pin) s .badState) ∧
      (s.pass = .unpack → s.pmode ≠ .serial → ∃ (t : State) (r : Word),
        Completes (.unpackNeutralParityError pin) s t r ∧ (∀ q, t.parity q = if q = pin.toNat then true else s.parity q) ∧
        (s.payload.length ≤ s.cursor pin.toNat → (r = 0 ∨ r = 1) ∧
          t = { s with ok := false, par := t.par, pmode := .neutral, free := s.free + 1 }) ∧
        (s.cursor pin.toNat < s.payload.length →
          (r = if laneBit s.payload pin.toNat (s.cursor pin.toNat) = s.parity pin.toNat then 0 else 1) ∧
          t = { s with pincur := t.pincur, par := t.par, pmode := .neutral } ∧
          ∀ q, t.cursor q = if q = pin.toNat then s.cursor q + 1 else s.cursor q)))

/-- The parity law (41_neutral.md R179, which derives it): pack fields on a lane and its parity, let the payload be
changed, unpack the same widths and ask: the result is 1 exactly when an odd number of the lane's bits were inverted, whatever other columns hold. -/
def Obligations.ParityDetectsOddInversions : Prop :=
  ∀ (s : State) (pin : Slot) (l : List (Word × Slot)) (changed : List Word), pin.toNat < maxPins s.cfg →
    (∀ x ∈ l, x.2.toNat ≤ 32) → fits s.cfg (widthSum l + 1) = true →
    ∃ t : State, runAll (lanePacking pin l) s = some (allOk (l.length + 2), t) ∧ t.payload.length = widthSum l + 1 ∧
      (changed.length = t.payload.length → ∃ (rs : List Response) (r : Word) (u : State),
        runAll (laneUnpacking pin l) { t with payload := changed } = some (rs ++ [⟨.ok, r⟩], u) ∧
        r = if laneChanges t.payload changed pin.toNat % 2 = 1 then 1 else 0)

/-- Neutral commands on different pins commute (41_neutral.md R180 and 20_memory.md R75, which derive it): if none is refused and no unpack
command runs out of data, the two orders leave the same state but for the response, and each command gives the same
response in either order. -/
def Obligations.LanesCommute : Prop :=
  ∀ (s a b c d : State) (i j : Instr) (p q : Slot), pinOf i = some p → pinOf j = some q → p ≠ q →
    exec i s = .next a → exec j a = .next b → exec j s = .next c → exec i c = .next d →
    (∀ x ∈ [a, b, c, d], ∃ r, x.resp = some ⟨.ok, r⟩) → b.free = s.free →
    { b with resp := none } = { d with resp := none } ∧ b.resp = c.resp ∧ d.resp = a.resp

/-- The neutral round trip (41_neutral.md R181, which derives it): fields and parities packed on any pins, and unpacked in any order that
keeps each pin's own order, come back with no parity error and `ok` still set. -/
def Obligations.NeutralRoundTrip : Prop :=
  ∀ (s : State) (packed unpacked : List (Slot × Option (Word × Slot))),
    (∀ x ∈ packed, x.1.toNat < maxPins s.cfg ∧ laneRows x ≤ 32) →
    (∀ pin : Slot, packed.filter (fun x => x.1 == pin) = unpacked.filter (fun x => x.1 == pin)) →
    fits s.cfg (packed.map laneRows).sum = true →
    ∃ t : State,
      runAll (Instr.clear :: packed.map packLane ++ Instr.unpackInit :: unpacked.map unpackLane) s =
        some (allOk (packed.length + 2) ++ unpacked.map laneResult, t) ∧ t.ok = true

/-! ## The header and the trailer -/

/-- The header word is `hdr_encode` of 30_encoding.md R104, and decoding and encoding are inverse (42_header_trailer.md
R210, which derives it). -/
def Obligations.HeaderFieldsTileTheWord : Prop :=
  (∀ (wordId : BitVec 4) (version format : BitVec 3) (seqno : BitVec 6) (crate modNo slices2 slices1 : BitVec 4) (w : Word),
    w = headerWord wordId version format seqno crate modNo slices2 slices1 →
    w.toNat = wordId.toNat * 2 ^ 28 + version.toNat * 2 ^ 25 + format.toNat * 2 ^ 22 + seqno.toNat * 2 ^ 16 +
      crate.toNat * 2 ^ 12 + modNo.toNat * 2 ^ 8 + slices2.toNat * 2 ^ 4 + slices1.toNat ∧
    (List.range 8).map (fieldBits headerFields w) = [wordId.toNat, version.toNat, format.toNat, seqno.toNat, crate.toNat,
      modNo.toNat, slices2.toNat, slices1.toNat]) ∧
  ∀ w : Word, headerWord (BitVec.ofNat 4 (bits w 31 28)) (BitVec.ofNat 3 (bits w 27 25)) (BitVec.ofNat 3 (bits w 24 22))
    (BitVec.ofNat 6 (bits w 21 16)) (BitVec.ofNat 4 (bits w 15 12)) (BitVec.ofNat 4 (bits w 11 8)) (BitVec.ofNat 4 (bits w 7 4))
    (BitVec.ofNat 4 (bits w 3 0)) = w

/-- HDR_SET replaces one field of `hdr` by the low bits of the value, HDR_GET reads one, and a selector above 7 is refused
(42_header_trailer.md R206, R207). -/
def Obligations.HdrSetReplacesOneField : Prop :=
  ∀ (s : State) (sel : Slot) (value : Word),
    (sel.toNat > 7 → RefusedWith (.hdrSet sel value) s .badOperand ∧ RefusedWith (.hdrGet sel) s .badOperand) ∧
    (∀ hi lo, headerFields[sel.toNat]? = some (hi, lo) →
      Completes (.hdrGet sel) s s (BitVec.ofNat 32 (bits s.hdr hi lo)) ∧
      ∃ h : Word, Completes (.hdrSet sel value) s { s with hdr := h } 0 ∧
        ∀ k < 8, fieldBits headerFields h k =
          if k = sel.toNat then value.toNat % 2 ^ (hi - lo + 1) else fieldBits headerFields s.hdr k)

/-- HDR_WORD answers the header when there is one; HDR_LOAD takes a header word and refuses any other
(42_header_trailer.md R208, R209). -/
def Obligations.HeaderWordIsChecked : Prop :=
  ∀ (s : State) (w : Word),
    (wordtype s.hdr = .header → Completes .hdrWord s s s.hdr) ∧ (wordtype s.hdr ≠ .header → RefusedWith .hdrWord s .badState) ∧
    (wordtype w = .header → Completes (.hdrLoad w) s { s with hdr := w } 0) ∧
    (wordtype w ≠ .header → RefusedWith (.hdrLoad w) s .structural)

/-- ST_SET makes the trailer: nothing when no error field is set, else the Status pattern, the error fields and the copies
of the header's `seqno`, `crate` and `module` (42_header_trailer.md R220). -/
def Obligations.StSetBuildsTheTrailer : Prop :=
  ∀ (s : State) (value : Word), ∃ w : Word, Completes (.stSet value) s { s with trl := w } 0 ∧
    (value &&& 0x0FC000DF = 0 → w = 0) ∧
    (value &&& 0x0FC000DF ≠ 0 → bits w 31 28 = 0xD ∧ bits w 27 22 = bits value 27 22 ∧ bits w 21 16 = bits s.hdr 21 16 ∧
      bits w 15 12 = bits s.hdr 15 12 ∧ bits w 11 8 = bits s.hdr 11 8 ∧ bits w 7 6 = bits value 7 6 ∧ bits w 5 5 = 0 ∧
      bits w 4 0 = bits value 4 0)

/-- ST_GET reads one trailer field, ST_WORD the trailer if an error field is set, ST_LOAD takes a Status word and refuses
any other (42_header_trailer.md R221, R222, R223). -/
def Obligations.TrailerReadsAndLoads : Prop :=
  ∀ (s : State) (sel : Slot) (w : Word),
    (sel.toNat > 7 → RefusedWith (.stGet sel) s .badOperand) ∧
    (∀ hi lo, trailerFields[sel.toNat]? = some (hi, lo) → Completes (.stGet sel) s s (BitVec.ofNat 32 (bits s.trl hi lo))) ∧
    Completes .stWord s s (if s.trl &&& 0x0FC000DF = 0 then 0 else s.trl) ∧
    (wordtype w = .status → Completes (.stLoad w) s { s with trl := w } 0) ∧
    (wordtype w ≠ .status → RefusedWith (.stLoad w) s .structural)

/-! ## The sub-block stream -/

/-- WRITE appends header, payload and, if an error field is set, the trailer to `out`, answers their number, and changes
nothing else; without a header or with unflushed bits it is refused (42_header_trailer.md R230). A number that does not fit
32 bits is answered with a value the spec does not state (log entry 9). -/
def Obligations.WriteEmitsTheSubBlock : Prop :=
  ∀ s : State,
    (wordtype s.hdr ≠ .header ∨ s.wcur ≠ 0 → RefusedWith .write s .badState) ∧
    (wordtype s.hdr = .header → s.wcur = 0 → ∀ ws : List Word,
      ws = [s.hdr] ++ s.payload ++ (if s.trl &&& 0x0FC000DF ≠ 0 then [s.trl] else []) → ∃ r : Word,
        Completes .write s { s with out := s.out ++ ws } r ∧ (ws.length < 2 ^ 32 → r = BitVec.ofNat 32 ws.length))

/-- READ_BEGIN does what CLEAR does and then expects a header; READ_WORD goes state by state of the reader
(42_header_trailer.md R231, R232). -/
def Obligations.ReaderFollowsTheGrammar : Prop :=
  ∀ (s : State) (w : Word),
    (∃ t : State, Completes .clear s t 0 ∧ Completes .readBegin s { t with rd := .expectHeader } 0) ∧
    (s.rd = .idle → RefusedWith (.readWord w) s .badState) ∧
    (s.rd = .expectHeader → (wordtype w ≠ .header → RefusedWith (.readWord w) s .structural) ∧
      (wordtype w = .header → Completes (.readWord w) s { s with hdr := w, rd := .inData } 1)) ∧
    (s.rd = .inData →
      (wordtype w = .data → fits s.cfg (s.payload.length + 1) = false → RefusedWith (.readWord w) s .full) ∧
      (wordtype w = .data → fits s.cfg (s.payload.length + 1) = true →
        Completes (.readWord w) s { s with payload := s.payload ++ [w] } 1) ∧
      (wordtype w = .status → Completes (.readWord w) s { s with trl := w, rd := .done } 1) ∧
      (wordtype w = .header → Completes (.readWord w) s { s with rd := .done } 0)) ∧
    (s.rd = .done → Completes (.readWord w) s s 0)

/-- The seven wire rows of the opcode table: the reader takes a header where it expects one, and a data or status word
after it, as in every other state READ_WORD of the word would. That a wire word offered by itself is offered to the reader
is the model's choice (log entry 5). -/
def Obligations.WireWordsReachTheReader : Prop :=
  ∀ s : State, (∀ w : Word, exec (decodeWire w) s = exec (.readWord w) s) ∧
    (s.rd = .expectHeader → ∀ (version format : BitVec 3) (seqno : BitVec 6) (crate modNo slices2 slices1 : BitVec 4),
      Completes (.wordHeaderC version format seqno crate modNo slices2 slices1) s
        { s with hdr := headerWord 0xC version format seqno crate modNo slices2 slices1, rd := .inData } 1 ∧
      Completes (.wordHeaderE version format seqno crate modNo slices2 slices1) s
        { s with hdr := headerWord 0xE version format seqno crate modNo slices2 slices1, rd := .inData } 1 ∧
      Completes (.wordHeaderF version format seqno crate modNo slices2 slices1) s
        { s with hdr := headerWord 0xF version format seqno crate modNo slices2 slices1, rd := .inData } 1) ∧
    (s.rd = .inData → ∀ (bcn seqno : BitVec 6) (crate modNo : BitVec 4) (b7 b6 b5 b4 b3 b2 b1 b0 : BitVec 1),
      Completes (.wordStatus bcn seqno crate modNo b7 b6 b5 b4 b3 b2 b1 b0) s
        { s with trl := statusWord bcn seqno crate modNo b7 b6 b5 b4 b3 b2 b1 b0, rd := .done } 1) ∧
    (s.rd = .inData → fits s.cfg (s.payload.length + 1) = true → ∀ data : BitVec 30,
      Completes (.wordData00 data) s { s with payload := s.payload ++ [BitVec.ofNat 32 data.toNat] } 1 ∧
      Completes (.wordData01 data) s { s with payload := s.payload ++ [BitVec.ofNat 32 (data.toNat + 2 ^ 30)] } 1 ∧
      Completes (.wordData10 data) s { s with payload := s.payload ++ [BitVec.ofNat 32 (data.toNat + 2 ^ 31)] } 1)

/-- The reader as one function (42_header_trailer.md R233, which derives it): of a list that starts with a header it takes the header, the
maximal run of Data words after it, and the word after that run if it is a Status word. -/
def Obligations.ReadTakesOneSubBlock : Prop :=
  ∀ (s b : State) (h : Word) (ws : List Word), wordtype h = .header → fits s.cfg ws.length = true →
    exec .readBegin s = .next b →
    ∃ t : State, t = (readWords (h :: ws) b).2 ∧ t.hdr = h ∧ t.payload = ws.takeWhile (fun w => wordtype w == .data) ∧
      (∀ w, (ws.dropWhile (fun w => wordtype w == .data)).head? = some w → wordtype w = .status →
        t.trl = w ∧ (readWords (h :: ws) b).1 = t.payload.length + 2) ∧
      ((∀ w, (ws.dropWhile (fun w => wordtype w == .data)).head? = some w → wordtype w ≠ .status) →
        t.trl = 0 ∧ (readWords (h :: ws) b).1 = t.payload.length + 1)

/-- Write, then read (42_header_trailer.md R235, which derives it): another block of the same capacity that is offered the words WRITE
appended consumes them all and holds the same header, payload and trailer. -/
def Obligations.WriteThenReadRestores : Prop :=
  ∀ s u b : State, s.Inv → wordtype s.hdr = .header → s.wcur = 0 → (∀ w ∈ s.payload, wordtype w = .data) → u.cfg = s.cfg →
    exec .readBegin u = .next b →
    ∃ (t v : State) (r : Word), Completes .write s t r ∧
      (readWords (t.out.drop s.out.length) b) = ((t.out.drop s.out.length).length, v) ∧
      v.hdr = s.hdr ∧ v.payload = s.payload ∧ v.trl &&& 0x0FC000DF = s.trl &&& 0x0FC000DF ∧
      v.trl = if s.trl &&& 0x0FC000DF ≠ 0 then s.trl else 0

/-! ## The marshaller -/

/-- FIELD_SET stores one value, FIELD_GET reads one, every other key reads as before, and nothing else changes
(43_marshaller.md R252, R253). -/
def Obligations.FieldStoreReadsBack : Prop :=
  ∀ (s : State) (fid slice index : Slot) (value : Word), s.fields.wf →
    Completes (.fieldGet fid slice index) s s (s.field fid slice index) ∧
    ∃ t : State, Completes (.fieldSet fid slice index value) s t 0 ∧ t = { s with fields := t.fields } ∧ t.fields.wf ∧
      ∀ f x k : Slot, t.field f x k = if f = fid ∧ x = slice ∧ k = index then value else s.field f x k

/-- TIMESLICES (43_marshaller.md R260): the header's count; if that is 0, a neutral payload's; if that is 0, 1. -/
def Obligations.TimeslicesCountsTheSlices : Prop :=
  ∀ (s : State) (n : Nat), n = slicesHdr s.cfg s.kind (BitVec.ofNat 4 (bits s.hdr 3 0)) (BitVec.ofNat 4 (bits s.hdr 7 4)) →
    (n ≠ 0 → Completes .timeslices s s (BitVec.ofNat 32 n)) ∧
    (n = 0 → (∃ r, Completes .timeslices s s r) ∧
      (∀ L, bits s.hdr 24 22 = 0 → layoutOf s.cfg s.kind s.hdr = some (.neutral L) → s.payload.length < 2 ^ 32 →
        Completes .timeslices s s (BitVec.ofNat 32 (max 1 (s.payload.length / L.bpspp)))) ∧
      ((bits s.hdr 24 22 ≠ 0 ∨ ∀ L, layoutOf s.cfg s.kind s.hdr ≠ some (.neutral L)) → Completes .timeslices s s 1))

/-- What MPACK and MUNPACK refuse before they walk a layout (the checks of 43_marshaller.md R262 and R266; R265;
60_exceptions.md R307). -/
def Obligations.MarshallerRefusals : Prop :=
  ∀ s : State,
    (wordtype s.hdr ≠ .header ∨ s.pass ≠ .pack ∨ s.pmode ≠ .none ∨ s.payload ≠ [] → RefusedWith .mpack s .badState) ∧
    (wordtype s.hdr ≠ .header ∨ s.wcur ≠ 0 → RefusedWith .munpack s .badState) ∧
    (wordtype s.hdr = .header → (bits s.hdr 24 22 ≥ 2 ∨ layoutOf s.cfg s.kind s.hdr = none) →
      (s.pass = .pack → s.pmode = .none → s.payload = [] → RefusedWith .mpack s .unsupported) ∧
      (s.wcur = 0 → RefusedWith .munpack s .unsupported)) ∧
    (∀ L, wordtype s.hdr = .header → layoutOf s.cfg s.kind s.hdr = some (.serial L) → s.streamed = true → L.streamed = false →
      RefusedWith .mpack s .badState ∧ RefusedWith .munpack s .badState)

/-- MPACK of a serial layout (43_marshaller.md R262, R263): the payload's bitstream is the listed fields in order, each cut to
its width, then zero padding to a whole number of words; nothing else changes but `streamed` and `pmode`. Without room for
the words it is refused FULL. -/
def Obligations.MpackPacksASerialLayout : Prop :=
  ∀ (s : State) (L : SerialLayout), s.Inv → wordtype s.hdr = .header → s.pass = .pack → s.pmode = .none → s.payload = [] →
    layoutOf s.cfg s.kind s.hdr = some (.serial L) → (s.streamed = true → L.streamed = true) →
    (fits s.cfg (wordsFor (serialBits L) (maxbits L.streamed)) = false → RefusedWith .mpack s .full) ∧
    (fits s.cfg (wordsFor (serialBits L) (maxbits L.streamed)) = true → ∃ t : State,
      Completes .mpack s t 1 ∧ t = { s with payload := t.payload, streamed := L.streamed, pmode := .serial } ∧
      t.payload.length = wordsFor (serialBits L) (maxbits L.streamed) ∧
      bitstream t.payload (maxbits L.streamed) =
        (L.items.flatMap fun it => lowBits (s.field it.fid it.slice it.index) it.width) ++
          List.replicate (t.payload.length * maxbits L.streamed - serialBits L) false)

/-- MPACK of a neutral layout (43_marshaller.md R262, R264): in every slice each of the layout's pins carries its items' bits
and then its odd-parity bit, and every other column `NEUTRAL_FILL`. Without room for the rows it is refused FULL; a layout
without pins packs nothing (what `pmode` is then is left open: log entry 4). -/
def Obligations.MpackPacksANeutralLayout : Prop :=
  ∀ (s : State) (L : NeutralLayout) (n : Nat), s.Inv → wordtype s.hdr = .header → s.pass = .pack → s.pmode = .none →
    s.payload = [] → layoutOf s.cfg s.kind s.hdr = some (.neutral L) →
    n = max 1 (slicesHdr s.cfg s.kind (BitVec.ofNat 4 (bits s.hdr 3 0)) (BitVec.ofNat 4 (bits s.hdr 7 4))) →
    (L.pins = [] → ∃ t : State, Completes .mpack s t 1 ∧ t = { s with pmode := t.pmode }) ∧
    (L.pins ≠ [] → fits s.cfg (n * L.bpspp) = false → RefusedWith .mpack s .full) ∧
    (L.pins ≠ [] → fits s.cfg (n * L.bpspp) = true → ∃ t : State,
      Completes .mpack s t 1 ∧ t = { s with payload := t.payload, pincur := t.pincur, pmode := .neutral } ∧
      t.payload.length = n * L.bpspp ∧ (∀ p, t.cursor p = if p ∈ L.pins then n * L.bpspp else s.cursor p) ∧
      ∀ slice < n, ∀ k < L.bpspp, ∀ col < 32, laneBit t.payload col (slice * L.bpspp + k) =
        if col ∈ L.pins then (laneSlice s L col slice).getD k false else s.cfg.neutralFill.toNat.testBit col)

/-- MUNPACK of a serial layout (43_marshaller.md R266, R267): the result says whether the payload held every item; every item
it held, under a key that no later item has, gets its bits; keys the layout does not list keep their values. The cursor
stands after the last item, or at the end if the payload ran out; every lane is as UNPACK_INIT leaves it. -/
def Obligations.MunpackReadsASerialLayout : Prop :=
  ∀ (s : State) (L : SerialLayout), s.fields.wf → wordtype s.hdr = .header → s.wcur = 0 →
    layoutOf s.cfg s.kind s.hdr = some (.serial L) → (s.streamed = true → L.streamed = true) →
    ∃ t : State,
      Completes .munpack s t (if serialBits L ≤ s.payload.length * maxbits L.streamed then 1 else 0) ∧
      t = { s with rpos := t.rpos, rbit := t.rbit, ok := t.ok, streamed := L.streamed, pincur := t.pincur, par := t.par,
                   fields := t.fields, pass := .unpack, pmode := if L.items = [] then .none else .serial, free := t.free } ∧
      t.ok = decide (serialBits L ≤ s.payload.length * maxbits L.streamed) ∧
      (serialBits L ≤ s.payload.length * maxbits L.streamed → readPosition t = serialBits L ∧ t.rbit < maxbits L.streamed) ∧
      (s.payload.length * maxbits L.streamed < serialBits L → t.rpos = s.payload.length ∧ t.rbit = 0) ∧
      (∀ p, t.cursor p = 0 ∧ t.parity p = true) ∧
      (∀ (before : List SerialItem) (it : SerialItem) (after : List SerialItem), L.items = before ++ it :: after →
        (before.map (·.width)).sum + it.width ≤ s.payload.length * maxbits L.streamed →
        (∀ x ∈ after, ¬ (x.fid = it.fid ∧ x.slice = it.slice ∧ x.index = it.index)) →
        (t.field it.fid it.slice it.index).toNat < 2 ^ it.width ∧
        lowBits (t.field it.fid it.slice it.index) it.width =
          ((bitstream s.payload (maxbits L.streamed)).drop (before.map (·.width)).sum).take it.width) ∧
      ∀ fid slice index : Slot, (∀ x ∈ L.items, ¬ (x.fid = fid ∧ x.slice = slice ∧ x.index = index)) →
        t.field fid slice index = s.field fid slice index

/-- MUNPACK of a neutral layout (43_marshaller.md R266, R268): the result says whether the payload held every row of every
slice; each item it held, under a key that no later item has, gets its bits of its lane; the parity key of each pin whose
slice it held gets 1 exactly when the lane's slice has an even number of ones; other keys keep their values. Each of the
layout's lanes stands after what it read, the others at row 0, and every parity is 1. A layout
without pins only starts the unpack pass (what `pmode` is then is left open: log entry 4). -/
def Obligations.MunpackReadsANeutralLayout : Prop :=
  ∀ (s : State) (L : NeutralLayout) (n : Nat), s.fields.wf → wordtype s.hdr = .header → s.wcur = 0 →
    layoutOf s.cfg s.kind s.hdr = some (.neutral L) → timeslicesOf s = n →
    (n > 256 → RefusedWith .munpack s .badState) ∧
    (n ≤ 256 → L.pins = [] → ∃ t u : State, Completes .munpack s t 1 ∧ Completes .unpackInit s u 0 ∧
      t = { u with pmode := t.pmode }) ∧
    (n ≤ 256 → L.pins ≠ [] → ∃ t : State,
      Completes .munpack s t (if n * L.bpspp ≤ s.payload.length then 1 else 0) ∧
      t = { s with rpos := 0, rbit := 0, ok := decide (n * L.bpspp ≤ s.payload.length), pincur := t.pincur, par := t.par,
                   fields := t.fields, pass := .unpack, pmode := .neutral, free := t.free } ∧
      (∀ p, t.parity p = true ∧ t.cursor p = if p ∈ L.pins then cursorAfter s.payload.length (laneReads L p n) 0 else 0) ∧
      (n * L.bpspp ≤ s.payload.length → ∀ p ∈ L.pins, t.cursor p = n * L.bpspp) ∧
      (∀ slice < n,
        (∀ (before : List NeutralItem) (it : NeutralItem) (after : List NeutralItem), L.items = before ++ it :: after →
          slice * L.bpspp + laneBits { L with items := before } it.pin + it.width ≤ s.payload.length →
          (∀ x ∈ after, ¬ (x.fid = it.fid ∧ x.index = it.index)) →
          t.field it.fid (BitVec.ofNat 8 slice) it.index =
            getBits s.payload it.pin (slice * L.bpspp + laneBits { L with items := before } it.pin) it.width) ∧
        ∀ p ∈ L.pins, (slice + 1) * L.bpspp ≤ s.payload.length →
          t.field 255 (BitVec.ofNat 8 slice) (BitVec.ofNat 8 p) =
            if laneOnes s.payload p (slice * L.bpspp) L.bpspp % 2 = 0 then 1 else 0) ∧
      ∀ fid slice index : Slot, (n ≤ slice.toNat ∨ (if fid = 255 then ∀ p ∈ L.pins, BitVec.ofNat 8 p ≠ index
        else ∀ x ∈ L.items, ¬ (x.fid = fid ∧ x.index = index))) → t.field fid slice index = s.field fid slice index)

/-- The marshaller's round trip (43_marshaller.md R271, which derives it), serial: fields within their widths come back from
MPACK then MUNPACK, on the same block, or through WRITE and the reader of another block. The sub-block that makes the trip
has the slices of R258 and R259: a PPM payload a whole number of channels times the header's two slice counts (log entry
22), any other kind slice 0 alone. -/
def Obligations.SerialMarshallerRoundTrip : Prop :=
  ∀ (s : State) (L : SerialLayout), s.Inv → wordtype s.hdr = .header → s.pass = .pack → s.pmode = .none → s.payload = [] →
    layoutOf s.cfg s.kind s.hdr = some (.serial L) → (s.streamed = true → L.streamed = true) →
    fits s.cfg (wordsFor (serialBits L) (maxbits L.streamed)) = true →
    (∀ it ∈ L.items, (s.field it.fid it.slice it.index).toNat < 2 ^ it.width) →
    (∃ t : State, runAll [.mpack, .munpack] s = some ([⟨.ok, 1⟩, ⟨.ok, 1⟩], t) ∧
      (∀ it ∈ L.items, t.field it.fid it.slice it.index = s.field it.fid it.slice it.index) ∧
      (s.kind = .ppm → ∃ channels, t.payload.length = channels * (bits s.hdr 3 0 + bits s.hdr 7 4)) ∧
      (s.kind ≠ .ppm → ∀ it ∈ L.items, it.slice = 0)) ∧
    ∀ p u b : State, exec .mpack s = .next p → (∀ w ∈ p.payload, wordtype w = .data) →
      u.cfg = s.cfg → u.kind = s.kind → (u.streamed = true → L.streamed = true) → exec .readBegin u = .next b →
      ∃ t : State, exec .munpack (readWords (subBlockWords p) b).2 = .next t ∧ t.resp = some ⟨.ok, 1⟩ ∧
        ∀ it ∈ L.items, t.field it.fid it.slice it.index = s.field it.fid it.slice it.index

/-- The marshaller's round trip (43_marshaller.md R271, which derives it), neutral: in every slice the fields come back,
with 0 under every parity key, on the same block, or through WRITE and the reader of another block. -/
def Obligations.NeutralMarshallerRoundTrip : Prop :=
  ∀ (s : State) (L : NeutralLayout) (n : Nat), s.Inv → wordtype s.hdr = .header → s.pass = .pack → s.pmode = .none →
    s.payload = [] → layoutOf s.cfg s.kind s.hdr = some (.neutral L) →
    n = max 1 (slicesHdr s.cfg s.kind (BitVec.ofNat 4 (bits s.hdr 3 0)) (BitVec.ofNat 4 (bits s.hdr 7 4))) →
    fits s.cfg (n * L.bpspp) = true →
    (∀ it ∈ L.items, ∀ slice < n, (s.field it.fid (BitVec.ofNat 8 slice) it.index).toNat < 2 ^ it.width) →
    (∃ t : State, runAll [.mpack, .munpack] s = some ([⟨.ok, 1⟩, ⟨.ok, 1⟩], t) ∧ slicesCameBack L n s t) ∧
    ∀ p u b : State, exec .mpack s = .next p → (∀ w ∈ p.payload, wordtype w = .data) →
      u.cfg = s.cfg → u.kind = s.kind → exec .readBegin u = .next b →
      ∃ t : State, exec .munpack (readWords (subBlockWords p) b).2 = .next t ∧ t.resp = some ⟨.ok, 1⟩ ∧ slicesCameBack L n s t

/-- MPACK is a function of `kind`, `hdr`, the fields, `streamed` and the parameters (43_marshaller.md R272, which derives
it). -/
def Obligations.MpackIsDetermined : Prop :=
  ∀ s u p q : State, s.Inv → u.Inv → s.cfg = u.cfg → s.kind = u.kind → s.hdr = u.hdr → s.streamed = u.streamed →
    (∀ fid slice index : Slot, s.field fid slice index = u.field fid slice index) →
    exec .mpack s = .next p → exec .mpack u = .next q → p.resp = some ⟨.ok, 1⟩ → q.resp = some ⟨.ok, 1⟩ → p.payload = q.payload

/-- ROI_LOAD (43_marshaller.md R269): a word that is no RoI word of a RoI kind is answered 0 and changes nothing; one that is
gets its fields stored under slice 0, each under a key no later entry of the layout has, and nothing else changes. The
fields are non-overlapping slices of the word. -/
def Obligations.RoiLoadStoresItsFields : Prop :=
  ∀ (s : State) (w : Word),
    (s.kind ≠ .cpmRoi ∧ s.kind ≠ .jemRoi ∨ roiMatch s.cfg s.kind w = false → Completes (.roiLoad w) s s 0) ∧
    (s.fields.wf → s.kind = .cpmRoi ∨ s.kind = .jemRoi → roiMatch s.cfg s.kind w = true → ∃ t : State,
      Completes (.roiLoad w) s t 1 ∧ t = { s with fields := t.fields } ∧
      (∀ (before : List RoiField) (f : RoiField) (after : List RoiField), roiLayout s.cfg s.kind = before ++ f :: after →
        1 ≤ f.width ∧ f.lo + f.width ≤ 32 ∧ (∀ x ∈ after, x.lo + x.width ≤ f.lo ∨ f.lo + f.width ≤ x.lo) ∧
        ((∀ x ∈ after, ¬ (x.fid = f.fid ∧ x.index = f.index)) →
          (t.field f.fid 0 f.index).toNat = bits w (f.lo + f.width - 1) f.lo)) ∧
      ∀ fid slice index : Slot, (∀ x ∈ roiLayout s.cfg s.kind, ¬ (x.fid = fid ∧ slice = 0 ∧ x.index = index)) →
        t.field fid slice index = s.field fid slice index)
end

