-- ==== Sys2Proof/Laws/State.lean ====
section
/-! SUPPORT. One lemma per field per named update of State, each true by rfl; and the lane registers through their
accessors. -/

namespace Sys2Proof.Machine

open Sys2Proof

variable (s : State)

/-! ## answer -/

@[simp] theorem State.answer_cfg (c : Status) (r : Word) : (s.answer c r).cfg = s.cfg := rfl
@[simp] theorem State.answer_payload (c : Status) (r : Word) : (s.answer c r).payload = s.payload := rfl
@[simp] theorem State.answer_acc (c : Status) (r : Word) : (s.answer c r).acc = s.acc := rfl
@[simp] theorem State.answer_wcur (c : Status) (r : Word) : (s.answer c r).wcur = s.wcur := rfl
@[simp] theorem State.answer_rpos (c : Status) (r : Word) : (s.answer c r).rpos = s.rpos := rfl
@[simp] theorem State.answer_rbit (c : Status) (r : Word) : (s.answer c r).rbit = s.rbit := rfl
@[simp] theorem State.answer_ok (c : Status) (r : Word) : (s.answer c r).ok = s.ok := rfl
@[simp] theorem State.answer_streamed (c : Status) (r : Word) : (s.answer c r).streamed = s.streamed := rfl
@[simp] theorem State.answer_pincur (c : Status) (r : Word) : (s.answer c r).pincur = s.pincur := rfl
@[simp] theorem State.answer_par (c : Status) (r : Word) : (s.answer c r).par = s.par := rfl
@[simp] theorem State.answer_hdr (c : Status) (r : Word) : (s.answer c r).hdr = s.hdr := rfl
@[simp] theorem State.answer_trl (c : Status) (r : Word) : (s.answer c r).trl = s.trl := rfl
@[simp] theorem State.answer_kind (c : Status) (r : Word) : (s.answer c r).kind = s.kind := rfl
@[simp] theorem State.answer_fields (c : Status) (r : Word) : (s.answer c r).fields = s.fields := rfl
@[simp] theorem State.answer_out (c : Status) (r : Word) : (s.answer c r).out = s.out := rfl
@[simp] theorem State.answer_pass (c : Status) (r : Word) : (s.answer c r).pass = s.pass := rfl
@[simp] theorem State.answer_pmode (c : Status) (r : Word) : (s.answer c r).pmode = s.pmode := rfl
@[simp] theorem State.answer_rd (c : Status) (r : Word) : (s.answer c r).rd = s.rd := rfl
@[simp] theorem State.answer_resp (c : Status) (r : Word) : (s.answer c r).resp = some ⟨c, r⟩ := rfl
@[simp] theorem State.answer_port (c : Status) (r : Word) : (s.answer c r).port = s.port := rfl
@[simp] theorem State.answer_free (c : Status) (r : Word) : (s.answer c r).free = s.free := rfl

/-! ## refuse -/

@[simp] theorem State.refuse_cfg (c : Status) : (s.refuse c).cfg = s.cfg := rfl
@[simp] theorem State.refuse_payload (c : Status) : (s.refuse c).payload = s.payload := rfl
@[simp] theorem State.refuse_acc (c : Status) : (s.refuse c).acc = s.acc := rfl
@[simp] theorem State.refuse_wcur (c : Status) : (s.refuse c).wcur = s.wcur := rfl
@[simp] theorem State.refuse_rpos (c : Status) : (s.refuse c).rpos = s.rpos := rfl
@[simp] theorem State.refuse_rbit (c : Status) : (s.refuse c).rbit = s.rbit := rfl
@[simp] theorem State.refuse_ok (c : Status) : (s.refuse c).ok = s.ok := rfl
@[simp] theorem State.refuse_streamed (c : Status) : (s.refuse c).streamed = s.streamed := rfl
@[simp] theorem State.refuse_pincur (c : Status) : (s.refuse c).pincur = s.pincur := rfl
@[simp] theorem State.refuse_par (c : Status) : (s.refuse c).par = s.par := rfl
@[simp] theorem State.refuse_hdr (c : Status) : (s.refuse c).hdr = s.hdr := rfl
@[simp] theorem State.refuse_trl (c : Status) : (s.refuse c).trl = s.trl := rfl
@[simp] theorem State.refuse_kind (c : Status) : (s.refuse c).kind = s.kind := rfl
@[simp] theorem State.refuse_fields (c : Status) : (s.refuse c).fields = s.fields := rfl
@[simp] theorem State.refuse_out (c : Status) : (s.refuse c).out = s.out := rfl
@[simp] theorem State.refuse_pass (c : Status) : (s.refuse c).pass = s.pass := rfl
@[simp] theorem State.refuse_pmode (c : Status) : (s.refuse c).pmode = s.pmode := rfl
@[simp] theorem State.refuse_rd (c : Status) : (s.refuse c).rd = s.rd := rfl
@[simp] theorem State.refuse_resp (c : Status) : (s.refuse c).resp = some ⟨c, 0⟩ := rfl
@[simp] theorem State.refuse_port (c : Status) : (s.refuse c).port = s.port := rfl
@[simp] theorem State.refuse_free (c : Status) : (s.refuse c).free = s.free := rfl

/-! ## setField -/

@[simp] theorem State.setField_cfg (fid slice index : Slot) (v : Word) : (s.setField fid slice index v).cfg = s.cfg := rfl
@[simp] theorem State.setField_payload (fid slice index : Slot) (v : Word) : (s.setField fid slice index v).payload = s.payload := rfl
@[simp] theorem State.setField_acc (fid slice index : Slot) (v : Word) : (s.setField fid slice index v).acc = s.acc := rfl
@[simp] theorem State.setField_wcur (fid slice index : Slot) (v : Word) : (s.setField fid slice index v).wcur = s.wcur := rfl
@[simp] theorem State.setField_rpos (fid slice index : Slot) (v : Word) : (s.setField fid slice index v).rpos = s.rpos := rfl
@[simp] theorem State.setField_rbit (fid slice index : Slot) (v : Word) : (s.setField fid slice index v).rbit = s.rbit := rfl
@[simp] theorem State.setField_ok (fid slice index : Slot) (v : Word) : (s.setField fid slice index v).ok = s.ok := rfl
@[simp] theorem State.setField_streamed (fid slice index : Slot) (v : Word) : (s.setField fid slice index v).streamed = s.streamed := rfl
@[simp] theorem State.setField_pincur (fid slice index : Slot) (v : Word) : (s.setField fid slice index v).pincur = s.pincur := rfl
@[simp] theorem State.setField_par (fid slice index : Slot) (v : Word) : (s.setField fid slice index v).par = s.par := rfl
@[simp] theorem State.setField_hdr (fid slice index : Slot) (v : Word) : (s.setField fid slice index v).hdr = s.hdr := rfl
@[simp] theorem State.setField_trl (fid slice index : Slot) (v : Word) : (s.setField fid slice index v).trl = s.trl := rfl
@[simp] theorem State.setField_kind (fid slice index : Slot) (v : Word) : (s.setField fid slice index v).kind = s.kind := rfl
@[simp] theorem State.setField_fields (fid slice index : Slot) (v : Word) : (s.setField fid slice index v).fields = s.fields.write (fieldKey fid slice index) v := rfl
@[simp] theorem State.setField_out (fid slice index : Slot) (v : Word) : (s.setField fid slice index v).out = s.out := rfl
@[simp] theorem State.setField_pass (fid slice index : Slot) (v : Word) : (s.setField fid slice index v).pass = s.pass := rfl
@[simp] theorem State.setField_pmode (fid slice index : Slot) (v : Word) : (s.setField fid slice index v).pmode = s.pmode := rfl
@[simp] theorem State.setField_rd (fid slice index : Slot) (v : Word) : (s.setField fid slice index v).rd = s.rd := rfl
@[simp] theorem State.setField_resp (fid slice index : Slot) (v : Word) : (s.setField fid slice index v).resp = s.resp := rfl
@[simp] theorem State.setField_port (fid slice index : Slot) (v : Word) : (s.setField fid slice index v).port = s.port := rfl
@[simp] theorem State.setField_free (fid slice index : Slot) (v : Word) : (s.setField fid slice index v).free = s.free := rfl

/-! ## setCursor -/

@[simp] theorem State.setCursor_cfg (p n : Nat) : (s.setCursor p n).cfg = s.cfg := rfl
@[simp] theorem State.setCursor_payload (p n : Nat) : (s.setCursor p n).payload = s.payload := rfl
@[simp] theorem State.setCursor_acc (p n : Nat) : (s.setCursor p n).acc = s.acc := rfl
@[simp] theorem State.setCursor_wcur (p n : Nat) : (s.setCursor p n).wcur = s.wcur := rfl
@[simp] theorem State.setCursor_rpos (p n : Nat) : (s.setCursor p n).rpos = s.rpos := rfl
@[simp] theorem State.setCursor_rbit (p n : Nat) : (s.setCursor p n).rbit = s.rbit := rfl
@[simp] theorem State.setCursor_ok (p n : Nat) : (s.setCursor p n).ok = s.ok := rfl
@[simp] theorem State.setCursor_streamed (p n : Nat) : (s.setCursor p n).streamed = s.streamed := rfl
@[simp] theorem State.setCursor_pincur (p n : Nat) : (s.setCursor p n).pincur = s.pincur.setIfInBounds p n := rfl
@[simp] theorem State.setCursor_par (p n : Nat) : (s.setCursor p n).par = s.par := rfl
@[simp] theorem State.setCursor_hdr (p n : Nat) : (s.setCursor p n).hdr = s.hdr := rfl
@[simp] theorem State.setCursor_trl (p n : Nat) : (s.setCursor p n).trl = s.trl := rfl
@[simp] theorem State.setCursor_kind (p n : Nat) : (s.setCursor p n).kind = s.kind := rfl
@[simp] theorem State.setCursor_fields (p n : Nat) : (s.setCursor p n).fields = s.fields := rfl
@[simp] theorem State.setCursor_out (p n : Nat) : (s.setCursor p n).out = s.out := rfl
@[simp] theorem State.setCursor_pass (p n : Nat) : (s.setCursor p n).pass = s.pass := rfl
@[simp] theorem State.setCursor_pmode (p n : Nat) : (s.setCursor p n).pmode = s.pmode := rfl
@[simp] theorem State.setCursor_rd (p n : Nat) : (s.setCursor p n).rd = s.rd := rfl
@[simp] theorem State.setCursor_resp (p n : Nat) : (s.setCursor p n).resp = s.resp := rfl
@[simp] theorem State.setCursor_port (p n : Nat) : (s.setCursor p n).port = s.port := rfl
@[simp] theorem State.setCursor_free (p n : Nat) : (s.setCursor p n).free = s.free := rfl

/-! ## setParity -/

@[simp] theorem State.setParity_cfg (p : Nat) (b : Bool) : (s.setParity p b).cfg = s.cfg := rfl
@[simp] theorem State.setParity_payload (p : Nat) (b : Bool) : (s.setParity p b).payload = s.payload := rfl
@[simp] theorem State.setParity_acc (p : Nat) (b : Bool) : (s.setParity p b).acc = s.acc := rfl
@[simp] theorem State.setParity_wcur (p : Nat) (b : Bool) : (s.setParity p b).wcur = s.wcur := rfl
@[simp] theorem State.setParity_rpos (p : Nat) (b : Bool) : (s.setParity p b).rpos = s.rpos := rfl
@[simp] theorem State.setParity_rbit (p : Nat) (b : Bool) : (s.setParity p b).rbit = s.rbit := rfl
@[simp] theorem State.setParity_ok (p : Nat) (b : Bool) : (s.setParity p b).ok = s.ok := rfl
@[simp] theorem State.setParity_streamed (p : Nat) (b : Bool) : (s.setParity p b).streamed = s.streamed := rfl
@[simp] theorem State.setParity_pincur (p : Nat) (b : Bool) : (s.setParity p b).pincur = s.pincur := rfl
@[simp] theorem State.setParity_par (p : Nat) (b : Bool) : (s.setParity p b).par = s.par.setIfInBounds p b := rfl
@[simp] theorem State.setParity_hdr (p : Nat) (b : Bool) : (s.setParity p b).hdr = s.hdr := rfl
@[simp] theorem State.setParity_trl (p : Nat) (b : Bool) : (s.setParity p b).trl = s.trl := rfl
@[simp] theorem State.setParity_kind (p : Nat) (b : Bool) : (s.setParity p b).kind = s.kind := rfl
@[simp] theorem State.setParity_fields (p : Nat) (b : Bool) : (s.setParity p b).fields = s.fields := rfl
@[simp] theorem State.setParity_out (p : Nat) (b : Bool) : (s.setParity p b).out = s.out := rfl
@[simp] theorem State.setParity_pass (p : Nat) (b : Bool) : (s.setParity p b).pass = s.pass := rfl
@[simp] theorem State.setParity_pmode (p : Nat) (b : Bool) : (s.setParity p b).pmode = s.pmode := rfl
@[simp] theorem State.setParity_rd (p : Nat) (b : Bool) : (s.setParity p b).rd = s.rd := rfl
@[simp] theorem State.setParity_resp (p : Nat) (b : Bool) : (s.setParity p b).resp = s.resp := rfl
@[simp] theorem State.setParity_port (p : Nat) (b : Bool) : (s.setParity p b).port = s.port := rfl
@[simp] theorem State.setParity_free (p : Nat) (b : Bool) : (s.setParity p b).free = s.free := rfl

/-! ## resetLanes -/

@[simp] theorem State.resetLanes_cfg : s.resetLanes.cfg = s.cfg := rfl
@[simp] theorem State.resetLanes_payload : s.resetLanes.payload = s.payload := rfl
@[simp] theorem State.resetLanes_acc : s.resetLanes.acc = s.acc := rfl
@[simp] theorem State.resetLanes_wcur : s.resetLanes.wcur = s.wcur := rfl
@[simp] theorem State.resetLanes_rpos : s.resetLanes.rpos = s.rpos := rfl
@[simp] theorem State.resetLanes_rbit : s.resetLanes.rbit = s.rbit := rfl
@[simp] theorem State.resetLanes_ok : s.resetLanes.ok = s.ok := rfl
@[simp] theorem State.resetLanes_streamed : s.resetLanes.streamed = s.streamed := rfl
@[simp] theorem State.resetLanes_pincur : s.resetLanes.pincur = Vector.replicate 32 0 := rfl
@[simp] theorem State.resetLanes_par : s.resetLanes.par = Vector.replicate 32 true := rfl
@[simp] theorem State.resetLanes_hdr : s.resetLanes.hdr = s.hdr := rfl
@[simp] theorem State.resetLanes_trl : s.resetLanes.trl = s.trl := rfl
@[simp] theorem State.resetLanes_kind : s.resetLanes.kind = s.kind := rfl
@[simp] theorem State.resetLanes_fields : s.resetLanes.fields = s.fields := rfl
@[simp] theorem State.resetLanes_out : s.resetLanes.out = s.out := rfl
@[simp] theorem State.resetLanes_pass : s.resetLanes.pass = s.pass := rfl
@[simp] theorem State.resetLanes_pmode : s.resetLanes.pmode = s.pmode := rfl
@[simp] theorem State.resetLanes_rd : s.resetLanes.rd = s.rd := rfl
@[simp] theorem State.resetLanes_resp : s.resetLanes.resp = s.resp := rfl
@[simp] theorem State.resetLanes_port : s.resetLanes.port = s.port := rfl
@[simp] theorem State.resetLanes_free : s.resetLanes.free = s.free := rfl

/-! ## truncated -/

@[simp] theorem State.truncated_cfg : s.truncated.cfg = s.cfg := rfl
@[simp] theorem State.truncated_payload : s.truncated.payload = s.payload := rfl
@[simp] theorem State.truncated_acc : s.truncated.acc = s.acc := rfl
@[simp] theorem State.truncated_wcur : s.truncated.wcur = s.wcur := rfl
@[simp] theorem State.truncated_rpos : s.truncated.rpos = s.rpos := rfl
@[simp] theorem State.truncated_rbit : s.truncated.rbit = s.rbit := rfl
@[simp] theorem State.truncated_ok : s.truncated.ok = false := rfl
@[simp] theorem State.truncated_streamed : s.truncated.streamed = s.streamed := rfl
@[simp] theorem State.truncated_pincur : s.truncated.pincur = s.pincur := rfl
@[simp] theorem State.truncated_par : s.truncated.par = s.par := rfl
@[simp] theorem State.truncated_hdr : s.truncated.hdr = s.hdr := rfl
@[simp] theorem State.truncated_trl : s.truncated.trl = s.trl := rfl
@[simp] theorem State.truncated_kind : s.truncated.kind = s.kind := rfl
@[simp] theorem State.truncated_fields : s.truncated.fields = s.fields := rfl
@[simp] theorem State.truncated_out : s.truncated.out = s.out := rfl
@[simp] theorem State.truncated_pass : s.truncated.pass = s.pass := rfl
@[simp] theorem State.truncated_pmode : s.truncated.pmode = s.pmode := rfl
@[simp] theorem State.truncated_rd : s.truncated.rd = s.rd := rfl
@[simp] theorem State.truncated_resp : s.truncated.resp = s.resp := rfl
@[simp] theorem State.truncated_port : s.truncated.port = s.port := rfl
@[simp] theorem State.truncated_free : s.truncated.free = s.free := rfl

/-! ## The lane registers through their accessors -/

@[simp] theorem State.cursor_answer (c : Status) (r : Word) (p : Nat) : (s.answer c r).cursor p = s.cursor p := rfl
@[simp] theorem State.parity_answer (c : Status) (r : Word) (p : Nat) : (s.answer c r).parity p = s.parity p := rfl
@[simp] theorem State.cursor_setParity (p q : Nat) (b : Bool) : (s.setParity p b).cursor q = s.cursor q := rfl
@[simp] theorem State.parity_setCursor (p q n : Nat) : (s.setCursor p n).parity q = s.parity q := rfl
@[simp] theorem State.cursor_setField (fid slice index : Slot) (v : Word) (p : Nat) :
    (s.setField fid slice index v).cursor p = s.cursor p := rfl
@[simp] theorem State.parity_setField (fid slice index : Slot) (v : Word) (p : Nat) :
    (s.setField fid slice index v).parity p = s.parity p := rfl
@[simp] theorem State.cursor_truncated (p : Nat) : s.truncated.cursor p = s.cursor p := rfl
@[simp] theorem State.parity_truncated (p : Nat) : s.truncated.parity p = s.parity p := rfl

theorem State.cursor_setCursor (p q n : Nat) (hp : p < 32) :
    (s.setCursor p n).cursor q = if p = q then n else s.cursor q := by
  simp only [State.cursor, State.setCursor, Vector.getElem?_setIfInBounds]
  by_cases h : p = q
  · subst h; simp [hp]
  · simp [h]

theorem State.parity_setParity (p q : Nat) (b : Bool) (hp : p < 32) :
    (s.setParity p b).parity q = if p = q then b else s.parity q := by
  simp only [State.parity, State.setParity, Vector.getElem?_setIfInBounds]
  by_cases h : p = q
  · subst h; simp [hp]
  · simp [h]

@[simp] theorem State.cursor_resetLanes (p : Nat) : s.resetLanes.cursor p = 0 := by
  simp only [State.cursor, State.resetLanes, Vector.getElem?_replicate]
  split <;> rfl

@[simp] theorem State.parity_resetLanes (p : Nat) : s.resetLanes.parity p = true := by
  simp only [State.parity, State.resetLanes, Vector.getElem?_replicate]
  split <;> rfl

end Sys2Proof.Machine
end

