-- ==== Sys2Proof/Laws/Words.lean ====
section
/-! SUPPORT. The operations over words, bit by bit and as numbers. -/

namespace Sys2Proof.Machine

open Sys2Proof

theorem toNat_mask {n : Nat} (hn : n ≤ 32) : (mask n).toNat = 2 ^ n - 1 := by
  have : 2 ^ n ≤ 2 ^ 32 := Nat.pow_le_pow_right (by omega) hn
  simp only [mask, BitVec.toNat_ofNat]
  exact Nat.mod_eq_of_lt (by have := Nat.two_pow_pos n; omega)

theorem getLsbD_mask {n k : Nat} (hn : n ≤ 32) : (mask n).getLsbD k = decide (k < n) := by
  rw [BitVec.getLsbD, toNat_mask hn, Nat.testBit_two_pow_sub_one]

/-- `value & mask(nbits)` as a number (00_scope.md R10). -/
theorem toNat_and_mask (w : Word) {n : Nat} (hn : n ≤ 32) : (w &&& mask n).toNat = w.toNat % 2 ^ n := by
  rw [BitVec.toNat_and, toNat_mask hn, Nat.and_two_pow_sub_one_eq_mod]

theorem getLsbD_and_mask (w : Word) {n k : Nat} (hn : n ≤ 32) :
    (w &&& mask n).getLsbD k = (w.getLsbD k && decide (k < n)) := by
  rw [BitVec.getLsbD_and, getLsbD_mask hn]

theorem and_mask_32 (w : Word) : w &&& mask 32 = w := by
  apply BitVec.eq_of_toNat_eq
  rw [toNat_and_mask w le_rfl]
  exact Nat.mod_eq_of_lt w.isLt

/-- `w[lo+width-1 : lo]` as a number (00_scope.md R9). -/
theorem toNat_wordSlice (w : Word) (lo : Nat) {width : Nat} (h : width ≤ 32) :
    (wordSlice w lo width).toNat = w.toNat / 2 ^ lo % 2 ^ width := by
  rw [wordSlice, toNat_and_mask _ h, BitVec.toNat_ushiftRight, Nat.shiftRight_eq_div_pow]

theorem getLsbD_wordSlice (w : Word) (lo : Nat) {width k : Nat} (h : width ≤ 32) :
    (wordSlice w lo width).getLsbD k = (w.getLsbD (lo + k) && decide (k < width)) := by
  rw [wordSlice, getLsbD_and_mask _ h, BitVec.getLsbD_ushiftRight]

/-- `setbit` replaces one bit and no other (00_scope.md R11). -/
theorem getLsbD_setbit (w : Word) (i k : Nat) (d : Bool) :
    (setbit w i d).getLsbD k = if k = i ∧ i < 32 then d else w.getLsbD k := by
  have hb : ∀ j, (1#32 <<< i).getLsbD j = (decide (j < 32) && decide (j = i)) := by
    intro j
    rw [BitVec.getLsbD_shiftLeft, BitVec.getLsbD_one]
    by_cases h1 : j < i <;> by_cases h2 : j = i <;> by_cases h3 : j < 32 <;> simp [h1, h2, h3]; all_goals omega
  by_cases hk : k < 32
  · unfold setbit
    rw [BitVec.getLsbD_or, BitVec.getLsbD_and, BitVec.getLsbD_not, hb]
    by_cases h : k = i
    · subst h
      cases d
      · simp [hk]
      · simp [hk]
    · cases d
      · simp [hk, h]
      · rw [if_pos rfl, hb]; simp [hk, h]
  · have h2 : ∀ v : Word, v.getLsbD k = false := fun v => BitVec.getLsbD_of_ge _ _ (by omega)
    rw [h2, h2, if_neg (by omega)]

theorem getLsbD_boolWord (b : Bool) (k : Nat) : (boolWord b).getLsbD k = (b && decide (k = 0)) := by
  cases b <;> simp [boolWord, BitVec.getLsbD_one]
  
theorem boolWord_eq_one (b : Bool) : boolWord b = 1 ↔ b = true := by cases b <;> decide

@[simp] theorem maxbits_true : maxbits true = 31 := rfl
@[simp] theorem maxbits_false : maxbits false = 32 := rfl

theorem maxbits_pos (b : Bool) : 0 < maxbits b := by cases b <;> decide
theorem maxbits_le (b : Bool) : maxbits b ≤ 32 := by cases b <;> decide
theorem maxbits_ge (b : Bool) : 31 ≤ maxbits b := by cases b <;> decide

/-- `maxmask` keeps the bits below `maxbits` (10_state.md R39). -/
theorem maxmask_eq_mask (b : Bool) : maxmask b = mask (maxbits b) := by cases b <;> decide

theorem maxPins_le (c : Config) : maxPins c ≤ 32 := by have := c.extraPins.isLt; simp only [maxPins]; omega
theorem maxPins_ge (c : Config) : 20 ≤ maxPins c := by simp only [maxPins]; omega

/-- Room for more words is room for fewer. -/
theorem fits_mono {c : Config} {n m : Nat} (h : n ≤ m) (hm : fits c m = true) : fits c n = true := by
  unfold fits at *
  split at hm
  · rfl
  · simp only [decide_eq_true_eq] at *; omega

/-- A header field replaced: its bits are the value's, the others stay (42_header_trailer.md R206). -/
theorem getLsbD_replaceField (w value : Word) {lo width k : Nat} (h : lo + width ≤ 32) :
    (replaceField w lo width value).getLsbD k =
      if lo ≤ k ∧ k < lo + width then value.getLsbD (k - lo) else w.getLsbD k := by
  have hw : width ≤ 32 := by omega
  by_cases hk : k < 32
  · simp only [replaceField, BitVec.getLsbD_or, BitVec.getLsbD_and, BitVec.getLsbD_not, BitVec.getLsbD_shiftLeft,
      getLsbD_mask hw, hk, decide_true, Bool.true_and]
    by_cases h1 : k < lo
    · simp [h1]
    · by_cases h2 : k - lo < width
      · rw [if_pos (by omega)]; simp [h1, h2]
      · rw [if_neg (by omega)]; simp [h1, h2]
  · rw [BitVec.getLsbD_of_ge _ _ (by omega), if_neg (by omega), BitVec.getLsbD_of_ge _ _ (by omega)]

end Sys2Proof.Machine
end

