-- ==== Sys2Proof/Laws/Bits.lean ====
section
/-! SUPPORT. The bits of words as lists, the logical bitstream of a payload (00_scope.md R14), and the lanes. -/

namespace Sys2Proof.Machine

open Sys2Proof

@[simp] theorem length_wordBits (n : Nat) (w : Word) : (wordBits n w).length = n := by simp [wordBits]
@[simp] theorem wordBits_zero (w : Word) : wordBits 0 w = [] := rfl

theorem getElem_wordBits (n : Nat) (w : Word) (k : Nat) (h : k < (wordBits n w).length) : (wordBits n w)[k] = w.getLsbD k := by
  simp [wordBits]

/-- Two words with the same low bits have the same list of them. -/
theorem wordBits_congr {n : Nat} {v w : Word} (h : ∀ k < n, v.getLsbD k = w.getLsbD k) : wordBits n v = wordBits n w :=
  List.map_congr_left fun k hk => h k (List.mem_range.mp hk)

theorem wordBits_and_mask {n : Nat} (w : Word) (hn : n ≤ 32) : wordBits n (w &&& mask n) = wordBits n w :=
  wordBits_congr fun k hk => by rw [getLsbD_and_mask _ hn]; simp [hk]

/-- A word below `2^n` has no bit from `n` on. -/
theorem getLsbD_of_lt_two_pow {w : Word} {n k : Nat} (h : w.toNat < 2 ^ n) (hk : n ≤ k) : w.getLsbD k = false :=
  Nat.testBit_eq_false_of_lt (Nat.lt_of_lt_of_le h (Nat.pow_le_pow_right (by omega) hk))

/-- A word of `a` bits with `b` more put above them. -/
theorem wordBits_or_shift {a b : Nat} (acc x : Word) (hab : a + b ≤ 32) (ha : acc.toNat < 2 ^ a) :
    wordBits (a + b) (acc ||| ((x &&& mask b) <<< a)) = wordBits a acc ++ wordBits b x := by
  apply List.ext_getElem
  · simp
  · intro k h1 h2
    have hk : k < a + b := by simpa using h1
    rw [getElem_wordBits, List.getElem_append, BitVec.getLsbD_or, BitVec.getLsbD_shiftLeft, getLsbD_and_mask _ (by omega)]
    simp only [length_wordBits]
    split
    · rename_i hka
      rw [getElem_wordBits]; simp [hka]
    · rename_i hka
      rw [getElem_wordBits, getLsbD_of_lt_two_pow ha (by omega)]
      simp [hka, show k < 32 by omega, show k - a < b by omega]

/-- The bits left when the lowest are shifted out. -/
theorem wordBits_ushiftRight (n k : Nat) (w : Word) : wordBits n (w >>> k) = (wordBits (k + n) w).drop k := by
  apply List.ext_getElem
  · simp
  · intro i h1 h2
    rw [List.getElem_drop, getElem_wordBits, getElem_wordBits, BitVec.getLsbD_ushiftRight]

theorem take_wordBits (n k : Nat) (w : Word) : (wordBits n w).take k = wordBits (min k n) w := by
  apply List.ext_getElem
  · simp
  · intro i h1 h2
    rw [List.getElem_take, getElem_wordBits, getElem_wordBits]

/-- Words below `2^n` with the same first `n` bits are equal. -/
theorem eq_of_wordBits_eq {n : Nat} {v w : Word} (hv : v.toNat < 2 ^ n) (hw : w.toNat < 2 ^ n)
    (h : wordBits n v = wordBits n w) : v = w := by
  apply BitVec.eq_of_getLsbD_eq
  intro k _
  by_cases hk : k < n
  · have := congrArg (fun l : List Bool => l[k]?) h
    simpa [wordBits, hk] using this
  · rw [getLsbD_of_lt_two_pow hv (by omega), getLsbD_of_lt_two_pow hw (by omega)]

/-! ## The bitstream -/

@[simp] theorem bitstream_nil (m : Nat) : bitstream [] m = [] := rfl
@[simp] theorem bitstream_cons (w : Word) (p : List Word) (m : Nat) : bitstream (w :: p) m = wordBits m w ++ bitstream p m := rfl

theorem bitstream_append (p q : List Word) (m : Nat) : bitstream (p ++ q) m = bitstream p m ++ bitstream q m := by
  simp [bitstream]

@[simp] theorem length_bitstream (p : List Word) (m : Nat) : (bitstream p m).length = p.length * m := by
  induction p with
  | nil => simp
  | cons w p ih => rw [bitstream_cons, List.length_append, ih, length_wordBits, List.length_cons, Nat.succ_mul, Nat.add_comm]

/-- Bit number `i*m + j` of the bitstream is `P[i][j]` (00_scope.md R14). -/
theorem getElem?_bitstream (p : List Word) {m i j : Nat} (hi : i < p.length) (hj : j < m) :
    (bitstream p m)[i * m + j]? = some ((memRead p i).getLsbD j) := by
  induction p generalizing i with
  | nil => simp at hi
  | cons w p ih =>
    cases i with
    | zero =>
      rw [bitstream_cons, Nat.zero_mul, Nat.zero_add, List.getElem?_append_left (by simpa using hj)]
      simp [wordBits, hj, memRead]
    | succ i =>
      rw [bitstream_cons, Nat.succ_mul, List.getElem?_append_right (by simp; omega)]
      simp only [length_wordBits]
      rw [show i * m + m + j - m = i * m + j by omega, ih (by simpa using hi)]
      rfl

/-- The bits of word `i` on from bit `j`, as a piece of the bitstream. -/
theorem take_drop_bitstream (p : List Word) {m i j n : Nat} (hi : i < p.length) (hjn : j + n ≤ m) :
    ((bitstream p m).drop (i * m + j)).take n = wordBits n (memRead p i >>> j) := by
  have hle : i * m + m ≤ p.length * m := by
    rw [← Nat.succ_mul]; exact Nat.mul_le_mul_right m hi
  apply List.ext_getElem?
  intro k
  by_cases hk : k < n
  · rw [List.getElem?_take, if_pos hk, List.getElem?_drop, Nat.add_assoc, getElem?_bitstream p hi (by omega)]
    simp [wordBits, hk, BitVec.getLsbD_ushiftRight]
  · rw [List.getElem?_eq_none (by simp; omega), List.getElem?_eq_none (by simp; omega)]

/-! ## The lanes -/

theorem laneBit_append (p q : List Word) (pin row : Nat) (h : row < p.length) : laneBit (p ++ q) pin row = laneBit p pin row := by
  simp [laneBit, memRead, List.getD_eq_getElem?_getD, List.getElem?_append_left h]

/-- Column and row of a payload say all of it. -/
theorem payload_ext {p q : List Word} (hl : p.length = q.length)
    (h : ∀ row < p.length, ∀ col < 32, laneBit p col row = laneBit q col row) : p = q := by
  apply List.ext_getElem hl
  intro row h1 h2
  apply BitVec.eq_of_getLsbD_eq
  intro col hc
  simpa [laneBit, memRead, h1, h2] using h row h1 col hc

end Sys2Proof.Machine
end

