-- ==== Sys2Proof/Laws/Decode.lean ====
section
/-! SUPPORT. The fields of an assembled command word, and of an assembled wire word. -/

namespace Sys2Proof

/-- A slice that lies in the low part of an append. -/
theorem extractLsb'_append_low {m n : Nat} (x : BitVec m) (y : BitVec n) (lo len : Nat) (h : lo + len ≤ n) :
    (x ++ y).extractLsb' lo len = y.extractLsb' lo len := by
  apply BitVec.eq_of_getLsbD_eq
  intro i hi
  simp only [BitVec.getLsbD_extractLsb', BitVec.getLsbD_append]
  rw [if_pos (by omega)]

/-- A slice that lies in the high part of an append. -/
theorem extractLsb'_append_high {m n : Nat} (x : BitVec m) (y : BitVec n) (lo len : Nat) (h : n ≤ lo) :
    (x ++ y).extractLsb' lo len = x.extractLsb' (lo - n) len := by
  apply BitVec.eq_of_getLsbD_eq
  intro i hi
  simp only [BitVec.getLsbD_extractLsb', BitVec.getLsbD_append]
  rw [if_neg (by omega)]
  congr 2
  omega

/-- The slice that is the whole. -/
theorem extractLsb'_whole {n : Nat} (x : BitVec n) : x.extractLsb' 0 n = x := by
  apply BitVec.eq_of_getLsbD_eq
  intro i hi
  simp [hi]

/-- Two slices side by side are one slice. -/
theorem extractLsb'_append_adjacent {n : Nat} (x : BitVec n) (lo a b : Nat) :
    x.extractLsb' (lo + b) a ++ x.extractLsb' lo b = x.extractLsb' lo (a + b) := by
  apply BitVec.eq_of_getLsbD_eq
  intro i hi
  simp only [BitVec.getLsbD_append, BitVec.getLsbD_extractLsb']
  by_cases h : i < b
  · simp [h, show i < a + b by omega]
  · have : lo + b + (i - b) = lo + i := by omega
    simp [h, hi, this, show i - b < a by omega]

section
variable (op a b c : Slot) (v : Word)

@[simp] theorem opOf_commandWord : opOf (commandWord op a b c v) = op := by
  unfold opOf commandWord
  rw [extractLsb'_append_high _ _ _ _ (by omega), extractLsb'_append_high _ _ _ _ (by omega),
    extractLsb'_append_high _ _ _ _ (by omega), extractLsb'_append_high _ _ _ _ (by omega)]
  exact extractLsb'_whole op

@[simp] theorem aOf_commandWord : aOf (commandWord op a b c v) = a := by
  unfold aOf commandWord
  rw [extractLsb'_append_high _ _ _ _ (by omega), extractLsb'_append_high _ _ _ _ (by omega),
    extractLsb'_append_high _ _ _ _ (by omega), extractLsb'_append_low _ _ _ _ (by omega)]
  exact extractLsb'_whole a

@[simp] theorem bOf_commandWord : bOf (commandWord op a b c v) = b := by
  unfold bOf commandWord
  rw [extractLsb'_append_high _ _ _ _ (by omega), extractLsb'_append_high _ _ _ _ (by omega),
    extractLsb'_append_low _ _ _ _ (by omega)]
  exact extractLsb'_whole b

@[simp] theorem cOf_commandWord : cOf (commandWord op a b c v) = c := by
  unfold cOf commandWord
  rw [extractLsb'_append_high _ _ _ _ (by omega), extractLsb'_append_low _ _ _ _ (by omega)]
  exact extractLsb'_whole c

@[simp] theorem vOf_commandWord : vOf (commandWord op a b c v) = v := by
  unfold vOf commandWord
  rw [extractLsb'_append_low _ _ _ _ (by omega)]
  exact extractLsb'_whole v

end

/-- A command word is its five fields. -/
theorem commandWord_fields (w : CommandWord) : commandWord (opOf w) (aOf w) (bOf w) (cOf w) (vOf w) = w := by
  unfold commandWord opOf aOf bOf cOf vOf
  apply BitVec.eq_of_getLsbD_eq
  intro i hi
  simp only [BitVec.getLsbD_append, BitVec.getLsbD_extractLsb']
  by_cases h1 : i < 32
  · simp [h1]
  · by_cases h2 : i < 40
    · have : 32 + (i - 32) = i := by omega
      simp [h1, show i - 32 < 8 by omega, this]
    · by_cases h3 : i < 48
      · have : 40 + (i - 32 - 8) = i := by omega
        simp [h1, show ¬ i - 32 < 8 by omega, show i - 32 - 8 < 8 by omega, this]
      · by_cases h4 : i < 56
        · have : 48 + (i - 32 - 8 - 8) = i := by omega
          simp [h1, show ¬ i - 32 < 8 by omega, show ¬ i - 32 - 8 < 8 by omega, show i - 32 - 8 - 8 < 8 by omega, this]
        · have : 56 + (i - 32 - 8 - 8 - 8) = i := by omega
          simp [h1, show ¬ i - 32 < 8 by omega, show ¬ i - 32 - 8 < 8 by omega, show ¬ i - 32 - 8 - 8 < 8 by omega,
            show i - 32 - 8 - 8 - 8 < 8 by omega, this]

section
variable (wordId : BitVec 4) (version format : BitVec 3) (seqno : BitVec 6) (crate modNo slices2 slices1 : BitVec 4)

@[simp] theorem headerWord_wordId :
    (headerWord wordId version format seqno crate modNo slices2 slices1).extractLsb' 28 4 = wordId := by
  unfold headerWord
  rw [extractLsb'_append_high _ _ _ _ (by omega), extractLsb'_append_high _ _ _ _ (by omega), extractLsb'_append_high _ _ _ _ (by omega), extractLsb'_append_high _ _ _ _ (by omega), extractLsb'_append_high _ _ _ _ (by omega), extractLsb'_append_high _ _ _ _ (by omega), extractLsb'_append_high _ _ _ _ (by omega)]
  exact extractLsb'_whole _

@[simp] theorem headerWord_version :
    (headerWord wordId version format seqno crate modNo slices2 slices1).extractLsb' 25 3 = version := by
  unfold headerWord
  rw [extractLsb'_append_high _ _ _ _ (by omega), extractLsb'_append_high _ _ _ _ (by omega), extractLsb'_append_high _ _ _ _ (by omega), extractLsb'_append_high _ _ _ _ (by omega), extractLsb'_append_high _ _ _ _ (by omega), extractLsb'_append_high _ _ _ _ (by omega), extractLsb'_append_low _ _ _ _ (by omega)]
  exact extractLsb'_whole _

@[simp] theorem headerWord_format :
    (headerWord wordId version format seqno crate modNo slices2 slices1).extractLsb' 22 3 = format := by
  unfold headerWord
  rw [extractLsb'_append_high _ _ _ _ (by omega), extractLsb'_append_high _ _ _ _ (by omega), extractLsb'_append_high _ _ _ _ (by omega), extractLsb'_append_high _ _ _ _ (by omega), extractLsb'_append_high _ _ _ _ (by omega), extractLsb'_append_low _ _ _ _ (by omega)]
  exact extractLsb'_whole _

@[simp] theorem headerWord_seqno :
    (headerWord wordId version format seqno crate modNo slices2 slices1).extractLsb' 16 6 = seqno := by
  unfold headerWord
  rw [extractLsb'_append_high _ _ _ _ (by omega), extractLsb'_append_high _ _ _ _ (by omega), extractLsb'_append_high _ _ _ _ (by omega), extractLsb'_append_high _ _ _ _ (by omega), extractLsb'_append_low _ _ _ _ (by omega)]
  exact extractLsb'_whole _

@[simp] theorem headerWord_crate :
    (headerWord wordId version format seqno crate modNo slices2 slices1).extractLsb' 12 4 = crate := by
  unfold headerWord
  rw [extractLsb'_append_high _ _ _ _ (by omega), extractLsb'_append_high _ _ _ _ (by omega), extractLsb'_append_high _ _ _ _ (by omega), extractLsb'_append_low _ _ _ _ (by omega)]
  exact extractLsb'_whole _

@[simp] theorem headerWord_modNo :
    (headerWord wordId version format seqno crate modNo slices2 slices1).extractLsb' 8 4 = modNo := by
  unfold headerWord
  rw [extractLsb'_append_high _ _ _ _ (by omega), extractLsb'_append_high _ _ _ _ (by omega), extractLsb'_append_low _ _ _ _ (by omega)]
  exact extractLsb'_whole _

@[simp] theorem headerWord_slices2 :
    (headerWord wordId version format seqno crate modNo slices2 slices1).extractLsb' 4 4 = slices2 := by
  unfold headerWord
  rw [extractLsb'_append_high _ _ _ _ (by omega), extractLsb'_append_low _ _ _ _ (by omega)]
  exact extractLsb'_whole _

@[simp] theorem headerWord_slices1 :
    (headerWord wordId version format seqno crate modNo slices2 slices1).extractLsb' 0 4 = slices1 := by
  unfold headerWord
  rw [extractLsb'_append_low _ _ _ _ (by omega)]
  exact extractLsb'_whole _

end

section
variable (failingBCN seqno : BitVec 6) (crate modNo : BitVec 4)
  (glinkTimeout glinkDown unused upstreamError daqOverflow bcnMismatch glinkProtocol glinkParity : BitVec 1)

@[simp] theorem statusWord_status :
    (statusWord failingBCN seqno crate modNo glinkTimeout glinkDown unused upstreamError daqOverflow bcnMismatch glinkProtocol glinkParity).extractLsb' 28 4 = 0xD#4 := by
  unfold statusWord
  rw [extractLsb'_append_high _ _ _ _ (by omega), extractLsb'_append_high _ _ _ _ (by omega), extractLsb'_append_high _ _ _ _ (by omega), extractLsb'_append_high _ _ _ _ (by omega), extractLsb'_append_high _ _ _ _ (by omega), extractLsb'_append_high _ _ _ _ (by omega), extractLsb'_append_high _ _ _ _ (by omega), extractLsb'_append_high _ _ _ _ (by omega), extractLsb'_append_high _ _ _ _ (by omega), extractLsb'_append_high _ _ _ _ (by omega), extractLsb'_append_high _ _ _ _ (by omega), extractLsb'_append_high _ _ _ _ (by omega)]
  exact extractLsb'_whole _

@[simp] theorem statusWord_failingBCN :
    (statusWord failingBCN seqno crate modNo glinkTimeout glinkDown unused upstreamError daqOverflow bcnMismatch glinkProtocol glinkParity).extractLsb' 22 6 = failingBCN := by
  unfold statusWord
  rw [extractLsb'_append_high _ _ _ _ (by omega), extractLsb'_append_high _ _ _ _ (by omega), extractLsb'_append_high _ _ _ _ (by omega), extractLsb'_append_high _ _ _ _ (by omega), extractLsb'_append_high _ _ _ _ (by omega), extractLsb'_append_high _ _ _ _ (by omega), extractLsb'_append_high _ _ _ _ (by omega), extractLsb'_append_high _ _ _ _ (by omega), extractLsb'_append_high _ _ _ _ (by omega), extractLsb'_append_high _ _ _ _ (by omega), extractLsb'_append_high _ _ _ _ (by omega), extractLsb'_append_low _ _ _ _ (by omega)]
  exact extractLsb'_whole _

@[simp] theorem statusWord_seqno :
    (statusWord failingBCN seqno crate modNo glinkTimeout glinkDown unused upstreamError daqOverflow bcnMismatch glinkProtocol glinkParity).extractLsb' 16 6 = seqno := by
  unfold statusWord
  rw [extractLsb'_append_high _ _ _ _ (by omega), extractLsb'_append_high _ _ _ _ (by omega), extractLsb'_append_high _ _ _ _ (by omega), extractLsb'_append_high _ _ _ _ (by omega), extractLsb'_append_high _ _ _ _ (by omega), extractLsb'_append_high _ _ _ _ (by omega), extractLsb'_append_high _ _ _ _ (by omega), extractLsb'_append_high _ _ _ _ (by omega), extractLsb'_append_high _ _ _ _ (by omega), extractLsb'_append_high _ _ _ _ (by omega), extractLsb'_append_low _ _ _ _ (by omega)]
  exact extractLsb'_whole _

@[simp] theorem statusWord_crate :
    (statusWord failingBCN seqno crate modNo glinkTimeout glinkDown unused upstreamError daqOverflow bcnMismatch glinkProtocol glinkParity).extractLsb' 12 4 = crate := by
  unfold statusWord
  rw [extractLsb'_append_high _ _ _ _ (by omega), extractLsb'_append_high _ _ _ _ (by omega), extractLsb'_append_high _ _ _ _ (by omega), extractLsb'_append_high _ _ _ _ (by omega), extractLsb'_append_high _ _ _ _ (by omega), extractLsb'_append_high _ _ _ _ (by omega), extractLsb'_append_high _ _ _ _ (by omega), extractLsb'_append_high _ _ _ _ (by omega), extractLsb'_append_high _ _ _ _ (by omega), extractLsb'_append_low _ _ _ _ (by omega)]
  exact extractLsb'_whole _

@[simp] theorem statusWord_modNo :
    (statusWord failingBCN seqno crate modNo glinkTimeout glinkDown unused upstreamError daqOverflow bcnMismatch glinkProtocol glinkParity).extractLsb' 8 4 = modNo := by
  unfold statusWord
  rw [extractLsb'_append_high _ _ _ _ (by omega), extractLsb'_append_high _ _ _ _ (by omega), extractLsb'_append_high _ _ _ _ (by omega), extractLsb'_append_high _ _ _ _ (by omega), extractLsb'_append_high _ _ _ _ (by omega), extractLsb'_append_high _ _ _ _ (by omega), extractLsb'_append_high _ _ _ _ (by omega), extractLsb'_append_high _ _ _ _ (by omega), extractLsb'_append_low _ _ _ _ (by omega)]
  exact extractLsb'_whole _

@[simp] theorem statusWord_glinkTimeout :
    (statusWord failingBCN seqno crate modNo glinkTimeout glinkDown unused upstreamError daqOverflow bcnMismatch glinkProtocol glinkParity).extractLsb' 7 1 = glinkTimeout := by
  unfold statusWord
  rw [extractLsb'_append_high _ _ _ _ (by omega), extractLsb'_append_high _ _ _ _ (by omega), extractLsb'_append_high _ _ _ _ (by omega), extractLsb'_append_high _ _ _ _ (by omega), extractLsb'_append_high _ _ _ _ (by omega), extractLsb'_append_high _ _ _ _ (by omega), extractLsb'_append_high _ _ _ _ (by omega), extractLsb'_append_low _ _ _ _ (by omega)]
  exact extractLsb'_whole _

@[simp] theorem statusWord_glinkDown :
    (statusWord failingBCN seqno crate modNo glinkTimeout glinkDown unused upstreamError daqOverflow bcnMismatch glinkProtocol glinkParity).extractLsb' 6 1 = glinkDown := by
  unfold statusWord
  rw [extractLsb'_append_high _ _ _ _ (by omega), extractLsb'_append_high _ _ _ _ (by omega), extractLsb'_append_high _ _ _ _ (by omega), extractLsb'_append_high _ _ _ _ (by omega), extractLsb'_append_high _ _ _ _ (by omega), extractLsb'_append_high _ _ _ _ (by omega), extractLsb'_append_low _ _ _ _ (by omega)]
  exact extractLsb'_whole _

@[simp] theorem statusWord_unused :
    (statusWord failingBCN seqno crate modNo glinkTimeout glinkDown unused upstreamError daqOverflow bcnMismatch glinkProtocol glinkParity).extractLsb' 5 1 = unused := by
  unfold statusWord
  rw [extractLsb'_append_high _ _ _ _ (by omega), extractLsb'_append_high _ _ _ _ (by omega), extractLsb'_append_high _ _ _ _ (by omega), extractLsb'_append_high _ _ _ _ (by omega), extractLsb'_append_high _ _ _ _ (by omega), extractLsb'_append_low _ _ _ _ (by omega)]
  exact extractLsb'_whole _

@[simp] theorem statusWord_upstreamError :
    (statusWord failingBCN seqno crate modNo glinkTimeout glinkDown unused upstreamError daqOverflow bcnMismatch glinkProtocol glinkParity).extractLsb' 4 1 = upstreamError := by
  unfold statusWord
  rw [extractLsb'_append_high _ _ _ _ (by omega), extractLsb'_append_high _ _ _ _ (by omega), extractLsb'_append_high _ _ _ _ (by omega), extractLsb'_append_high _ _ _ _ (by omega), extractLsb'_append_low _ _ _ _ (by omega)]
  exact extractLsb'_whole _

@[simp] theorem statusWord_daqOverflow :
    (statusWord failingBCN seqno crate modNo glinkTimeout glinkDown unused upstreamError daqOverflow bcnMismatch glinkProtocol glinkParity).extractLsb' 3 1 = daqOverflow := by
  unfold statusWord
  rw [extractLsb'_append_high _ _ _ _ (by omega), extractLsb'_append_high _ _ _ _ (by omega), extractLsb'_append_high _ _ _ _ (by omega), extractLsb'_append_low _ _ _ _ (by omega)]
  exact extractLsb'_whole _

@[simp] theorem statusWord_bcnMismatch :
    (statusWord failingBCN seqno crate modNo glinkTimeout glinkDown unused upstreamError daqOverflow bcnMismatch glinkProtocol glinkParity).extractLsb' 2 1 = bcnMismatch := by
  unfold statusWord
  rw [extractLsb'_append_high _ _ _ _ (by omega), extractLsb'_append_high _ _ _ _ (by omega), extractLsb'_append_low _ _ _ _ (by omega)]
  exact extractLsb'_whole _

@[simp] theorem statusWord_glinkProtocol :
    (statusWord failingBCN seqno crate modNo glinkTimeout glinkDown unused upstreamError daqOverflow bcnMismatch glinkProtocol glinkParity).extractLsb' 1 1 = glinkProtocol := by
  unfold statusWord
  rw [extractLsb'_append_high _ _ _ _ (by omega), extractLsb'_append_low _ _ _ _ (by omega)]
  exact extractLsb'_whole _

@[simp] theorem statusWord_glinkParity :
    (statusWord failingBCN seqno crate modNo glinkTimeout glinkDown unused upstreamError daqOverflow bcnMismatch glinkProtocol glinkParity).extractLsb' 0 1 = glinkParity := by
  unfold statusWord
  rw [extractLsb'_append_low _ _ _ _ (by omega)]
  exact extractLsb'_whole _

end

@[simp] theorem dataWord_top (top : BitVec 2) (data : BitVec 30) : (dataWord top data).extractLsb' 30 2 = top := by
  unfold dataWord
  rw [extractLsb'_append_high _ _ _ _ (by omega)]
  exact extractLsb'_whole _

@[simp] theorem dataWord_data (top : BitVec 2) (data : BitVec 30) : (dataWord top data).extractLsb' 0 30 = data := by
  unfold dataWord
  rw [extractLsb'_append_low _ _ _ _ (by omega)]
  exact extractLsb'_whole _

/-- The two halves of the top nibble (30_encoding.md R100). -/
theorem extractLsb'_nibble (w : Word) : w.extractLsb' 30 2 ++ w.extractLsb' 28 2 = w.extractLsb' 28 4 :=
  extractLsb'_append_adjacent w 28 2 2

/-- A data word is its two parts. -/
theorem dataWord_fields (w : Word) : dataWord (w.extractLsb' 30 2) (w.extractLsb' 0 30) = w :=
  (extractLsb'_append_adjacent w 0 2 30).trans (extractLsb'_whole w)

/-- The eight fields tile the header word (42_header_trailer.md R210). -/
theorem headerWord_fields (w : Word) :
    headerWord (w.extractLsb' 28 4) (w.extractLsb' 25 3) (w.extractLsb' 22 3) (w.extractLsb' 16 6) (w.extractLsb' 12 4)
      (w.extractLsb' 8 4) (w.extractLsb' 4 4) (w.extractLsb' 0 4) = w := by
  unfold headerWord
  rw [extractLsb'_append_adjacent w 25 4 3, extractLsb'_append_adjacent w 22 7 3, extractLsb'_append_adjacent w 16 10 6,
    extractLsb'_append_adjacent w 12 16 4, extractLsb'_append_adjacent w 8 20 4, extractLsb'_append_adjacent w 4 24 4,
    extractLsb'_append_adjacent w 0 28 4]
  exact extractLsb'_whole w

/-- The fields of a status word tile it (30_encoding.md R108). -/
theorem statusWord_fields (w : Word) (h : w.extractLsb' 28 4 = 0xD#4) :
    statusWord (w.extractLsb' 22 6) (w.extractLsb' 16 6) (w.extractLsb' 12 4) (w.extractLsb' 8 4) (w.extractLsb' 7 1)
      (w.extractLsb' 6 1) (w.extractLsb' 5 1) (w.extractLsb' 4 1) (w.extractLsb' 3 1) (w.extractLsb' 2 1)
      (w.extractLsb' 1 1) (w.extractLsb' 0 1) = w := by
  unfold statusWord
  rw [← h, extractLsb'_append_adjacent w 22 4 6, extractLsb'_append_adjacent w 16 10 6, extractLsb'_append_adjacent w 12 16 4,
    extractLsb'_append_adjacent w 8 20 4, extractLsb'_append_adjacent w 7 24 1, extractLsb'_append_adjacent w 6 25 1,
    extractLsb'_append_adjacent w 5 26 1, extractLsb'_append_adjacent w 4 27 1, extractLsb'_append_adjacent w 3 28 1,
    extractLsb'_append_adjacent w 2 29 1, extractLsb'_append_adjacent w 1 30 1, extractLsb'_append_adjacent w 0 31 1]
  exact extractLsb'_whole w

end Sys2Proof
end

