-- ==== Sys2Proof/Laws/Memory.lean ====
section
/-! SUPPORT. The field store: a read after a write, the canonical form, and keys. -/

namespace Sys2Proof.Machine

open Sys2Proof

theorem Memory.read_of_keys_above {m : Memory} {a : Nat} (h : ∀ x ∈ m, a < x.1) : m.read a = 0 := by
  induction m with
  | nil => rfl
  | cons x m ih =>
    have hx := h x (by simp)
    simp only [Memory.read]
    rw [if_neg (by omega)]
    exact ih fun y hy => h y (by simp [hy])

/-- Reading the key just written gives the value written, in a store in canonical form. -/
theorem Memory.read_write_same {m : Memory} (hm : m.Pairwise (fun x y => x.1 < y.1)) (a : Nat) (v : Word) :
    (m.write a v).read a = v := by
  induction m with
  | nil => by_cases hv : v = 0#32 <;> simp [Memory.write, Memory.read, hv]
  | cons x m ih =>
    obtain ⟨k, y⟩ := x
    have hk : ∀ z ∈ m, k < z.1 := fun z hz => (List.pairwise_cons.1 hm).1 z hz
    simp only [Memory.write]
    split
    · rename_i hlt
      by_cases hv : v = 0#32
      · simp only [hv, if_true, Memory.read]
        rw [if_neg (by omega)]
        exact Memory.read_of_keys_above fun z hz => by have := hk z hz; omega
      · simp [hv, Memory.read]
    · split
      · rename_i heq
        subst heq
        by_cases hv : v = 0#32
        · simp only [hv, if_true]
          exact Memory.read_of_keys_above hk
        · simp [hv, Memory.read]
      · rename_i h1 h2
        simp only [Memory.read]
        rw [if_neg h2]
        exact ih (List.pairwise_cons.1 hm).2

/-- Every other key reads as before. -/
theorem Memory.read_write_other (m : Memory) {a b : Nat} (v : Word) (hab : b ≠ a) : (m.write a v).read b = m.read b := by
  induction m with
  | nil => by_cases hv : v = 0#32 <;> simp [Memory.write, Memory.read, hv, hab]
  | cons x m ih =>
    obtain ⟨k, y⟩ := x
    simp only [Memory.write]
    split
    · by_cases hv : v = 0#32 <;> simp [hv, Memory.read, hab]
    · split
      · rename_i h1 heq
        subst heq
        by_cases hv : v = 0#32 <;> simp [hv, Memory.read, hab]
      · simp only [Memory.read]
        split
        · rfl
        · exact ih

theorem Memory.mem_write {m : Memory} {a : Nat} {v : Word} {z : Nat × Word} (hz : z ∈ m.write a v) :
    z ∈ m ∨ (z = (a, v) ∧ v ≠ 0#32) := by
  induction m with
  | nil =>
    by_cases hv : v = 0#32 <;> simp [Memory.write, hv] at hz
    exact .inr ⟨hz, hv⟩
  | cons x m ih =>
    obtain ⟨k, y⟩ := x
    simp only [Memory.write] at hz
    split at hz
    · split at hz
      · exact .inl hz
      · rcases List.mem_cons.1 hz with h | h
        · exact .inr ⟨h, ‹_›⟩
        · exact .inl h
    · split at hz
      · split at hz
        · exact .inl (List.mem_cons_of_mem _ hz)
        · rcases List.mem_cons.1 hz with h | h
          · exact .inr ⟨h, ‹_›⟩
          · exact .inl (List.mem_cons_of_mem _ h)
      · rcases List.mem_cons.1 hz with h | h
        · exact .inl (by simp [h])
        · rcases ih h with h' | h'
          · exact .inl (List.mem_cons_of_mem _ h')
          · exact .inr h'

/-- A write under a key of the store's 24-bit space keeps the canonical form. -/
theorem Memory.wf_write {m : Memory} (hm : m.wf) {a : Nat} (ha : a < 2 ^ 24) (v : Word) : (m.write a v).wf := by
  refine ⟨?_, ?_, ?_⟩
  · have hp := hm.1
    clear hm
    induction m with
    | nil => by_cases hv : v = 0#32 <;> simp [Memory.write, hv]
    | cons x m ih =>
      obtain ⟨k, y⟩ := x
      obtain ⟨hk, hp'⟩ := List.pairwise_cons.1 hp
      simp only [Memory.write]
      split
      · rename_i hlt
        by_cases hv : v = 0#32
        · simpa [hv] using hp
        · simp only [hv, if_false, List.pairwise_cons]
          refine ⟨fun z hz => ?_, hk, hp'⟩
          rcases List.mem_cons.1 hz with h | h
          · simpa [h] using hlt
          · exact lt_trans hlt (hk z h)
      · split
        · rename_i h1 heq
          subst heq
          by_cases hv : v = 0#32
          · simpa [hv] using hp'
          · simpa [hv, List.pairwise_cons] using And.intro hk hp'
        · rename_i h1 h2
          rw [List.pairwise_cons]
          refine ⟨fun z hz => ?_, ih hp'⟩
          rcases Memory.mem_write hz with h | h
          · exact hk z h
          · rw [h.1]; simp only; omega
  · intro z hz
    rcases Memory.mem_write hz with h | h
    · exact hm.2.1 z h
    · rw [h.1]; exact ha
  · intro z hz
    rcases Memory.mem_write hz with h | h
    · exact hm.2.2 z h
    · rw [h.1]; exact h.2

theorem fieldKey_lt (fid slice index : Slot) : fieldKey fid slice index < 2 ^ 24 := by
  have := fid.isLt; have := slice.isLt; have := index.isLt
  simp only [fieldKey]; omega

/-- Different keys have different addresses. -/
theorem fieldKey_inj {f s i f' s' i' : Slot} (h : fieldKey f s i = fieldKey f' s' i') : f = f' ∧ s = s' ∧ i = i' := by
  have := s.isLt; have := i.isLt; have := s'.isLt; have := i'.isLt
  simp only [fieldKey] at h
  refine ⟨BitVec.eq_of_toNat_eq ?_, BitVec.eq_of_toNat_eq ?_, BitVec.eq_of_toNat_eq ?_⟩ <;> omega

theorem State.field_setField_same {s : State} (h : s.fields.wf) (fid slice index : Slot) (v : Word) :
    (s.setField fid slice index v).field fid slice index = v :=
  Memory.read_write_same h.1 _ _

theorem State.field_setField_other (s : State) {fid slice index fid' slice' index' : Slot} (v : Word)
    (h : (fid', slice', index') ≠ (fid, slice, index)) :
    (s.setField fid slice index v).field fid' slice' index' = s.field fid' slice' index' := by
  refine Memory.read_write_other _ _ fun e => h ?_
  obtain ⟨h1, h2, h3⟩ := fieldKey_inj e
  simp [h1, h2, h3]

theorem State.setField_wf {s : State} (h : s.fields.wf) (fid slice index : Slot) (v : Word) :
    (s.setField fid slice index v).fields.wf :=
  Memory.wf_write h (fieldKey_lt ..) v

theorem reset_fields_wf : State.reset.fields.wf := by decide

end Sys2Proof.Machine
end

