-- ==== Sys2Proof/Laws/Ops.lean ====
section
/-! SUPPORT. One lemma per shared operation and per command body that says everything it can do: when it succeeds and with
which state, and when it is refused and with which code. Proofs cite these and do not unfold the bodies. -/

namespace Sys2Proof.Machine

open Sys2Proof

/-! ## How a command ends -/

theorem guard_ok_iff {α : Type} {p : Prop} [Decidable p] {e : Status} {a b : α} :
    (if p then Except.error e else Except.ok a : Except Status α) = .ok b ↔ ¬ p ∧ b = a := by
  by_cases h : p
  · simp [h]
  · rw [if_neg h]; exact ⟨fun x => ⟨h, (Except.ok.inj x).symm⟩, fun x => x.2 ▸ rfl⟩

theorem guard_error_iff {α : Type} {p : Prop} [Decidable p] {e c : Status} {a : α} :
    (if p then Except.error e else Except.ok a : Except Status α) = .error c ↔ p ∧ c = e := by
  by_cases h : p
  · rw [if_pos h]; exact ⟨fun x => ⟨h, (Except.error.inj x).symm⟩, fun x => x.2 ▸ rfl⟩
  · simp [h]

@[simp] theorem finish_ok (s t : State) (r : Word) : finish s (.ok (t, r)) = .next (t.answer .ok r) := rfl
@[simp] theorem finish_error (s : State) (c : Status) : finish s (.error c) = .next (s.refuse c) := rfl
@[simp] theorem noResult_ok (t : State) : noResult (.ok t) = .ok (t, 0) := rfl
@[simp] theorem noResult_error (c : Status) : noResult (.error c) = .error c := rfl

/-- A command ends in one of two ways. -/
theorem finish_next_iff {s t : State} {x : Except Status (State × Word)} :
    finish s x = .next t ↔ (∃ u r, x = .ok (u, r) ∧ t = u.answer .ok r) ∨ ∃ c, x = .error c ∧ t = s.refuse c := by
  rcases x with c | ⟨u, r⟩ <;> simp [eq_comm]

theorem complete_next_iff {s t : State} {r : Word} : complete s r = .next t ↔ t = s.answer .ok r := by
  unfold complete
  exact ⟨fun h => (Host.Outcome.next.inj h).symm, fun h => h ▸ rfl⟩

theorem noResult_ok_iff {x : Except Status State} {t : State} {r : Word} : noResult x = .ok (t, r) ↔ x = .ok t ∧ r = 0 := by
  cases x with
  | error c => simp
  | ok u => exact ⟨fun h => by cases h; exact ⟨rfl, rfl⟩, fun h => by rw [h.1, h.2]; rfl⟩

theorem noResult_error_iff {x : Except Status State} {c : Status} : noResult x = .error c ↔ x = .error c := by
  cases x <;> simp [noResult]

/-! ## Appending a word -/

theorem memAppend_ok_iff {s t : State} {w : Word} :
    memAppend s w = .ok t ↔ fits s.cfg (s.payload.length + 1) = true ∧ t = { s with payload := s.payload ++ [w] } := by
  unfold memAppend
  split
  · rename_i h; exact ⟨fun x => ⟨h, (Except.ok.inj x).symm⟩, fun x => x.2 ▸ rfl⟩
  · rename_i h; exact ⟨nofun, fun x => absurd x.1 h⟩

theorem memAppend_error_iff {s : State} {w : Word} {c : Status} :
    memAppend s w = .error c ↔ fits s.cfg (s.payload.length + 1) = false ∧ c = .full := by
  unfold memAppend
  split
  · rename_i h; exact ⟨nofun, fun x => absurd h (by simp [x.1])⟩
  · rename_i h; exact ⟨fun x => ⟨by simpa using h, (Except.error.inj x).symm⟩, fun x => x.2 ▸ rfl⟩

/-! ## Control -/

theorem setStreamedBody_ok_iff {s t : State} :
    setStreamedBody s = .ok t ↔ s.pmode = .none ∧ t = { s with streamed := true } := by
  rw [setStreamedBody, guard_ok_iff]; simp

theorem setStreamedBody_error_iff {s : State} {c : Status} :
    setStreamedBody s = .error c ↔ s.pmode ≠ .none ∧ c = .badState := by
  rw [setStreamedBody, guard_error_iff]; simp

theorem unpackInitBody_ok_iff {s t : State} :
    unpackInitBody s = .ok t ↔ s.wcur = 0 ∧
      t = { s.resetLanes with rpos := 0, rbit := 0, ok := true, pass := .unpack, pmode := .none } := by
  rw [unpackInitBody, guard_ok_iff]; simp

theorem unpackInitBody_error_iff {s : State} {c : Status} : unpackInitBody s = .error c ↔ s.wcur ≠ 0 ∧ c = .badState := by
  rw [unpackInitBody, guard_error_iff]; simp

/-! ## The serial packer -/

theorem maySerialPack_iff {s : State} : maySerialPack s = true ↔ s.pass = .pack ∧ s.pmode ≠ .neutral := by
  simp [maySerialPack]
theorem maySerialUnpack_iff {s : State} : maySerialUnpack s = true ↔ s.pass = .unpack ∧ s.pmode ≠ .neutral := by
  simp [maySerialUnpack]
theorem mayNeutralPack_iff {s : State} : mayNeutralPack s = true ↔ s.pass = .pack ∧ s.pmode ≠ .serial := by
  simp [mayNeutralPack]
theorem mayNeutralUnpack_iff {s : State} : mayNeutralUnpack s = true ↔ s.pass = .unpack ∧ s.pmode ≠ .serial := by
  simp [mayNeutralUnpack]

/-- Below `maxbits` the bits of a completed word are the accumulator's; the marker is bit 31 (40_bitstream.md R134). -/
theorem getLsbD_emittedWord (s : State) (a : Word) {k : Nat} (hk : k < maxbits s.streamed) :
    (emittedWord s a).getLsbD k = a.getLsbD k := by
  have hm := maxbits_le s.streamed
  have hk' : k < 31 ∨ s.streamed = false := by
    cases hs : s.streamed
    · exact .inr rfl
    · rw [hs] at hk; exact .inl hk
  have hb : k < 31 → (0x80000000 : Word).getLsbD k = false := by
    have : ∀ j < 31, (0x80000000 : Word).getLsbD j = false := by decide
    exact this k
  have ha : (a &&& maxmask s.streamed).getLsbD k = a.getLsbD k := by
    rw [maxmask_eq_mask, getLsbD_and_mask _ hm]; simp [hk]
  unfold emittedWord
  dsimp only
  split
  · rename_i h
    rw [BitVec.getLsbD_or, ha, hb (hk'.resolve_right (by simp_all)), Bool.or_false]
  · exact ha

/-- PACK within the word (40_bitstream.md R134). -/
theorem packStep_within {s : State} (value : Word) {nbits : Nat} (h : s.wcur + nbits < maxbits s.streamed) :
    packStep value nbits s =
      .ok { s with acc := s.acc ||| ((value &&& mask nbits) <<< s.wcur), wcur := s.wcur + nbits, pmode := .serial } := by
  simp [packStep, Nat.not_le.mpr h]

/-- PACK over a word's end, with room (40_bitstream.md R134). -/
theorem packStep_over {s : State} (value : Word) {nbits : Nat} (h : maxbits s.streamed ≤ s.wcur + nbits)
    (hf : fits s.cfg (s.payload.length + 1) = true) :
    packStep value nbits s =
      .ok { s with payload := s.payload ++ [emittedWord s (s.acc ||| ((value &&& mask nbits) <<< s.wcur))],
                   acc := (value &&& mask nbits) >>> (nbits - (s.wcur + nbits - maxbits s.streamed)),
                   wcur := s.wcur + nbits - maxbits s.streamed, pmode := .serial } := by
  simp [packStep, h, memAppend, hf]

/-- PACK over a word's end, without room (20_memory.md R62). -/
theorem packStep_full {s : State} (value : Word) {nbits : Nat} (h : maxbits s.streamed ≤ s.wcur + nbits)
    (hf : fits s.cfg (s.payload.length + 1) = false) : packStep value nbits s = .error .full := by
  simp [packStep, h, memAppend, hf]

theorem packBody_ok {s t : State} {value : Word} {nbits : Nat} (h : packBody value nbits s = .ok t) :
    nbits ≤ maxbits s.streamed ∧ s.pass = .pack ∧ s.pmode ≠ .neutral ∧ packStep value nbits s = .ok t := by
  unfold packBody at h
  split at h
  · cases h
  · split at h
    · cases h
    · rename_i h1 h2
      simp only [Bool.not_eq_true, Bool.not_eq_false', maySerialPack_iff] at h2
      refine ⟨?_, h2.1, h2.2, h⟩
      simpa [serialWidthOk] using h1

theorem packBody_eq {s : State} (value : Word) {nbits : Nat} (h1 : nbits ≤ maxbits s.streamed) (h2 : s.pass = .pack)
    (h3 : s.pmode ≠ .neutral) : packBody value nbits s = packStep value nbits s := by
  simp [packBody, serialWidthOk, h1, maySerialPack, h2, h3]

/-- What an accepted PACK may change. -/
theorem packStep_frame {s t : State} {value : Word} {nbits : Nat} (h : packStep value nbits s = .ok t) :
    t = { s with payload := t.payload, acc := t.acc, wcur := t.wcur, pmode := .serial } ∧
      (t.payload = s.payload ∧ s.wcur + nbits < maxbits s.streamed ∨
        maxbits s.streamed ≤ s.wcur + nbits ∧ fits s.cfg (s.payload.length + 1) = true ∧
          t.payload = s.payload ++ [emittedWord s (s.acc ||| ((value &&& mask nbits) <<< s.wcur))]) := by
  by_cases hc : s.wcur + nbits < maxbits s.streamed
  · rw [packStep_within value hc] at h
    cases h; exact ⟨rfl, .inl ⟨rfl, hc⟩⟩
  · have hc := Nat.le_of_not_lt hc
    cases hf : fits s.cfg (s.payload.length + 1) with
    | false => rw [packStep_full value hc hf] at h; cases h
    | true =>
      rw [packStep_over value hc hf] at h
      cases h; exact ⟨rfl, .inr ⟨hc, rfl, rfl⟩⟩

/-- PACK_FLUSH when it is accepted (40_bitstream.md R136). -/
theorem packFlushBody_ok {s t : State} (h : packFlushBody s = .ok t) :
    s.pass = .pack ∧ s.pmode ≠ .neutral ∧
      (s.wcur = 0 ∧ t = { s with pmode := .serial } ∨
        0 < s.wcur ∧ fits s.cfg (s.payload.length + 1) = true ∧
          t = { s with payload := s.payload ++ [emittedWord s s.acc], acc := 0, wcur := 0, pmode := .serial }) := by
  unfold packFlushBody at h
  split at h
  · cases h
  · rename_i h1
    simp only [Bool.not_eq_true, Bool.not_eq_false', maySerialPack_iff] at h1
    refine ⟨h1.1, h1.2, ?_⟩
    split at h
    · rename_i h2
      cases hm : memAppend s (emittedWord s s.acc) with
      | error c => rw [hm] at h; cases h
      | ok u =>
        rw [hm] at h
        obtain ⟨hf, rfl⟩ := memAppend_ok_iff.mp hm
        cases h; exact .inr ⟨h2, hf, rfl⟩
    · cases h; exact .inl ⟨by omega, rfl⟩

/-! ## The serial unpacker -/

/-- UNPACK inside the current word (40_bitstream.md R142). -/
theorem unpackDraw_within {s : State} {nbits : Nat} (h : s.rbit + nbits ≤ maxbits s.streamed) :
    unpackDraw nbits s =
      (if s.rbit + nbits = maxbits s.streamed then { s with rpos := s.rpos + 1, rbit := 0 } else { s with rbit := s.rbit + nbits },
        (memRead s.payload s.rpos >>> s.rbit) &&& mask nbits) := by
  have hn : min nbits (maxbits s.streamed - s.rbit) = nbits := by omega
  unfold unpackDraw
  simp only [hn, if_true]
  split <;> rfl

/-- UNPACK over the end of the current word (40_bitstream.md R142). -/
theorem unpackDraw_over {s : State} {nbits : Nat} (h : maxbits s.streamed < s.rbit + nbits) (hr : s.rbit ≤ maxbits s.streamed) :
    unpackDraw nbits s =
      ({ s with rpos := s.rpos + 1, rbit := nbits - (maxbits s.streamed - s.rbit) },
        ((memRead s.payload s.rpos >>> s.rbit) &&& mask (maxbits s.streamed - s.rbit)) |||
          ((memRead s.payload (s.rpos + 1) &&& mask (nbits - (maxbits s.streamed - s.rbit))) <<< (maxbits s.streamed - s.rbit))) := by
  have hn : min nbits (maxbits s.streamed - s.rbit) = maxbits s.streamed - s.rbit := by omega
  have hne : ¬ maxbits s.streamed - s.rbit = nbits := by omega
  simp only [unpackDraw, hn, hne, if_false]

/-- The four ways an accepted UNPACK goes. -/
theorem unpackBody_ok {s t : State} {nbits : Nat} {r : Word} (h : unpackBody nbits s = .ok (t, r)) :
    nbits ≤ maxbits s.streamed ∧ s.pass = .unpack ∧ s.pmode ≠ .neutral ∧
      (nbits = 0 ∧ t = { s with pmode := .serial } ∧ r = 0 ∨
        0 < nbits ∧ availableBits s < nbits ∧ (t, r) = unpackTruncated { s with pmode := .serial } ∨
        0 < nbits ∧ nbits ≤ availableBits s ∧ (t, r) = unpackDraw nbits { s with pmode := .serial }) := by
  unfold unpackBody at h
  split at h
  · cases h
  · split at h
    · cases h
    · rename_i h1 h2
      simp only [Bool.not_eq_true, Bool.not_eq_false', maySerialUnpack_iff] at h2
      refine ⟨by simpa [serialWidthOk] using h1, h2.1, h2.2, ?_⟩
      dsimp only at h
      split at h
      · cases h; exact .inl ⟨by assumption, rfl, rfl⟩
      · split at h
        · rename_i h4 h5
          exact .inr (.inl ⟨by omega, h5, (Except.ok.inj h).symm⟩)
        · rename_i h4 h5
          exact .inr (.inr ⟨by omega, Nat.le_of_not_lt h5, (Except.ok.inj h).symm⟩)

/-- What an accepted UNPACK may change. -/
theorem unpackBody_frame {s t : State} {nbits : Nat} {r : Word} (h : unpackBody nbits s = .ok (t, r)) :
    t = { s with rpos := t.rpos, rbit := t.rbit, ok := t.ok, pmode := .serial, free := t.free } := by
  obtain ⟨_, _, _, ⟨_, rfl, _⟩ | ⟨_, _, h⟩ | ⟨_, _, h⟩⟩ := unpackBody_ok h
  · rfl
  · cases h; rfl
  · unfold unpackDraw at h
    dsimp only at h
    split at h
    · split at h <;> (cases h; rfl)
    · cases h; rfl

/-! ## The neutral lanes -/

@[simp] theorem length_growTo (fill : Word) (need : Nat) (payload : List Word) :
    (growTo fill need payload).length = max payload.length need := by
  simp [growTo]; omega

/-- Old rows stay and new rows hold `NEUTRAL_FILL` (41_neutral.md R173). -/
theorem memRead_growTo (fill : Word) {need row : Nat} (payload : List Word) (h : row < max payload.length need) :
    memRead (growTo fill need payload) row = if row < payload.length then memRead payload row else fill := by
  unfold memRead growTo
  split
  · rename_i h1
    simp [List.getD_eq_getElem?_getD, List.getElem?_append_left h1]
  · rename_i h1
    have h1 := Nat.le_of_not_lt h1
    rw [List.getD_eq_getElem?_getD, List.getElem?_append_right h1, List.getElem?_replicate, if_pos (by omega)]
    rfl

@[simp] theorem length_memWrite (payload : List Word) (i : Nat) (w : Word) : (memWrite payload i w).length = payload.length := by
  simp [memWrite]

/-- A read after a write. -/
theorem memRead_memWrite (payload : List Word) (i j : Nat) (w : Word) :
    memRead (memWrite payload i w) j = if i = j ∧ i < payload.length then w else memRead payload j := by
  unfold memRead memWrite
  by_cases h : i = j
  · subst h
    by_cases hi : i < payload.length
    · simp [hi]
    · simp [hi]
  · simp [h, List.getD_eq_getElem?_getD, List.getElem?_set_ne h]

@[simp] theorem length_putBits (pin row : Nat) (value : Word) (n : Nat) (payload : List Word) :
    (putBits pin row value n payload).length = payload.length := by
  induction n with
  | zero => rfl
  | succ n ih => simp [putBits, ih]

/-- Every bit of the payload after `n` bits of a value went down a column (41_neutral.md R172). -/
theorem getLsbD_putBits {pin row : Nat} (value : Word) {n : Nat} {payload : List Word} (hp : pin < 32)
    (hn : row + n ≤ payload.length) (r col : Nat) :
    (memRead (putBits pin row value n payload) r).getLsbD col =
      if col = pin ∧ row ≤ r ∧ r < row + n then value.getLsbD (r - row) else (memRead payload r).getLsbD col := by
  induction n with
  | zero => rw [if_neg (by omega)]; rfl
  | succ n ih =>
    have ih := ih (by omega)
    simp only [putBits]
    rw [memRead_memWrite]
    by_cases hr : row + n = r
    · subst hr
      rw [if_pos ⟨rfl, by rw [length_putBits]; omega⟩, getLsbD_setbit]
      by_cases hc : col = pin
      · rw [if_pos ⟨hc, hp⟩, if_pos ⟨hc, by omega, by omega⟩, Nat.add_sub_cancel_left]
      · rw [if_neg (fun h => hc h.1), if_neg (fun h => hc h.1), ih, if_neg (fun h => hc h.1)]
    · rw [if_neg (fun h => hr h.1), ih]
      by_cases hc : col = pin ∧ row ≤ r ∧ r < row + n
      · rw [if_pos hc, if_pos ⟨hc.1, hc.2.1, by omega⟩]
      · rw [if_neg hc, if_neg (fun h => hc ⟨h.1, h.2.1, by omega⟩)]

/-- The bits UNPACK_NEUTRAL gathers (41_neutral.md R175). -/
theorem getLsbD_getBits (payload : List Word) (pin row : Nat) {n : Nat} (hn : n ≤ 32) (k : Nat) :
    (getBits payload pin row n).getLsbD k = (decide (k < n) && (memRead payload (row + k)).getLsbD pin) := by
  induction n with
  | zero => simp [getBits]
  | succ n ih =>
    rw [getBits, BitVec.getLsbD_or, ih (by omega), BitVec.getLsbD_shiftLeft, getLsbD_boolWord]
    by_cases h : k < n
    · simp [h, show k < n + 1 by omega]
    · by_cases h2 : k = n
      · subst h2; simp [show k < 32 by omega]
      · simp [h, show ¬ k < n + 1 by omega, show ¬ k - n = 0 by omega]

theorem getBits_lt (payload : List Word) (pin row : Nat) {n : Nat} (hn : n ≤ 32) : (getBits payload pin row n).toNat < 2 ^ n := by
  apply Nat.lt_pow_two_of_testBit
  intro i hi
  have := getLsbD_getBits payload pin row hn i
  rw [BitVec.getLsbD] at this
  rw [this]; simp; omega

/-- The running parity is the exclusive or of the bits folded in (41_neutral.md R178). -/
theorem foldParityBits_eq (par : Bool) (value : Word) (n : Nat) :
    foldParityBits par value n = (par ^^ foldParityBits false value n) := by
  induction n with
  | zero => simp [foldParityBits]
  | succ n ih => simp only [foldParityBits, foldParity]; rw [ih, Bool.xor_assoc]

/-- PACK_NEUTRAL when it is accepted (41_neutral.md R172). -/
theorem packNeutralBody_ok {pin nbits : Nat} {value : Word} {s t : State} (h : packNeutralBody pin value nbits s = .ok t) :
    pin < maxPins s.cfg ∧ nbits ≤ 32 ∧ s.pass = .pack ∧ s.pmode ≠ .serial ∧ fits s.cfg (s.cursor pin + nbits) = true ∧
      t = { s with payload := putBits pin (s.cursor pin) value nbits (growTo s.cfg.neutralFill (s.cursor pin + nbits) s.payload),
                   par := s.par.setIfInBounds pin (foldParityBits (s.parity pin) value nbits),
                   pincur := s.pincur.setIfInBounds pin (s.cursor pin + nbits), pmode := .neutral } := by
  unfold packNeutralBody at h
  split at h
  · cases h
  · split at h
    · cases h
    · dsimp only at h
      split at h
      · cases h
      · rename_i h1 h2 h3
        simp only [Bool.not_eq_true, Bool.not_eq_false', mayNeutralPack_iff] at h2
        simp only [pinOk, neutralWidthOk, Bool.not_eq_true, Bool.not_eq_false', Bool.and_eq_true, decide_eq_true_eq] at h1
        cases h
        exact ⟨h1.1, h1.2, h2.1, h2.2, by simpa using h3, rfl⟩

/-- PACK_NEUTRAL_PARITY when it is accepted (41_neutral.md R174). -/
theorem packNeutralParityBody_ok {pin : Nat} {s t : State} (h : packNeutralParityBody pin s = .ok t) :
    pin < maxPins s.cfg ∧ s.pass = .pack ∧ s.pmode ≠ .serial ∧ fits s.cfg (s.cursor pin + 1) = true ∧
      t = { s with payload := putBits pin (s.cursor pin) (boolWord (s.parity pin)) 1
                     (growTo s.cfg.neutralFill (s.cursor pin + 1) s.payload),
                   par := s.par.setIfInBounds pin true, pincur := s.pincur.setIfInBounds pin (s.cursor pin + 1),
                   pmode := .neutral } := by
  unfold packNeutralParityBody at h
  split at h
  · cases h
  · split at h
    · cases h
    · dsimp only at h
      split at h
      · cases h
      · rename_i h1 h2 h3
        simp only [Bool.not_eq_true, Bool.not_eq_false', mayNeutralPack_iff] at h2
        simp only [pinOk, Bool.not_eq_true, Bool.not_eq_false', decide_eq_true_eq] at h1
        cases h
        exact ⟨h1, h2.1, h2.2, by simpa using h3, rfl⟩

/-- UNPACK_NEUTRAL when it is accepted (41_neutral.md R175, R176). -/
theorem unpackNeutralBody_ok {pin nbits : Nat} {s t : State} {r : Word} (h : unpackNeutralBody pin nbits s = .ok (t, r)) :
    pin < maxPins s.cfg ∧ nbits ≤ 32 ∧ s.pass = .unpack ∧ s.pmode ≠ .serial ∧
      (nbits = 0 ∧ t = { s with pmode := .neutral } ∧ r = 0 ∨
        0 < nbits ∧ s.payload.length < s.cursor pin + nbits ∧ r = Config.freeWord s.free ∧
          t = { s with ok := false, pmode := .neutral, free := s.free + 1 } ∨
        0 < nbits ∧ s.cursor pin + nbits ≤ s.payload.length ∧ r = getBits s.payload pin (s.cursor pin) nbits ∧
          t = { s with par := s.par.setIfInBounds pin (foldParityBits (s.parity pin) r nbits),
                       pincur := s.pincur.setIfInBounds pin (s.cursor pin + nbits), pmode := .neutral }) := by
  unfold unpackNeutralBody at h
  split at h
  · cases h
  · split at h
    · cases h
    · rename_i h1 h2
      simp only [Bool.not_eq_true, Bool.not_eq_false', mayNeutralUnpack_iff] at h2
      simp only [pinOk, neutralWidthOk, Bool.not_eq_true, Bool.not_eq_false', Bool.and_eq_true, decide_eq_true_eq] at h1
      refine ⟨h1.1, h1.2, h2.1, h2.2, ?_⟩
      dsimp only at h
      split at h
      · cases h; exact .inl ⟨by assumption, rfl, rfl⟩
      · split at h
        · rename_i h4 h5
          cases h; exact .inr (.inl ⟨by omega, h5, rfl, rfl⟩)
        · rename_i h4 h5
          cases h; exact .inr (.inr ⟨by omega, by omega, rfl, rfl⟩)

/-- UNPACK_NEUTRAL_PARITY_ERROR when it is accepted (41_neutral.md R177). -/
theorem unpackNeutralParityErrorBody_ok {pin : Nat} {s t : State} {r : Word}
    (h : unpackNeutralParityErrorBody pin s = .ok (t, r)) :
    pin < maxPins s.cfg ∧ s.pass = .unpack ∧ s.pmode ≠ .serial ∧
      (s.payload.length ≤ s.cursor pin ∧ r = boolWord (Config.freeBit s.free) ∧
          t = { s with ok := false, par := s.par.setIfInBounds pin true, pmode := .neutral, free := s.free + 1 } ∨
        s.cursor pin < s.payload.length ∧ r = boolWord ((memRead s.payload (s.cursor pin)).getLsbD pin != s.parity pin) ∧
          t = { s with par := s.par.setIfInBounds pin true, pincur := s.pincur.setIfInBounds pin (s.cursor pin + 1),
                       pmode := .neutral }) := by
  unfold unpackNeutralParityErrorBody at h
  split at h
  · cases h
  · split at h
    · cases h
    · rename_i h1 h2
      simp only [Bool.not_eq_true, Bool.not_eq_false', mayNeutralUnpack_iff] at h2
      simp only [pinOk, Bool.not_eq_true, Bool.not_eq_false', decide_eq_true_eq] at h1
      refine ⟨h1, h2.1, h2.2, ?_⟩
      dsimp only at h
      split at h
      · cases h; exact .inl ⟨by assumption, rfl, rfl⟩
      · cases h; exact .inr ⟨by omega, rfl, rfl⟩

/-! ## Header, trailer, stream -/

theorem hdrSetBody_ok_iff {field : Slot} {value : Word} {s t : State} :
    hdrSetBody field value s = .ok t ↔
      ∃ lo width, hdrField field = some (lo, width) ∧ t = { s with hdr := replaceField s.hdr lo width value } := by
  unfold hdrSetBody
  cases hdrField field with
  | none => simp
  | some p => obtain ⟨lo, width⟩ := p; simp [eq_comm]

theorem hdrGetBody_ok_iff {field : Slot} {s t : State} {r : Word} :
    hdrGetBody field s = .ok (t, r) ↔ t = s ∧ ∃ lo width, hdrField field = some (lo, width) ∧ r = wordSlice s.hdr lo width := by
  unfold hdrGetBody
  cases hdrField field with
  | none => simp
  | some p => obtain ⟨lo, width⟩ := p; simp [eq_comm]

theorem stGetBody_ok_iff {field : Slot} {s t : State} {r : Word} :
    stGetBody field s = .ok (t, r) ↔ t = s ∧ ∃ lo width, stField field = some (lo, width) ∧ r = wordSlice s.trl lo width := by
  unfold stGetBody
  cases stField field with
  | none => simp
  | some p => obtain ⟨lo, width⟩ := p; simp [eq_comm]

/-- Every field of the header and of the trailer lies within the word. -/
theorem hdrField_le {field : Slot} {lo width : Nat} (h : hdrField field = some (lo, width)) : lo + width ≤ 32 ∧ 1 ≤ width := by
  unfold hdrField at h
  split at h <;> first | (cases h; decide) | cases h

theorem stField_le {field : Slot} {lo width : Nat} (h : stField field = some (lo, width)) : lo + width ≤ 32 ∧ 1 ≤ width := by
  unfold stField at h
  split at h <;> first | (cases h; decide) | cases h

theorem hdrWordBody_ok_iff {s t : State} {r : Word} :
    hdrWordBody s = .ok (t, r) ↔ wordtype s.hdr = .header ∧ t = s ∧ r = s.hdr := by
  rw [hdrWordBody, guard_ok_iff]; simp

theorem hdrLoadBody_ok_iff {word : Word} {s t : State} :
    hdrLoadBody word s = .ok t ↔ wordtype word = .header ∧ t = { s with hdr := word } := by
  rw [hdrLoadBody, guard_ok_iff]; simp

theorem stLoadBody_ok_iff {word : Word} {s t : State} :
    stLoadBody word s = .ok t ↔ wordtype word = .status ∧ t = { s with trl := word } := by
  rw [stLoadBody, guard_ok_iff]; simp

theorem writeBody_ok_iff {s t : State} {r : Word} :
    writeBody s = .ok (t, r) ↔ wordtype s.hdr = .header ∧ s.wcur = 0 ∧
      t = { s with out := s.out ++ subBlockWords s } ∧ r = countWord (subBlockWords s).length := by
  unfold writeBody
  split
  · rename_i h; simp only [bne_iff_ne] at h; simp [h]
  · rename_i h; rw [guard_ok_iff]; simp only [bne_iff_ne, ne_eq, not_not, Prod.mk.injEq] at *; simp [h]

/-- READ_WORD when it is accepted (42_header_trailer.md R232). -/
theorem readWordBody_ok {word : Word} {s t : State} {r : Word} (h : readWordBody word s = .ok (t, r)) :
    s.rd = .expectHeader ∧ wordtype word = .header ∧ t = { s with hdr := word, rd := .inData } ∧ r = 1 ∨
    s.rd = .inData ∧ wordtype word = .data ∧ fits s.cfg (s.payload.length + 1) = true ∧
      t = { s with payload := s.payload ++ [word] } ∧ r = 1 ∨
    s.rd = .inData ∧ wordtype word = .status ∧ t = { s with trl := word, rd := .done } ∧ r = 1 ∨
    s.rd = .inData ∧ wordtype word = .header ∧ t = { s with rd := .done } ∧ r = 0 ∨
    s.rd = .done ∧ t = s ∧ r = 0 := by
  unfold readWordBody at h
  split at h
  · cases h
  · split at h
    · cases h
    · cases h
      rename_i h1 h2
      exact .inl ⟨h1, by simpa using h2, rfl, rfl⟩
  · split at h
    · cases hm : memAppend s word with
      | error c => rw [hm] at h; cases h
      | ok u =>
        rw [hm] at h
        obtain ⟨hf, rfl⟩ := memAppend_ok_iff.mp hm
        cases h
        exact .inr (.inl ⟨by assumption, by assumption, hf, rfl, rfl⟩)
    · cases h
      exact .inr (.inr (.inl ⟨by assumption, by assumption, rfl, rfl⟩))
    · cases h
      exact .inr (.inr (.inr (.inl ⟨by assumption, by assumption, rfl, rfl⟩)))
  · cases h
    exact .inr (.inr (.inr (.inr ⟨by assumption, rfl, rfl⟩)))

/-! ## The marshaller -/

/-- A chosen layout is the table's, for a format the block supports (43_marshaller.md R262, R265). -/
theorem chooseLayout_ok {s : State} {L : Layout} (h : chooseLayout s = .ok L) :
    (hdrFormat s.hdr).toNat < 2 ∧ layoutOf s.cfg s.kind s.hdr = some L ∧
      ∀ S, L = .serial S → s.streamed = true → S.streamed = true := by
  unfold chooseLayout at h
  dsimp only at h
  split at h
  · cases h
  · split at h
    · cases h
    · rename_i h1 h2
      refine ⟨by simpa [hasCompression] using h2, ?_⟩
      split at h
      · cases h
      · rename_i S hS
        split at h
        · cases h
        · rename_i h3
          cases h
          refine ⟨hS, fun S' hS' => ?_⟩
          cases hS'
          simpa using h3
      · rename_i N hN
        cases h
        exact ⟨hN, fun S' hS' => nomatch hS'⟩

/-- A layout of the table is well formed for the kind and the header (43_marshaller.md R255, R256, R258, R259). -/
theorem layoutOf_wf {c : Config} {k : Kind} {h : Word} {L : Layout} (hl : layoutOf c k h = some L) :
    layoutWf (maxPins c) (layoutKey k h) L = true := by
  unfold layoutOf at hl
  dsimp only at hl
  split at hl
  · cases hl
  · split at hl
    · rename_i hw
      cases hl; exact hw
    · cases hl

/-- All that a serial layout of the table obeys: the format, the widths and field ids, one slice for every kind but PPM,
and for PPM a whole number of channels (43_marshaller.md R255, R258, R259, R268). -/
theorem layoutOf_serial {c : Config} {k : Kind} {h : Word} {L : SerialLayout} (hl : layoutOf c k h = some (.serial L)) :
    hdrFormat h = 1 ∧ (∀ it ∈ L.items, it.width ≤ maxbits L.streamed ∧ it.fid ≠ parityFid) ∧
      (k ≠ .ppm → ∀ it ∈ L.items, it.slice = 0) ∧
      (k = .ppm → ∃ channels, serialWords L = channels * ((hdrSlices1 h).toNat + (hdrSlices2 h).toNat)) := by
  have hw := layoutOf_wf hl
  simp only [layoutWf, serialLayoutWf, Bool.and_eq_true, beq_iff_eq, List.all_eq_true, decide_eq_true_eq, bne_iff_ne] at hw
  obtain ⟨⟨hf, hi⟩, hs⟩ := hw
  refine ⟨hf, hi, fun hk it hit => ?_, fun hk => ⟨ppmChannels (layoutKey k h) L, ?_⟩⟩
  · rw [instanceSlicesOk, if_neg (c := (layoutKey k h).kind = .ppm) hk, List.all_eq_true] at hs
    exact eq_of_beq (hs it hit)
  · rw [instanceSlicesOk, if_pos (c := (layoutKey k h).kind = .ppm) hk] at hs
    exact eq_of_beq hs

/-- All that a neutral layout of the table obeys (43_marshaller.md R254, R256, R268). -/
theorem layoutOf_neutral {c : Config} {k : Kind} {h : Word} {L : NeutralLayout} (hl : layoutOf c k h = some (.neutral L)) :
    hdrFormat h = 0 ∧ 1 ≤ L.bpspp ∧ L.pins.Nodup ∧ (∀ p ∈ L.pins, p < maxPins c ∧ laneBits L p = L.bpspp - 1) ∧
      ∀ it ∈ L.items, it.pin ∈ L.pins ∧ it.width ≤ 32 ∧ it.fid ≠ parityFid := by
  have hw := layoutOf_wf hl
  simpa [layoutWf, neutralLayoutWf, layoutKey, and_assoc] using hw

/-- What every item of a serial walk preserves, the walk preserves. -/
theorem packItems_induction {P : State → Prop} (hstep : ∀ v n s t, P s → packBody v n s = .ok t → P t) :
    ∀ {items : List SerialItem} {s t : State}, P s → packItems items s = .ok t → P t
  | [], s, t, hs, h => by cases h; exact hs
  | it :: rest, s, t, hs, h => by
    unfold packItems at h
    split at h
    · rename_i u hu
      exact packItems_induction hstep (hstep _ _ _ _ hs hu) h
    · cases h

theorem packNeutralItems_induction {P : State → Prop} (hstep : ∀ p v n s t, P s → packNeutralBody p v n s = .ok t → P t)
    {slice : Slot} : ∀ {items : List NeutralItem} {s t : State}, P s → packNeutralItems slice items s = .ok t → P t
  | [], s, t, hs, h => by cases h; exact hs
  | it :: rest, s, t, hs, h => by
    unfold packNeutralItems at h
    split at h
    · rename_i u hu
      exact packNeutralItems_induction hstep (hstep _ _ _ _ _ hs hu) h
    · cases h

theorem packParities_induction {P : State → Prop} (hstep : ∀ p s t, P s → packNeutralParityBody p s = .ok t → P t) :
    ∀ {pins : List Nat} {s t : State}, P s → packParities pins s = .ok t → P t
  | [], s, t, hs, h => by cases h; exact hs
  | p :: rest, s, t, hs, h => by
    unfold packParities at h
    split at h
    · rename_i u hu
      exact packParities_induction hstep (hstep _ _ _ hs hu) h
    · cases h

/-- What both neutral packing commands preserve, the walk over slices preserves. -/
theorem packSlices_induction {P : State → Prop} {L : NeutralLayout}
    (hitem : ∀ p v n s t, P s → packNeutralBody p v n s = .ok t → P t)
    (hpar : ∀ p s t, P s → packNeutralParityBody p s = .ok t → P t) :
    ∀ {count first : Nat} {s t : State}, P s → packSlices L first count s = .ok t → P t
  | 0, first, s, t, hs, h => by cases h; exact hs
  | count + 1, first, s, t, hs, h => by
    unfold packSlices at h
    split at h
    · cases h
    · rename_i u hu
      split at h
      · cases h
      · rename_i v hv
        exact packSlices_induction hitem hpar (packParities_induction hpar (packNeutralItems_induction hitem hs hu) hv) h

/-- What UNPACK and a field write preserve, a serial walk preserves. -/
theorem unpackItems_induction {P : State → Prop} (hstep : ∀ n s t r, P s → unpackBody n s = .ok (t, r) → P t)
    (hfield : ∀ f x i v s, P s → P (s.setField f x i v)) :
    ∀ {items : List SerialItem} {s t : State}, P s → unpackItems items s = .ok t → P t
  | [], s, t, hs, h => by cases h; exact hs
  | it :: rest, s, t, hs, h => by
    unfold unpackItems at h
    split at h
    · rename_i u v hu
      exact unpackItems_induction hstep hfield (hfield _ _ _ _ _ (hstep _ _ _ _ hs hu)) h
    · cases h

theorem unpackNeutralItems_induction {P : State → Prop}
    (hstep : ∀ p n s t r, P s → unpackNeutralBody p n s = .ok (t, r) → P t)
    (hfield : ∀ f x i v s, P s → P (s.setField f x i v)) {slice : Slot} :
    ∀ {items : List NeutralItem} {s t : State}, P s → unpackNeutralItems slice items s = .ok t → P t
  | [], s, t, hs, h => by cases h; exact hs
  | it :: rest, s, t, hs, h => by
    unfold unpackNeutralItems at h
    split at h
    · rename_i u v hu
      exact unpackNeutralItems_induction hstep hfield (hfield _ _ _ _ _ (hstep _ _ _ _ _ hs hu)) h
    · cases h

theorem unpackParities_induction {P : State → Prop}
    (hstep : ∀ p s t r, P s → unpackNeutralParityErrorBody p s = .ok (t, r) → P t)
    (hfield : ∀ f x i v s, P s → P (s.setField f x i v)) {slice : Slot} :
    ∀ {pins : List Nat} {s t : State}, P s → unpackParities slice pins s = .ok t → P t
  | [], s, t, hs, h => by cases h; exact hs
  | p :: rest, s, t, hs, h => by
    unfold unpackParities at h
    split at h
    · rename_i u v hu
      exact unpackParities_induction hstep hfield (hfield _ _ _ _ _ (hstep _ _ _ _ hs hu)) h
    · cases h

/-- What both neutral unpacking commands and a field write preserve, the walk over slices preserves. -/
theorem unpackSlices_induction {P : State → Prop} {L : NeutralLayout}
    (hitem : ∀ p n s t r, P s → unpackNeutralBody p n s = .ok (t, r) → P t)
    (hpar : ∀ p s t r, P s → unpackNeutralParityErrorBody p s = .ok (t, r) → P t)
    (hfield : ∀ f x i v s, P s → P (s.setField f x i v)) :
    ∀ {count first : Nat} {s t : State}, P s → unpackSlices L first count s = .ok t → P t
  | 0, first, s, t, hs, h => by cases h; exact hs
  | count + 1, first, s, t, hs, h => by
    unfold unpackSlices at h
    split at h
    · cases h
    · rename_i u hu
      split at h
      · cases h
      · rename_i v hv
        exact unpackSlices_induction hitem hpar hfield
          (unpackParities_induction hpar hfield (unpackNeutralItems_induction hitem hfield hs hu) hv) h

/-- MPACK when it is accepted (43_marshaller.md R262). -/
theorem mpackBody_ok {s t : State} {r : Word} (h : mpackBody s = .ok (t, r)) :
    wordtype s.hdr = .header ∧ s.pass = .pack ∧ s.pmode = .none ∧ s.payload = [] ∧ r = 1 ∧
      ((∃ L, chooseLayout s = .ok (.serial L) ∧ packUncompressed L s = .ok t) ∨
        ∃ L, chooseLayout s = .ok (.neutral L) ∧ packNeutralLayout L s = .ok t) := by
  unfold mpackBody at h
  split at h
  · cases h
  · split at h
    · cases h
    · rename_i h1 h2
      have h1 : wordtype s.hdr = .header := by simpa using h1
      have h2 : s.pass = .pack ∧ s.pmode = .none ∧ s.payload = [] := by
        simpa [and_assoc] using h2
      refine ⟨h1, h2.1, h2.2.1, h2.2.2, ?_⟩
      split at h
      · cases h
      · rename_i L hL
        split at h
        · rename_i u hu
          cases h; exact ⟨rfl, .inl ⟨L, hL, hu⟩⟩
        · cases h
      · rename_i L hL
        split at h
        · rename_i u hu
          cases h; exact ⟨rfl, .inr ⟨L, hL, hu⟩⟩
        · cases h

/-- MUNPACK when it is accepted (43_marshaller.md R266). -/
theorem munpackBody_ok {s t : State} {r : Word} (h : munpackBody s = .ok (t, r)) :
    wordtype s.hdr = .header ∧ s.wcur = 0 ∧ r = boolWord t.ok ∧ ∃ u, unpackInitBody s = .ok u ∧
      ((∃ L, chooseLayout s = .ok (.serial L) ∧ unpackUncompressed L u = .ok t) ∨
        ∃ L, chooseLayout s = .ok (.neutral L) ∧ unpackNeutralLayout L u = .ok t) := by
  unfold munpackBody at h
  split at h
  · cases h
  · split at h
    · cases h
    · rename_i h1 h2
      refine ⟨by simpa using h1, by simpa using h2, ?_⟩
      split at h
      · cases h
      · rename_i L hL
        split at h
        · cases h
        · rename_i u hu
          split at h
          · split at h
            · rename_i v hv
              cases h; exact ⟨rfl, u, hu, .inl ⟨_, hL, hv⟩⟩
            · cases h
          · split at h
            · rename_i v hv
              cases h; exact ⟨rfl, u, hu, .inr ⟨_, hL, hv⟩⟩
            · cases h

/-- All that `ROI_LAYOUT(kind)` obeys: its entries are slices of the word, and no two overlap (43_marshaller.md R269). -/
theorem roiLayout_wf (c : Config) (k : Kind) :
    (∀ f ∈ roiLayout c k, f.kind = k ∧ 1 ≤ f.width ∧ f.lo + f.width ≤ 32) ∧ (roiLayout c k).Pairwise roiApart := by
  unfold roiLayout
  dsimp only
  split
  · rename_i hw
    simp only [roiLayoutWf, Bool.and_eq_true, List.all_eq_true, decide_eq_true_eq] at hw
    refine ⟨fun f hf => ⟨?_, ?_⟩, hw.2⟩
    · simpa using (List.mem_filter.mp hf).2
    · simpa [roiSliceOk] using hw.1 f hf
  · exact ⟨fun f hf => (List.not_mem_nil hf).elim, List.Pairwise.nil⟩

/-- ROI_LOAD writes the field store alone (43_marshaller.md R269). -/
theorem roiStore_frame (word : Word) (l : List RoiField) (s : State) :
    roiStore word l s = { s with fields := (roiStore word l s).fields } := by
  induction l generalizing s with
  | nil => rfl
  | cons f rest ih => rw [roiStore, ih]; rfl

end Sys2Proof.Machine
end

