-- ==== Sys2Proof/Laws/PerInstr.lean ====
section
/-! SUPPORT. Statements made once per instruction. RowMatch: the word that encodes an instruction lies in the instruction's
row of spec/opcode_table.json (the row's mask leaves the row's match). -/

namespace Sys2Proof.Laws

open Sys2Proof

/-- The word `w` lies in the row with this match and mask, both words of the row's format. -/
def inRow : CodeWord → CodeWord → CodeWord → Prop
  | .cmd64 w, .cmd64 value, .cmd64 mask => w &&& mask = value
  | .wire32 w, .wire32 value, .wire32 mask => w &&& mask = value
  | .cmd64 _, .cmd64 _, .wire32 _ => False
  | .cmd64 _, .wire32 _, _ => False
  | .wire32 _, .wire32 _, .cmd64 _ => False
  | .wire32 _, .cmd64 _, _ => False

/-- The row of an instruction: "match" and "mask" of spec/opcode_table.json. -/
def rowOf : Instr → CodeWord × CodeWord
  | .clear => (.cmd64 0x0100000000000000#64, .cmd64 0xFFFFFFFFFFFFFFFF#64)
  | .setStreamed => (.cmd64 0x0200000000000000#64, .cmd64 0xFFFFFFFFFFFFFFFF#64)
  | .unpackInit => (.cmd64 0x0300000000000000#64, .cmd64 0xFFFFFFFFFFFFFFFF#64)
  | .unpackSuccess => (.cmd64 0x0400000000000000#64, .cmd64 0xFFFFFFFFFFFFFFFF#64)
  | .minBits _ => (.cmd64 0x0500000000000000#64, .cmd64 0xFFFFFFFF00000000#64)
  | .setKind _ => (.cmd64 0x0600000000000000#64, .cmd64 0xFF00FFFFFFFFFFFF#64)
  | .dataWords => (.cmd64 0x0700000000000000#64, .cmd64 0xFFFFFFFFFFFFFFFF#64)
  | .timeslices => (.cmd64 0x0800000000000000#64, .cmd64 0xFFFFFFFFFFFFFFFF#64)
  | .pack _ _ => (.cmd64 0x1000000000000000#64, .cmd64 0xFFFF00FF00000000#64)
  | .packFlush => (.cmd64 0x1100000000000000#64, .cmd64 0xFFFFFFFFFFFFFFFF#64)
  | .unpack _ => (.cmd64 0x1200000000000000#64, .cmd64 0xFFFF00FFFFFFFFFF#64)
  | .packNeutral _ _ _ => (.cmd64 0x2000000000000000#64, .cmd64 0xFF0000FF00000000#64)
  | .packNeutralParity _ => (.cmd64 0x2100000000000000#64, .cmd64 0xFF00FFFFFFFFFFFF#64)
  | .unpackNeutral _ _ => (.cmd64 0x2200000000000000#64, .cmd64 0xFF0000FFFFFFFFFF#64)
  | .unpackNeutralParityError _ => (.cmd64 0x2300000000000000#64, .cmd64 0xFF00FFFFFFFFFFFF#64)
  | .hdrSet _ _ => (.cmd64 0x3000000000000000#64, .cmd64 0xFF00FFFF00000000#64)
  | .hdrGet _ => (.cmd64 0x3100000000000000#64, .cmd64 0xFF00FFFFFFFFFFFF#64)
  | .hdrWord => (.cmd64 0x3200000000000000#64, .cmd64 0xFFFFFFFFFFFFFFFF#64)
  | .hdrLoad _ => (.cmd64 0x3300000000000000#64, .cmd64 0xFFFFFFFF00000000#64)
  | .wordType _ => (.cmd64 0x3400000000000000#64, .cmd64 0xFFFFFFFF00000000#64)
  | .wordId _ => (.cmd64 0x3500000000000000#64, .cmd64 0xFFFFFFFF00000000#64)
  | .wordFormat _ => (.cmd64 0x3600000000000000#64, .cmd64 0xFFFFFFFF00000000#64)
  | .wordSeqno _ => (.cmd64 0x3700000000000000#64, .cmd64 0xFFFFFFFF00000000#64)
  | .wordModule _ => (.cmd64 0x3800000000000000#64, .cmd64 0xFFFFFFFF00000000#64)
  | .stSet _ => (.cmd64 0x3900000000000000#64, .cmd64 0xFFFFFFFF00000000#64)
  | .stGet _ => (.cmd64 0x3A00000000000000#64, .cmd64 0xFF00FFFFFFFFFFFF#64)
  | .stWord => (.cmd64 0x3B00000000000000#64, .cmd64 0xFFFFFFFFFFFFFFFF#64)
  | .stLoad _ => (.cmd64 0x3C00000000000000#64, .cmd64 0xFFFFFFFF00000000#64)
  | .write => (.cmd64 0x4000000000000000#64, .cmd64 0xFFFFFFFFFFFFFFFF#64)
  | .readBegin => (.cmd64 0x4100000000000000#64, .cmd64 0xFFFFFFFFFFFFFFFF#64)
  | .readWord _ => (.cmd64 0x4200000000000000#64, .cmd64 0xFFFFFFFF00000000#64)
  | .fieldSet _ _ _ _ => (.cmd64 0x5000000000000000#64, .cmd64 0xFF00000000000000#64)
  | .fieldGet _ _ _ => (.cmd64 0x5100000000000000#64, .cmd64 0xFF000000FFFFFFFF#64)
  | .mpack => (.cmd64 0x5200000000000000#64, .cmd64 0xFFFFFFFFFFFFFFFF#64)
  | .munpack => (.cmd64 0x5300000000000000#64, .cmd64 0xFFFFFFFFFFFFFFFF#64)
  | .roiLoad _ => (.cmd64 0x5400000000000000#64, .cmd64 0xFFFFFFFF00000000#64)
  | .wordHeaderC _ _ _ _ _ _ _ => (.wire32 0xC0000000#32, .wire32 0xF0000000#32)
  | .wordHeaderE _ _ _ _ _ _ _ => (.wire32 0xE0000000#32, .wire32 0xF0000000#32)
  | .wordHeaderF _ _ _ _ _ _ _ => (.wire32 0xF0000000#32, .wire32 0xF0000000#32)
  | .wordStatus _ _ _ _ _ _ _ _ _ _ _ _ => (.wire32 0xD0000000#32, .wire32 0xF0000000#32)
  | .wordData00 _ => (.wire32 0x00000000#32, .wire32 0xC0000000#32)
  | .wordData01 _ => (.wire32 0x40000000#32, .wire32 0xC0000000#32)
  | .wordData10 _ => (.wire32 0x80000000#32, .wire32 0xC0000000#32)

/-- The encoding of the instruction lies in its row. -/
def RowMatch.Statement (i : Instr) : Prop := inRow (encode i) (rowOf i).1 (rowOf i).2

theorem commandWord_and (op a b c op' a' b' c' : Slot) (v v' : Word) :
    commandWord op a b c v &&& commandWord op' a' b' c' v' =
      commandWord (op &&& op') (a &&& a') (b &&& b') (c &&& c') (v &&& v') := by
  unfold commandWord
  rw [← BitVec.and_append, ← BitVec.and_append, ← BitVec.and_append, ← BitVec.and_append]

/-- A command word lies in a row when each of its five fields does. -/
theorem command_inRow {op a b c : Slot} {v : Word} (op' a' b' c' : Slot) (v' : Word) {value mask : CommandWord}
    (hm : mask = commandWord op' a' b' c' v')
    (hv : commandWord (op &&& op') (a &&& a') (b &&& b') (c &&& c') (v &&& v') = value) :
    commandWord op a b c v &&& mask = value := by
  subst hm
  exact (commandWord_and ..).trans hv

/-- The top nibble alone is left by the mask of the header and status rows. -/
theorem and_nibble_mask (w : Word) : w &&& 0xF0000000#32 = (w.extractLsb' 28 4 ++ 0#28 : BitVec 32) := by
  have hm : ∀ k < 32, (0xF0000000#32).getLsbD k = decide (28 ≤ k) := by decide
  apply BitVec.eq_of_getLsbD_eq
  intro k hk
  rw [BitVec.getLsbD_and, hm k hk, BitVec.getLsbD_append]
  by_cases h : k < 28
  · simp [h]
  · have h2 : k - 28 < 4 := by omega
    have h3 : 28 + (k - 28) = k := by omega
    simp [h, h2, h3, Nat.le_of_not_lt h]

/-- The top two bits alone are left by the mask of the data rows. -/
theorem and_top_mask (w : Word) : w &&& 0xC0000000#32 = (w.extractLsb' 30 2 ++ 0#30 : BitVec 32) := by
  have hm : ∀ k < 32, (0xC0000000#32).getLsbD k = decide (30 ≤ k) := by decide
  apply BitVec.eq_of_getLsbD_eq
  intro k hk
  rw [BitVec.getLsbD_and, hm k hk, BitVec.getLsbD_append]
  by_cases h : k < 30
  · simp [h]
  · have h2 : k - 30 < 2 := by omega
    have h3 : 30 + (k - 30) = k := by omega
    simp [h, h2, h3, Nat.le_of_not_lt h]

theorem RowMatch.clear : RowMatch.Statement (.clear) := by
  exact command_inRow 0xFF 0xFF 0xFF 0xFF 0xFFFFFFFF (by decide) (by decide)
theorem RowMatch.setStreamed : RowMatch.Statement (.setStreamed) := by
  exact command_inRow 0xFF 0xFF 0xFF 0xFF 0xFFFFFFFF (by decide) (by decide)
theorem RowMatch.unpackInit : RowMatch.Statement (.unpackInit) := by
  exact command_inRow 0xFF 0xFF 0xFF 0xFF 0xFFFFFFFF (by decide) (by decide)
theorem RowMatch.unpackSuccess : RowMatch.Statement (.unpackSuccess) := by
  exact command_inRow 0xFF 0xFF 0xFF 0xFF 0xFFFFFFFF (by decide) (by decide)
theorem RowMatch.minBits (value : Word) : RowMatch.Statement (.minBits value) := by
  exact command_inRow 0xFF 0xFF 0xFF 0xFF 0x00000000 (by decide) (by simp only [BitVec.ofNat_eq_ofNat, BitVec.and_zero]; decide)
theorem RowMatch.setKind (kind : Slot) : RowMatch.Statement (.setKind kind) := by
  exact command_inRow 0xFF 0x00 0xFF 0xFF 0xFFFFFFFF (by decide) (by simp only [BitVec.ofNat_eq_ofNat, BitVec.and_zero]; decide)
theorem RowMatch.dataWords : RowMatch.Statement (.dataWords) := by
  exact command_inRow 0xFF 0xFF 0xFF 0xFF 0xFFFFFFFF (by decide) (by decide)
theorem RowMatch.timeslices : RowMatch.Statement (.timeslices) := by
  exact command_inRow 0xFF 0xFF 0xFF 0xFF 0xFFFFFFFF (by decide) (by decide)
theorem RowMatch.pack (value : Word) (nbits : Slot) : RowMatch.Statement (.pack value nbits) := by
  exact command_inRow 0xFF 0xFF 0x00 0xFF 0x00000000 (by decide) (by simp only [BitVec.ofNat_eq_ofNat, BitVec.and_zero]; decide)
theorem RowMatch.packFlush : RowMatch.Statement (.packFlush) := by
  exact command_inRow 0xFF 0xFF 0xFF 0xFF 0xFFFFFFFF (by decide) (by decide)
theorem RowMatch.unpack (nbits : Slot) : RowMatch.Statement (.unpack nbits) := by
  exact command_inRow 0xFF 0xFF 0x00 0xFF 0xFFFFFFFF (by decide) (by simp only [BitVec.ofNat_eq_ofNat, BitVec.and_zero]; decide)
theorem RowMatch.packNeutral (pin : Slot) (value : Word) (nbits : Slot) : RowMatch.Statement (.packNeutral pin value nbits) := by
  exact command_inRow 0xFF 0x00 0x00 0xFF 0x00000000 (by decide) (by simp only [BitVec.ofNat_eq_ofNat, BitVec.and_zero]; decide)
theorem RowMatch.packNeutralParity (pin : Slot) : RowMatch.Statement (.packNeutralParity pin) := by
  exact command_inRow 0xFF 0x00 0xFF 0xFF 0xFFFFFFFF (by decide) (by simp only [BitVec.ofNat_eq_ofNat, BitVec.and_zero]; decide)
theorem RowMatch.unpackNeutral (pin : Slot) (nbits : Slot) : RowMatch.Statement (.unpackNeutral pin nbits) := by
  exact command_inRow 0xFF 0x00 0x00 0xFF 0xFFFFFFFF (by decide) (by simp only [BitVec.ofNat_eq_ofNat, BitVec.and_zero]; decide)
theorem RowMatch.unpackNeutralParityError (pin : Slot) : RowMatch.Statement (.unpackNeutralParityError pin) := by
  exact command_inRow 0xFF 0x00 0xFF 0xFF 0xFFFFFFFF (by decide) (by simp only [BitVec.ofNat_eq_ofNat, BitVec.and_zero]; decide)
theorem RowMatch.hdrSet (field : Slot) (value : Word) : RowMatch.Statement (.hdrSet field value) := by
  exact command_inRow 0xFF 0x00 0xFF 0xFF 0x00000000 (by decide) (by simp only [BitVec.ofNat_eq_ofNat, BitVec.and_zero]; decide)
theorem RowMatch.hdrGet (field : Slot) : RowMatch.Statement (.hdrGet field) := by
  exact command_inRow 0xFF 0x00 0xFF 0xFF 0xFFFFFFFF (by decide) (by simp only [BitVec.ofNat_eq_ofNat, BitVec.and_zero]; decide)
theorem RowMatch.hdrWord : RowMatch.Statement (.hdrWord) := by
  exact command_inRow 0xFF 0xFF 0xFF 0xFF 0xFFFFFFFF (by decide) (by decide)
theorem RowMatch.hdrLoad (word : Word) : RowMatch.Statement (.hdrLoad word) := by
  exact command_inRow 0xFF 0xFF 0xFF 0xFF 0x00000000 (by decide) (by simp only [BitVec.ofNat_eq_ofNat, BitVec.and_zero]; decide)
theorem RowMatch.wordType (word : Word) : RowMatch.Statement (.wordType word) := by
  exact command_inRow 0xFF 0xFF 0xFF 0xFF 0x00000000 (by decide) (by simp only [BitVec.ofNat_eq_ofNat, BitVec.and_zero]; decide)
theorem RowMatch.wordId (word : Word) : RowMatch.Statement (.wordId word) := by
  exact command_inRow 0xFF 0xFF 0xFF 0xFF 0x00000000 (by decide) (by simp only [BitVec.ofNat_eq_ofNat, BitVec.and_zero]; decide)
theorem RowMatch.wordFormat (word : Word) : RowMatch.Statement (.wordFormat word) := by
  exact command_inRow 0xFF 0xFF 0xFF 0xFF 0x00000000 (by decide) (by simp only [BitVec.ofNat_eq_ofNat, BitVec.and_zero]; decide)
theorem RowMatch.wordSeqno (word : Word) : RowMatch.Statement (.wordSeqno word) := by
  exact command_inRow 0xFF 0xFF 0xFF 0xFF 0x00000000 (by decide) (by simp only [BitVec.ofNat_eq_ofNat, BitVec.and_zero]; decide)
theorem RowMatch.wordModule (word : Word) : RowMatch.Statement (.wordModule word) := by
  exact command_inRow 0xFF 0xFF 0xFF 0xFF 0x00000000 (by decide) (by simp only [BitVec.ofNat_eq_ofNat, BitVec.and_zero]; decide)
theorem RowMatch.stSet (value : Word) : RowMatch.Statement (.stSet value) := by
  exact command_inRow 0xFF 0xFF 0xFF 0xFF 0x00000000 (by decide) (by simp only [BitVec.ofNat_eq_ofNat, BitVec.and_zero]; decide)
theorem RowMatch.stGet (field : Slot) : RowMatch.Statement (.stGet field) := by
  exact command_inRow 0xFF 0x00 0xFF 0xFF 0xFFFFFFFF (by decide) (by simp only [BitVec.ofNat_eq_ofNat, BitVec.and_zero]; decide)
theorem RowMatch.stWord : RowMatch.Statement (.stWord) := by
  exact command_inRow 0xFF 0xFF 0xFF 0xFF 0xFFFFFFFF (by decide) (by decide)
theorem RowMatch.stLoad (word : Word) : RowMatch.Statement (.stLoad word) := by
  exact command_inRow 0xFF 0xFF 0xFF 0xFF 0x00000000 (by decide) (by simp only [BitVec.ofNat_eq_ofNat, BitVec.and_zero]; decide)
theorem RowMatch.write : RowMatch.Statement (.write) := by
  exact command_inRow 0xFF 0xFF 0xFF 0xFF 0xFFFFFFFF (by decide) (by decide)
theorem RowMatch.readBegin : RowMatch.Statement (.readBegin) := by
  exact command_inRow 0xFF 0xFF 0xFF 0xFF 0xFFFFFFFF (by decide) (by decide)
theorem RowMatch.readWord (word : Word) : RowMatch.Statement (.readWord word) := by
  exact command_inRow 0xFF 0xFF 0xFF 0xFF 0x00000000 (by decide) (by simp only [BitVec.ofNat_eq_ofNat, BitVec.and_zero]; decide)
theorem RowMatch.fieldSet (fid slice index : Slot) (value : Word) : RowMatch.Statement (.fieldSet fid slice index value) := by
  exact command_inRow 0xFF 0x00 0x00 0x00 0x00000000 (by decide) (by simp only [BitVec.ofNat_eq_ofNat, BitVec.and_zero]; decide)
theorem RowMatch.fieldGet (fid slice index : Slot) : RowMatch.Statement (.fieldGet fid slice index) := by
  exact command_inRow 0xFF 0x00 0x00 0x00 0xFFFFFFFF (by decide) (by simp only [BitVec.ofNat_eq_ofNat, BitVec.and_zero]; decide)
theorem RowMatch.mpack : RowMatch.Statement (.mpack) := by
  exact command_inRow 0xFF 0xFF 0xFF 0xFF 0xFFFFFFFF (by decide) (by decide)
theorem RowMatch.munpack : RowMatch.Statement (.munpack) := by
  exact command_inRow 0xFF 0xFF 0xFF 0xFF 0xFFFFFFFF (by decide) (by decide)
theorem RowMatch.roiLoad (word : Word) : RowMatch.Statement (.roiLoad word) := by
  exact command_inRow 0xFF 0xFF 0xFF 0xFF 0x00000000 (by decide) (by simp only [BitVec.ofNat_eq_ofNat, BitVec.and_zero]; decide)
theorem RowMatch.wordHeaderC (version format : BitVec 3) (seqno : BitVec 6) (crate modNo slices2 slices1 : BitVec 4) : RowMatch.Statement (.wordHeaderC version format seqno crate modNo slices2 slices1) := by
  refine (and_nibble_mask _).trans ?_
  rw [headerWord_wordId]
  decide
theorem RowMatch.wordHeaderE (version format : BitVec 3) (seqno : BitVec 6) (crate modNo slices2 slices1 : BitVec 4) : RowMatch.Statement (.wordHeaderE version format seqno crate modNo slices2 slices1) := by
  refine (and_nibble_mask _).trans ?_
  rw [headerWord_wordId]
  decide
theorem RowMatch.wordHeaderF (version format : BitVec 3) (seqno : BitVec 6) (crate modNo slices2 slices1 : BitVec 4) : RowMatch.Statement (.wordHeaderF version format seqno crate modNo slices2 slices1) := by
  refine (and_nibble_mask _).trans ?_
  rw [headerWord_wordId]
  decide
theorem RowMatch.wordStatus (failingBCN seqno : BitVec 6) (crate modNo : BitVec 4) (glinkTimeout glinkDown unused upstreamError daqOverflow bcnMismatch glinkProtocol glinkParity : BitVec 1) : RowMatch.Statement (.wordStatus failingBCN seqno crate modNo glinkTimeout glinkDown unused upstreamError daqOverflow bcnMismatch glinkProtocol glinkParity) := by
  refine (and_nibble_mask _).trans ?_
  rw [statusWord_status]
  decide
theorem RowMatch.wordData00 (data : BitVec 30) : RowMatch.Statement (.wordData00 data) := by
  refine (and_top_mask _).trans ?_
  rw [dataWord_top]
  decide
theorem RowMatch.wordData01 (data : BitVec 30) : RowMatch.Statement (.wordData01 data) := by
  refine (and_top_mask _).trans ?_
  rw [dataWord_top]
  decide
theorem RowMatch.wordData10 (data : BitVec 30) : RowMatch.Statement (.wordData10 data) := by
  refine (and_top_mask _).trans ?_
  rw [dataWord_top]
  decide

end Sys2Proof.Laws
end

