-- ==== Sys2Proof/Tests/Slice0.lean ====
section
/-! SUPPORT. The model's own tests: ill-formed terms, written-out words, one step per instruction on small states
(expected values from 95_test_vectors.md and the rules' examples), and a witness of the hypotheses of each statement. -/

namespace Sys2Proof.Tests

open Sys2Proof Sys2Proof.Machine Sys2Proof.Spec

/-! ## Well-formedness: each check refuses an ill-formed term -/

theorem test_nbitsInWord : (Instr.pack 0 33).wellFormed = false ∧ (Instr.pack 0 32).wellFormed = true := by decide
theorem test_pinInWord : (Instr.packNeutralParity 32).wellFormed = false ∧ (Instr.packNeutralParity 31).wellFormed = true := by
  decide
theorem test_selectorKnown : (Instr.hdrSet 8 0).wellFormed = false ∧ (Instr.stGet 7).wellFormed = true := by decide
theorem test_kindKnown : (Instr.setKind 8).wellFormed = false ∧ (Instr.setKind 7).wellFormed = true := by decide

/-! ## Decoding: one word per instruction, from the programs of 95_test_vectors.md and the layouts of 30_encoding.md -/

theorem test_decode_clear : decodeTableWord 64 0x0100000000000000 = some .clear := by decide
theorem test_decode_setStreamed : decodeTableWord 64 0x0200000000000000 = some .setStreamed := by decide
theorem test_decode_unpackInit : decodeTableWord 64 0x0300000000000000 = some .unpackInit := by decide
theorem test_decode_unpackSuccess : decodeTableWord 64 0x0400000000000000 = some .unpackSuccess := by decide
theorem test_decode_minBits : decodeTableWord 64 0x0500000000000100 = some (.minBits 0x100) := by decide
theorem test_decode_setKind : decodeTableWord 64 0x0607000000000000 = some (.setKind 7) := by decide
theorem test_decode_dataWords : decodeTableWord 64 0x0700000000000000 = some .dataWords := by decide
theorem test_decode_timeslices : decodeTableWord 64 0x0800000000000000 = some .timeslices := by decide
theorem test_decode_pack : decodeTableWord 64 0x10000900000001F3 = some (.pack 0x1F3 9) := by decide
theorem test_decode_packFlush : decodeTableWord 64 0x1100000000000000 = some .packFlush := by decide
theorem test_decode_unpack : decodeTableWord 64 0x1200140000000000 = some (.unpack 20) := by decide
theorem test_decode_packNeutral : decodeTableWord 64 0x2003040000000006 = some (.packNeutral 3 6 4) := by decide
theorem test_decode_packNeutralParity : decodeTableWord 64 0x2113000000000000 = some (.packNeutralParity 19) := by decide
theorem test_decode_unpackNeutral : decodeTableWord 64 0x2213010000000000 = some (.unpackNeutral 19 1) := by decide
theorem test_decode_unpackNeutralParityError :
    decodeTableWord 64 0x2303000000000000 = some (.unpackNeutralParityError 3) := by decide
theorem test_decode_hdrSet : decodeTableWord 64 0x3005000000000009 = some (.hdrSet 5 9) := by decide
theorem test_decode_hdrGet : decodeTableWord 64 0x3104000000000000 = some (.hdrGet 4) := by decide
theorem test_decode_hdrWord : decodeTableWord 64 0x3200000000000000 = some .hdrWord := by decide
theorem test_decode_hdrLoad : decodeTableWord 64 0x33000000C2453951 = some (.hdrLoad 0xC2453951) := by decide
theorem test_decode_wordType : decodeTableWord 64 0x34000000C2453951 = some (.wordType 0xC2453951) := by decide
theorem test_decode_wordId : decodeTableWord 64 0x35000000C2453951 = some (.wordId 0xC2453951) := by decide
theorem test_decode_wordFormat : decodeTableWord 64 0x36000000C2453951 = some (.wordFormat 0xC2453951) := by decide
theorem test_decode_wordSeqno : decodeTableWord 64 0x37000000C2453951 = some (.wordSeqno 0xC2453951) := by decide
theorem test_decode_wordModule : decodeTableWord 64 0x38000000C2453951 = some (.wordModule 0xC2453951) := by decide
theorem test_decode_stSet : decodeTableWord 64 0x390000000A800005 = some (.stSet 0x0A800005) := by decide
theorem test_decode_stGet : decodeTableWord 64 0x3A05000000000000 = some (.stGet 5) := by decide
theorem test_decode_stWord : decodeTableWord 64 0x3B00000000000000 = some .stWord := by decide
theorem test_decode_stLoad : decodeTableWord 64 0x3C000000D0053980 = some (.stLoad 0xD0053980) := by decide
theorem test_decode_write : decodeTableWord 64 0x4000000000000000 = some .write := by decide
theorem test_decode_readBegin : decodeTableWord 64 0x4100000000000000 = some .readBegin := by decide
theorem test_decode_readWord : decodeTableWord 64 0x42000000ABCDEF9D = some (.readWord 0xABCDEF9D) := by decide
theorem test_decode_fieldSet : decodeTableWord 64 0x500201050000000A = some (.fieldSet 2 1 5 10) := by decide
theorem test_decode_fieldGet : decodeTableWord 64 0x5102010500000000 = some (.fieldGet 2 1 5) := by decide
theorem test_decode_mpack : decodeTableWord 64 0x5200000000000000 = some .mpack := by decide
theorem test_decode_munpack : decodeTableWord 64 0x5300000000000000 = some .munpack := by decide
theorem test_decode_roiLoad : decodeTableWord 64 0x54000000A0000001 = some (.roiLoad 0xA0000001) := by decide
/-- V-H2: `wordId` 0xC, version 1, format 1, seqno 5, crate 3, module 9, slices2 5, slices1 1. -/
theorem test_decode_wordHeaderC : decodeTableWord 32 0xC2453951 = some (.wordHeaderC 1 1 5 3 9 5 1) := by decide
theorem test_decode_wordHeaderE : decodeTableWord 32 0xE2053902 = some (.wordHeaderE 1 0 5 3 9 0 2) := by decide
theorem test_decode_wordHeaderF : decodeTableWord 32 0xFFFFFFFF = some (.wordHeaderF 7 7 63 15 15 15 15) := by decide
/-- V-H3: `failingBCN` 0x2A, `bcnMismatch`, `glinkParity`. -/
theorem test_decode_wordStatus : decodeTableWord 32 0xDA853905 = some (.wordStatus 0x2A 5 3 9 0 0 0 0 0 1 0 1) := by decide
theorem test_decode_wordData00 : decodeTableWord 32 0x0000037A = some (.wordData00 0x37A) := by decide
theorem test_decode_wordData01 : decodeTableWord 32 0x579BFFFF = some (.wordData01 0x179BFFFF) := by decide
theorem test_decode_wordData10 : decodeTableWord 32 0xABCDEF9D = some (.wordData10 0x2BCDEF9D) := by decide
/-- V-E1: words that are not commands. -/
theorem test_decode_refused : decodeTableWord 64 0 = none ∧ decodeTableWord 64 0x0900000000000000 = none ∧
    decodeTableWord 64 0x0100000000000001 = none ∧ decodeTableWord 64 0x1001030000000005 = none := by decide

/-! ## Small states -/

/-- Parameters for tests: EX_U cut to channel 5, EX_N (95_test_vectors.md 2.4), a streamed layout, and a RoI word. -/
def block : Config where
  extraPins := 0
  neutralFill := 0
  streamMark := false
  payloadMax := none
  layouts :=
    [⟨⟨.cpm, 1, 1, 1, 5⟩, .serial ⟨false, [⟨0, 0, 5, 8⟩, ⟨1, 0, 5, 2⟩, ⟨2, 0, 5, 8⟩, ⟨3, 0, 5, 2⟩]⟩⟩,
     ⟨⟨.cmmEnergy, 1, 0, 2, 0⟩, .neutral ⟨4, [0, 1], [⟨0, 0, 0, 3⟩, ⟨1, 0, 1, 3⟩]⟩⟩,
     ⟨⟨.jem, 1, 1, 1, 5⟩, .serial ⟨true, [⟨0, 0, 0, 31⟩]⟩⟩]
  slicesHdr := []
  roiMatch := [⟨.cpmRoi, 0xF0000000, 0xA0000000⟩]
  roiLayout := [⟨.cpmRoi, 7, 1, 0, 4⟩]

/-- The state after reset of a block with these parameters. -/
def fresh : State := { State.reset with cfg := block }

/-- A block whose payload store is full from the start. -/
def full : State := { fresh with cfg := { block with payloadMax := some 0 } }

/-- A pack pass with ten bits held back. -/
def packing : State := { fresh with payload := [0xABCDEF9D], acc := 0x2A5, wcur := 10, pmode := .serial }

/-- An unpack pass over two words. -/
def unpacking : State := { fresh with payload := [0xABCDEF9D, 0x000002A5], pass := .unpack }

/-- P3 after its lines 2 and 3. -/
def lanes : State :=
  { (((fresh.setCursor 0 4).setParity 0 false).setCursor 3 4) with payload := [0x1, 0x9, 0x8, 0x1], pmode := .neutral }

/-- An unpack pass over the rows of `lanes` and the parity bit of pin 0. -/
def unlanes : State := { fresh with payload := [0x1, 0x9, 0x8, 0x1, 0x0], pass := .unpack }

/-- A block with the header of V-H2 and the kind and fields of P5. -/
def serialReady : State :=
  ({ fresh with kind := .cpm, hdr := 0xC2453951 }.setField 0 0 5 10 |>.setField 2 0 5 3 |>.setField 1 0 5 1)

/-- A block with the header and kind of P6, and two fields. -/
def neutralReady : State := { fresh with kind := .cmmEnergy, hdr := 0xE2053902 }.setField 0 0 0 5 |>.setField 0 0 1 7

/-- A sub-block received, with a trailer. -/
def received : State :=
  { fresh with kind := .cpm, hdr := 0xC2453951, payload := [0x000D00A0, 0x0000D00A], trl := 0xDA853905, rd := .done }

/-- The state a command leaves. -/
def after (i : Instr) (s : State) : State :=
  match exec i s with
  | .next t => t
  | .fault _ => s
  | .refused _ => s

/-- The response a command gives. -/
def answer (i : Instr) (s : State) : Option Response := (after i s).resp

/-! ## One step -/

/-- V-B2, V-B1, R131's example: the bits held back are discarded. -/
theorem test_clear : after .clear packing = { fresh with resp := some ⟨.ok, 0⟩ } := by decide
theorem test_setStreamed : (after .setStreamed fresh).streamed = true ∧ answer .setStreamed packing = some ⟨.badState, 0⟩ := by
  decide
theorem test_unpackInit : (after .unpackInit unpacking).pass = .unpack ∧ answer .unpackInit packing = some ⟨.badState, 0⟩ := by
  decide
theorem test_unpackSuccess : answer .unpackSuccess fresh = some ⟨.ok, 1⟩ := by decide
theorem test_minBits : answer (.minBits 0x100) fresh = some ⟨.ok, 9⟩ ∧ answer (.minBits 0x80000000) fresh = some ⟨.ok, 32⟩ ∧
    answer (.minBits 0) fresh = some ⟨.ok, 0⟩ := by decide
theorem test_setKind : (after (.setKind 1) fresh).kind = .cpm := by decide
theorem test_dataWords : answer .dataWords packing = some ⟨.ok, 1⟩ := by decide
theorem test_timeslices : answer .timeslices neutralReady = some ⟨.ok, 2⟩ ∧ answer .timeslices fresh = some ⟨.ok, 1⟩ := by decide
/-- V-B2: the full-width field across a boundary. -/
theorem test_pack : (after (.pack 0xDEADBEEF 32) packing).payload = [0xABCDEF9D, 0xB6FBBEA5] ∧
    (after (.pack 0xDEADBEEF 32) packing).acc = 0x37A ∧ (after (.pack 0xDEADBEEF 32) packing).wcur = 10 := by decide
/-- P2 lines 7 and 8. -/
theorem test_pack_streamed :
    (after (.pack 0xABCD 16) { fresh with streamed := true, acc := 0x1FFFF, wcur := 17, pmode := .serial }).payload = [0x579BFFFF] ∧
    (after (.pack 0xABCD 16) { fresh with streamed := true, acc := 0x1FFFF, wcur := 17, pmode := .serial }).acc = 2 := by decide
theorem test_packFlush : (after .packFlush packing).payload = [0xABCDEF9D, 0x000002A5] := by decide
/-- V-B3: after 12 bits, 20 bits to the word's end. -/
theorem test_unpack : answer (.unpack 20) { unpacking with rbit := 12, pmode := .serial } = some ⟨.ok, 0xABCDE⟩ ∧
    (after (.unpack 20) { unpacking with rbit := 12, pmode := .serial }).rpos = 1 := by decide
/-- V-B3: a field across the boundary, and truncation. -/
theorem test_unpack_over : answer (.unpack 32) { unpacking with payload := [0xABCDEF9D, 0xB6FBBEA5, 0x37A], rpos := 1, rbit := 10, pmode := .serial } =
    some ⟨.ok, 0xDEADBEEF⟩ ∧ (after (.unpack 23) { unpacking with rpos := 1, rbit := 10, pmode := .serial }).ok = false := by decide
/-- P3 line 3. -/
theorem test_packNeutral : (after (.packNeutral 3 6 4) { fresh with payload := [1, 1, 0, 1], pmode := .neutral }).payload =
    [0x1, 0x9, 0x8, 0x1] := by decide
/-- P3 line 4 on a new row, with the fill word of P3's second reading. -/
theorem test_packNeutral_fill : (after (.packNeutral 19 1 1) { fresh with cfg := { block with neutralFill := 0xFFF00000 } }).payload =
    [0xFFF80000] := by decide
theorem test_packNeutralParity : (after (.packNeutralParity 0) lanes).payload = [0x1, 0x9, 0x8, 0x1, 0x0] ∧
    (after (.packNeutralParity 0) lanes).parity 0 = true := by decide
theorem test_unpackNeutral : answer (.unpackNeutral 0 4) unlanes = some ⟨.ok, 0xB⟩ ∧
    (after (.unpackNeutral 0 6) unlanes).ok = false := by decide
theorem test_unpackNeutralParityError :
    answer (.unpackNeutralParityError 0) (after (.unpackNeutral 0 4) unlanes) = some ⟨.ok, 0⟩ ∧
    answer (.unpackNeutralParityError 0) (after (.unpackNeutral 0 4) { unlanes with payload := [1, 9, 8, 1, 1] }) = some ⟨.ok, 1⟩ := by
  decide
theorem test_hdrSet : (after (.hdrSet 3 0x1FF) fresh).hdr = 0x003F0000 := by decide
theorem test_hdrGet : answer (.hdrGet 4) serialReady = some ⟨.ok, 3⟩ ∧ answer (.hdrGet 6) serialReady = some ⟨.ok, 5⟩ := by decide
theorem test_hdrWord : answer .hdrWord serialReady = some ⟨.ok, 0xC2453951⟩ ∧ answer .hdrWord fresh = some ⟨.badState, 0⟩ := by
  decide
theorem test_hdrLoad : (after (.hdrLoad 0xE0C12345) fresh).hdr = 0xE0C12345 ∧
    answer (.hdrLoad 0xD0000000) fresh = some ⟨.structural, 0⟩ := by decide
theorem test_wordType : answer (.wordType 0xBFFFFFFF) fresh = some ⟨.ok, 0⟩ ∧ answer (.wordType 0xE0000000) fresh = some ⟨.ok, 1⟩ ∧
    answer (.wordType 0xDFFFFFFF) fresh = some ⟨.ok, 2⟩ := by decide
theorem test_wordId : answer (.wordId 0xC2453951) fresh = some ⟨.ok, 0xC⟩ := by decide
theorem test_wordFormat : answer (.wordFormat 0xC2453951) fresh = some ⟨.ok, 1⟩ := by decide
theorem test_wordSeqno : answer (.wordSeqno 0xC2453951) fresh = some ⟨.ok, 5⟩ := by decide
theorem test_wordModule : answer (.wordModule 0xC2453951) fresh = some ⟨.ok, 9⟩ := by decide
/-- V-H3. -/
theorem test_stSet : (after (.stSet 0x0A800005) serialReady).trl = 0xDA853905 ∧
    (after (.stSet 0xFFFFFFFF) serialReady).trl = 0xDFC539DF ∧ (after (.stSet 0xF03FFF20) received).trl = 0 := by decide
theorem test_stGet : answer (.stGet 0) received = some ⟨.ok, 0x2A⟩ ∧ answer (.stGet 5) received = some ⟨.ok, 1⟩ ∧
    answer (.stGet 2) received = some ⟨.ok, 0⟩ := by decide
theorem test_stWord : answer .stWord received = some ⟨.ok, 0xDA853905⟩ ∧
    answer .stWord { fresh with trl := 0xD0000000 } = some ⟨.ok, 0⟩ := by decide
theorem test_stLoad : (after (.stLoad 0xD0053980) fresh).trl = 0xD0053980 ∧
    answer (.stLoad 0xC2453951) fresh = some ⟨.structural, 0⟩ := by decide
theorem test_write : (after .write received).out = [0xC2453951, 0x000D00A0, 0x0000D00A, 0xDA853905] ∧
    answer .write received = some ⟨.ok, 4⟩ := by decide
theorem test_readBegin : after .readBegin received = { fresh with kind := .cpm, rd := .expectHeader, resp := some ⟨.ok, 0⟩ } := by
  decide
/-- R232's example, its first and last words. -/
theorem test_readWord : (after (.readWord 0xC2453951) { fresh with rd := .expectHeader }).rd = .inData ∧
    answer (.readWord 0xC2463951) received = some ⟨.ok, 0⟩ ∧ answer (.readWord 0) fresh = some ⟨.badState, 0⟩ := by decide
theorem test_fieldSet : (after (.fieldSet 0 0 5 10) fresh).fields = [(5, 10)] ∧
    (after (.fieldSet 2 0 5 0) serialReady).fields = [(5, 10), (65541, 1)] := by decide
theorem test_fieldGet : answer (.fieldGet 2 0 5) serialReady = some ⟨.ok, 3⟩ ∧ answer (.fieldGet 0 0 6) serialReady = some ⟨.ok, 0⟩ := by
  decide
/-- 10 in 8 bits, 1 in 2, 3 in 8, 0 in 2: `10 | 1 << 8 | 3 << 10`, as P4's first four fields. -/
theorem test_mpack : (after .mpack serialReady).payload = [0x00000D0A] ∧ (after .mpack serialReady).pmode = .serial := by decide
/-- P6's rows for the first slice (5 and 7, odd parities 1 and 0), then V-M1's rows for the second. -/
theorem test_mpack_neutral : (after .mpack neutralReady).payload = [3, 2, 3, 1, 0, 0, 0, 3] := by decide
theorem test_munpack : (after .munpack { fresh with kind := .cpm, hdr := 0xC2453951, payload := [0x15500D0A] }).fields =
    [(5, 10), (65541, 1), (131077, 3)] := by decide
theorem test_munpack_neutral :
    (after .munpack { fresh with kind := .cmmEnergy, hdr := 0xE2053902, payload := [3, 2, 3, 0, 0, 0, 0, 3] }).fields =
      [(0, 5), (1, 7), (0xFF0000, 1)] := by decide
theorem test_roiLoad : (after (.roiLoad 0xA0000003) { fresh with kind := .cpmRoi }).fields = [(0x070001, 3)] ∧
    answer (.roiLoad 0xB0000003) { fresh with kind := .cpmRoi } = some ⟨.ok, 0⟩ := by decide
/-- R269: slices side by side up to bit 31 are an RoI layout; overlapping ones, and one beyond bit 31, are not. -/
theorem test_roiLayout : roiLayoutWf [⟨.cpmRoi, 7, 1, 0, 4⟩, ⟨.cpmRoi, 7, 0, 20, 12⟩, ⟨.cpmRoi, 8, 0, 4, 16⟩] = true ∧
    roiLayoutWf [⟨.cpmRoi, 7, 1, 0, 4⟩, ⟨.cpmRoi, 7, 0, 3, 2⟩] = false ∧ roiLayoutWf [⟨.cpmRoi, 7, 1, 31, 2⟩] = false ∧
    roiLayoutWf [⟨.cpmRoi, 7, 1, 5, 0⟩] = false := by decide
theorem test_wordHeader : (after (.wordHeaderC 1 1 5 3 9 5 1) { fresh with rd := .expectHeader }).hdr = 0xC2453951 ∧
    (after (.wordHeaderE 1 0 5 3 9 0 2) { fresh with rd := .expectHeader }).hdr = 0xE2053902 ∧
    (after (.wordHeaderF 7 7 63 15 15 15 15) { fresh with rd := .expectHeader }).hdr = 0xFFFFFFFF := by decide
theorem test_wordStatus : (after (.wordStatus 0x2A 5 3 9 0 0 0 0 0 1 0 1) { fresh with rd := .inData }).trl = 0xDA853905 := by decide
theorem test_wordData : (after (.wordData00 0x37A) { fresh with rd := .inData }).payload = [0x37A] ∧
    (after (.wordData01 0x179BFFFF) { fresh with rd := .inData }).payload = [0x579BFFFF] ∧
    (after (.wordData10 0x2BCDEF9D) { fresh with rd := .inData }).payload = [0xABCDEF9D] := by decide

/-- A PPM header with slice counts 1 and 1: its layout fills 2 words, one channel's two samples (43_marshaller.md R258). -/
def ppmLayout : SerialLayout := ⟨false, [⟨0, 0, 0, 32⟩, ⟨1, 0, 0, 32⟩]⟩

/-- A block of kind PPM with `L` as the layout of its header. -/
def ppmBlock (L : SerialLayout) : State :=
  { fresh with cfg := { block with layouts := [⟨⟨.ppm, 1, 1, 1, 1⟩, .serial L⟩] }, kind := .ppm, hdr := 0xC2453911 }

/-- R258: 2 words are one channel times two samples; 3 words are no whole number of channels. -/
theorem test_ppmLength : layoutOf (ppmBlock ppmLayout).cfg .ppm 0xC2453911 = some (.serial ppmLayout) ∧
    answer .mpack (ppmBlock ⟨false, ⟨2, 0, 0, 1⟩ :: ppmLayout.items⟩) = some ⟨.unsupported, 0⟩ := by decide

/-- R259: outside PPM a serial item of slice 1 is in no layout. -/
theorem test_oneSlice : instanceSlicesOk ⟨.cpm, 1, 1, 1, 5⟩ ⟨false, [⟨0, 1, 5, 8⟩]⟩ = false ∧
    instanceSlicesOk ⟨.cpm, 1, 1, 1, 5⟩ ⟨false, [⟨0, 0, 5, 8⟩]⟩ = true := by decide

/-! ## The invariants hold in the small states -/

/-- With the lanes as a pass starts them the other invariants are decided. -/
theorem inv_of_lanes_unused {s : State} (hc : s.pincur = Vector.replicate 32 0) (hp : s.par = Vector.replicate 32 true)
    (h : s.wcur < maxbits s.streamed ∧ s.acc.toNat < 2 ^ s.wcur ∧ s.rpos ≤ s.payload.length ∧ s.rbit < maxbits s.streamed ∧
      (s.rpos = s.payload.length → s.rbit = 0) ∧ fits s.cfg s.payload.length = true ∧
      (s.pass = .unpack → s.wcur = 0 ∧ s.acc = 0) ∧ (s.pmode ≠ .serial → s.wcur = 0 ∧ s.rbit = 0) ∧
      (s.trl = 0 ∨ wordtype s.trl = .status) ∧ s.fields.wf) : s.Inv := by
  have hl : ∀ p, s.cursor p = 0 ∧ s.parity p = true := by
    intro p
    unfold State.cursor State.parity
    rw [hc, hp]
    exact ⟨State.cursor_resetLanes s p, State.parity_resetLanes s p⟩
  obtain ⟨h1, h2, h3, h4, h5, h6, h7, h8, h9, h10⟩ := h
  exact ⟨h1, h2, h3, h4, h5, fun p _ => by rw [(hl p).1]; exact Nat.zero_le _, h6, h7, h8, fun _ => hl, h9, h10⟩

theorem fresh_inv : fresh.Inv := inv_of_lanes_unused rfl rfl (by decide)
theorem packing_inv : packing.Inv := inv_of_lanes_unused rfl rfl (by decide)
theorem unpacking_inv : unpacking.Inv := inv_of_lanes_unused rfl rfl (by decide)
theorem serialReady_inv : serialReady.Inv := inv_of_lanes_unused rfl rfl (by decide)
theorem neutralReady_inv : neutralReady.Inv := inv_of_lanes_unused rfl rfl (by decide)
theorem received_inv : received.Inv := inv_of_lanes_unused rfl rfl (by decide)

/-! ## Witnesses: states and operands that meet the hypotheses of each statement, clause by clause -/

/-- A bounded statement over a list, checked element by element. -/
theorem ball_of_all {α : Type} {p : α → Prop} [DecidablePred p] {l : List α} (h : l.all (fun x => decide (p x)) = true) :
    ∀ x ∈ l, p x := fun x hx => of_decide_eq_true (List.all_eq_true.mp h x hx)

theorem witness_EncodeInvertsDecode : decode (.cmd64 0x10000900000001F3) = .ok (.pack 0x1F3 9) := rfl

/-- An unassigned `op` next to an assigned one, and a lone bit in an unused field. -/
theorem witness_ForeignCommandWordIsIllegal :
    (∀ r ∈ commandRows, (0x0900000000000000 : CommandWord) &&& r.2 ≠ r.1) ∧
    ∀ r ∈ commandRows, (0x0100000000000001 : CommandWord) &&& r.2 ≠ r.1 :=
  ⟨ball_of_all (by decide), ball_of_all (by decide)⟩

theorem witness_StepRunsTheDecodedInstruction :
    { fresh with port := [.word (.cmd64 0x0100000000000000)] }.port = .word (.cmd64 0x0100000000000000) :: [] ∧
    decode (.cmd64 0x0100000000000000) = .ok .clear := ⟨rfl, rfl⟩

theorem witness_StepWaitsOrDrains : fresh.port = [] ∧ { fresh with port := [.drain 2] }.port = .drain 2 :: [] := ⟨rfl, rfl⟩

theorem witness_ResetGivesTheTable : step { packing with port := [.reset] } = .next fresh := rfl

theorem witness_ResetIsClearAndThreeMore : { packing with port := [.reset, .drain 1] }.port = .reset :: [.drain 1] := rfl

theorem witness_ResetStateRefuses : fresh = { State.reset with cfg := block } ∧ (32 : Slot).toNat ≤ 32 ∧
    (19 : Slot).toNat < maxPins block := ⟨rfl, by decide, by decide⟩

theorem witness_RefusalChangesNothing : exec (.pack 0 33) packing = .next (packing.refuse .badOperand) := rfl

theorem witness_IllFormedIsBadOperand : (Instr.unpackNeutral 32 0).wellFormed = false := by decide

theorem witness_EveryStepKeepsTheInvariants : ∃ t, fresh.Inv ∧ step { fresh with port := [] } = .next t := ⟨_, fresh_inv, rfl⟩

theorem witness_OkIsSticky :
    ({ unpacking with ok := false }.ok = false ∧ (after .unpackInit { unpacking with ok := false }).ok = true) ∧
    unpacking.ok = true ∧ (after (.unpack 32) { unpacking with rpos := 2 }).ok = false ∧
    unlanes.ok = true ∧ (after (.unpackNeutral 0 6) unlanes).ok = false ∧
    (after (.unpackNeutralParityError 0) { unlanes with payload := [] }).ok = false ∧
    (after .munpack { received with payload := [] }).ok = false ∧
    (after .munpack { neutralReady with payload := [3] }).ok = false := by decide

theorem witness_RegistersHaveTheirWriters :
    (after .setStreamed fresh).streamed ≠ fresh.streamed ∧ (after (.setKind 7) fresh).kind ≠ fresh.kind ∧
    (after .write received).out ≠ received.out ∧ (after (.hdrSet 0 12) fresh).hdr ≠ fresh.hdr ∧
    (after (.stSet 1) fresh).trl ≠ fresh.trl ∧ (after (.fieldSet 255 255 255 1) fresh).fields ≠ fresh.fields := by decide

theorem witness_PayloadOnlyGrows : exec .packFlush packing = .next (after .packFlush packing) ∧ 0 < packing.payload.length :=
  ⟨rfl, by decide⟩

theorem witness_CursorsNeverMoveBack : packing.Inv ∧ exec (.pack 1 22) packing = .next (after (.pack 1 22) packing) ∧
    (after (.pack 1 22) packing).streamed = packing.streamed := ⟨packing_inv, rfl, rfl⟩

theorem witness_SetStreamedBeforeAnyPacking : fresh.pmode = .none ∧ packing.pmode ≠ .none := by decide

theorem witness_UnpackInitStartsAPass : fresh.wcur = 0 ∧ packing.wcur ≠ 0 := by decide

theorem witness_QueriesAnswerTheState : packing.payload.length < 2 ^ 32 := by decide

theorem witness_SetKindWritesTheKind : kinds[(7 : Slot).toNat]? = some .cmmEnergy ∧ (8 : Slot).toNat > 7 := by decide

/-- The widths where the clauses meet, in both modes; the pass; and where a word is completed, with and without room. -/
theorem witness_PackFollowsItsRule :
    ((33 : Slot).toNat > maxbits fresh.streamed ∧ (32 : Slot).toNat ≤ maxbits fresh.streamed) ∧
    ((32 : Slot).toNat > maxbits true ∧ (31 : Slot).toNat ≤ maxbits true) ∧
    (unpacking.pass ≠ .pack ∧ lanes.pmode = .neutral ∧ packing.pass = .pack ∧ packing.pmode ≠ .neutral) ∧
    (packing.wcur + (21 : Slot).toNat < maxbits packing.streamed ∧ maxbits packing.streamed ≤ packing.wcur + (22 : Slot).toNat) ∧
    fits packing.cfg (packing.payload.length + 1) = true ∧ fits full.cfg (full.payload.length + 1) = false := by decide

theorem witness_PackingAppendsToTheBitstream : packing.Inv ∧ packing.pass = .pack ∧ packing.pmode ≠ .neutral ∧
    fits packing.cfg (packing.payload.length + 1) = true ∧ (32 : Slot).toNat ≤ maxbits packing.streamed :=
  ⟨packing_inv, by decide⟩

theorem witness_PackFlushFollowsItsRule :
    (unpacking.pass ≠ .pack ∧ lanes.pmode = .neutral) ∧ (fresh.pass = .pack ∧ fresh.pmode ≠ .neutral ∧ fresh.wcur = 0) ∧
    (packing.wcur > 0 ∧ fits packing.cfg (packing.payload.length + 1) = true) ∧
    ({ full with wcur := 1, pmode := .serial }.wcur > 0 ∧ fits full.cfg (full.payload.length + 1) = false) := by decide

/-- To exactly the last bit. -/
theorem witness_UnpackReadsTheBitstream : unpacking.Inv ∧ (32 : Slot).toNat ≤ maxbits unpacking.streamed ∧
    unpacking.pass = .unpack ∧ unpacking.pmode ≠ .neutral ∧
    readPosition { unpacking with rpos := 1 } + (32 : Slot).toNat ≤ unpacking.payload.length * maxbits unpacking.streamed :=
  ⟨unpacking_inv, by decide⟩

theorem witness_UnpackRefusesOrTruncates :
    (33 : Slot).toNat > maxbits unpacking.streamed ∧ fresh.pass ≠ .unpack ∧
    (unpacking.pass = .unpack ∧ unpacking.pmode ≠ .neutral ∧ (0 : Slot).toNat ≤ maxbits unpacking.streamed) ∧
    (unpacking.payload.length - 2) * maxbits unpacking.streamed - 0 < (1 : Slot).toNat := by decide

theorem witness_SerialRoundTrip : (∀ x ∈ [((0xDEADBEEF : Word), (32 : Slot)), (5, 0), (5, 3)], x.2.toNat ≤ maxbits packing.streamed) ∧
    fits packing.cfg (wordsFor (widthSum [(0xDEADBEEF, 32), (5, 0), (5, 3)]) (maxbits packing.streamed)) = true :=
  ⟨ball_of_all (by decide), by decide⟩

theorem witness_PackNeutralWritesItsColumn :
    ((20 : Slot).toNat ≥ maxPins lanes.cfg ∧ (33 : Slot).toNat > 32 ∧ (19 : Slot).toNat < maxPins lanes.cfg) ∧
    (unpacking.pass ≠ .pack ∧ packing.pmode = .serial ∧ lanes.pass = .pack ∧ lanes.pmode ≠ .serial) ∧
    fits full.cfg (full.cursor 0 + (1 : Slot).toNat) = false ∧ fits lanes.cfg (lanes.cursor 0 + (32 : Slot).toNat) = true := by decide

theorem witness_PackNeutralParityWritesTheParity :
    ((20 : Slot).toNat ≥ maxPins lanes.cfg ∧ (19 : Slot).toNat < maxPins lanes.cfg) ∧
    (unpacking.pass ≠ .pack ∧ packing.pmode = .serial ∧ lanes.pass = .pack ∧ lanes.pmode ≠ .serial) ∧
    fits full.cfg (full.cursor 0 + 1) = false ∧ fits lanes.cfg (lanes.cursor 0 + 1) = true := by decide

theorem witness_UnpackNeutralReadsItsColumn :
    ((20 : Slot).toNat ≥ maxPins unlanes.cfg ∧ (33 : Slot).toNat > 32 ∧ (19 : Slot).toNat < maxPins unlanes.cfg) ∧
    (lanes.pass ≠ .unpack ∧ { unpacking with pmode := .serial }.pmode = .serial ∧ unlanes.pass = .unpack ∧ unlanes.pmode ≠ .serial) ∧
    unlanes.payload.length < unlanes.cursor 19 + (6 : Slot).toNat ∧ unlanes.cursor 19 + (5 : Slot).toNat ≤ unlanes.payload.length := by
  decide

theorem witness_ParityErrorComparesTheBit :
    (unlanes.pass = .unpack ∧ unlanes.pmode ≠ .serial ∧ (19 : Slot).toNat < maxPins unlanes.cfg ∧ lanes.pass ≠ .unpack) ∧
    (unlanes.setCursor 19 5).payload.length ≤ (unlanes.setCursor 19 5).cursor 19 ∧
    (unlanes.setCursor 19 4).cursor 19 < (unlanes.setCursor 19 4).payload.length := by decide

theorem witness_ParityDetectsOddInversions : (19 : Slot).toNat < maxPins fresh.cfg ∧
    (∀ x ∈ [((0xB : Word), (4 : Slot)), (0, 0)], x.2.toNat ≤ 32) ∧ fits fresh.cfg (widthSum [(0xB, 4), (0, 0)] + 1) = true ∧
    ([0, 0, 0, 0, 0] : List Word).length = widthSum [(0xB, 4), (0, 0)] + 1 :=
  ⟨by decide, ball_of_all (by decide), by decide, by decide⟩

/-- P3 lines 2 and 3, and lines 14 and 17. -/
theorem witness_LanesCommute :
    (∃ a b c d, exec (.packNeutral 0 0xB 4) fresh = .next a ∧ exec (.packNeutral 3 6 4) a = .next b ∧
      exec (.packNeutral 3 6 4) fresh = .next c ∧ exec (.packNeutral 0 0xB 4) c = .next d ∧
      (∀ x ∈ [a, b, c, d], ∃ r, x.resp = some ⟨.ok, r⟩) ∧ b.free = fresh.free) ∧
    ∃ a b c d, exec (.unpackNeutral 0 4) unlanes = .next a ∧ exec (.unpackNeutral 3 4) a = .next b ∧
      exec (.unpackNeutral 3 4) unlanes = .next c ∧ exec (.unpackNeutral 0 4) c = .next d ∧
      (∀ x ∈ [a, b, c, d], ∃ r, x.resp = some ⟨.ok, r⟩) ∧ b.free = unlanes.free := by
  refine ⟨⟨_, _, _, _, rfl, rfl, rfl, rfl, ?_, rfl⟩, ⟨_, _, _, _, rfl, rfl, rfl, rfl, ?_, rfl⟩⟩ <;>
    · intro x hx
      simp only [List.mem_cons, List.not_mem_nil, or_false] at hx
      rcases hx with rfl | rfl | rfl | rfl <;> exact ⟨_, rfl⟩

/-- A step of a lane: a field, or the parity. -/
def lanePlan : List (Slot × Option (Word × Slot)) := [(0, some (0xB, 4)), (19, some (1, 1)), (0, none), (19, none)]

theorem witness_NeutralRoundTrip : (∀ x ∈ lanePlan, x.1.toNat < maxPins fresh.cfg ∧ laneRows x ≤ 32) ∧
    (∀ pin : Slot, lanePlan.filter (fun x => x.1 == pin) =
      [(19, some (1, 1)), (19, none), (0, some (0xB, 4)), (0, none)].filter (fun x => x.1 == pin)) ∧
    fits fresh.cfg (lanePlan.map laneRows).sum = true := by
  refine ⟨ball_of_all (by decide), fun pin => ?_, by decide⟩
  by_cases h0 : (0 : Slot) = pin
  · subst h0; decide
  · by_cases h1 : (19 : Slot) = pin
    · subst h1; decide
    · have e0 : ((0 : Slot) == pin) = false := beq_eq_false_iff_ne.mpr h0
      have e1 : ((19 : Slot) == pin) = false := beq_eq_false_iff_ne.mpr h1
      simp only [lanePlan, List.filter, e0, e1]

theorem witness_HdrSetReplacesOneField : headerFields[(7 : Slot).toNat]? = some (3, 0) ∧ (8 : Slot).toNat > 7 := by decide

theorem witness_HeaderWordIsChecked : wordtype serialReady.hdr = .header ∧ wordtype fresh.hdr ≠ .header ∧
    wordtype 0xE0000000 = .header ∧ wordtype 0xDFFFFFFF ≠ .header := by decide

theorem witness_StSetBuildsTheTrailer : (0xF03FFF20 : Word) &&& 0x0FC000DF = 0 ∧ (1 : Word) &&& 0x0FC000DF ≠ 0 := by decide

theorem witness_TrailerReadsAndLoads : trailerFields[(7 : Slot).toNat]? = some (0, 0) ∧ (8 : Slot).toNat > 7 ∧
    wordtype 0xD0000000 = .status ∧ wordtype 0xE0000000 ≠ .status := by decide

theorem witness_WriteEmitsTheSubBlock : wordtype fresh.hdr ≠ .header ∧ packing.wcur ≠ 0 ∧
    wordtype received.hdr = .header ∧ received.wcur = 0 := by decide

theorem witness_ReaderFollowsTheGrammar : fresh.rd = .idle ∧ { fresh with rd := .expectHeader }.rd = .expectHeader ∧
    { full with rd := .inData }.rd = .inData ∧ received.rd = .done ∧
    (wordtype 0xBFFFFFFF = .data ∧ wordtype 0xC0000000 = .header ∧ wordtype 0xD0000000 = .status) ∧
    fits full.cfg (full.payload.length + 1) = false ∧ fits fresh.cfg (fresh.payload.length + 1) = true := by decide

theorem witness_WireWordsReachTheReader : { fresh with rd := .expectHeader }.rd = .expectHeader ∧
    { fresh with rd := .inData }.rd = .inData ∧ fits fresh.cfg (fresh.payload.length + 1) = true := by decide

/-- A sub-block with a trailer, and one that ends at the next header. -/
theorem witness_ReadTakesOneSubBlock : wordtype 0xC2453951 = .header ∧
    fits fresh.cfg ([0x000D00A0, 0xDA853905] : List Word).length = true ∧ exec .readBegin fresh = .next (after .readBegin fresh) ∧
    (([0x000D00A0, 0xDA853905] : List Word).dropWhile (fun w => wordtype w == .data)).head? = some 0xDA853905 ∧
    (([0x000D00A0, 0xC2463951] : List Word).dropWhile (fun w => wordtype w == .data)).head? = some 0xC2463951 :=
  ⟨by decide, by decide, rfl, by decide, by decide⟩

theorem witness_WriteThenReadRestores : received.Inv ∧ wordtype received.hdr = .header ∧ received.wcur = 0 ∧
    (∀ w ∈ received.payload, wordtype w = .data) ∧ fresh.cfg = received.cfg ∧
    exec .readBegin fresh = .next (after .readBegin fresh) :=
  ⟨received_inv, by decide, by decide, ball_of_all (by decide), rfl, rfl⟩

theorem witness_FieldStoreReadsBack : serialReady.fields.wf := by decide

/-- A header count, a neutral payload's count, and neither. -/
theorem witness_TimeslicesCountsTheSlices :
    slicesHdr block .cmmEnergy 2 0 = 2 ∧
    (slicesHdr { block with slicesHdr := [⟨.cmmEnergy, 2, 0, 0⟩] } .cmmEnergy 2 0 = 0 ∧ bits 0xE2053902 24 22 = 0 ∧
      layoutOf block .cmmEnergy 0xE2053902 = some (.neutral ⟨4, [0, 1], [⟨0, 0, 0, 3⟩, ⟨1, 0, 1, 3⟩]⟩)) ∧
    bits 0xC2453951 24 22 ≠ 0 := by decide

theorem witness_MarshallerRefusals :
    (wordtype fresh.hdr ≠ .header ∧ unpacking.pass ≠ .pack ∧ packing.pmode ≠ .none ∧ received.payload ≠ [] ∧ packing.wcur ≠ 0) ∧
    (wordtype 0xC2853951 = .header ∧ bits 0xC2853951 24 22 = 2 ∧ layoutOf block .cpm 0xC4453951 = none) ∧
    layoutOf block .cpm 0xC2453951 = some (.serial ⟨false, [⟨0, 0, 5, 8⟩, ⟨1, 0, 5, 2⟩, ⟨2, 0, 5, 8⟩, ⟨3, 0, 5, 2⟩]⟩) := by decide

/-- The serial layout of the test parameters. -/
def serialLayout : SerialLayout := ⟨false, [⟨0, 0, 5, 8⟩, ⟨1, 0, 5, 2⟩, ⟨2, 0, 5, 8⟩, ⟨3, 0, 5, 2⟩]⟩

/-- The neutral layout of the test parameters. -/
def neutralLayout : NeutralLayout := ⟨4, [0, 1], [⟨0, 0, 0, 3⟩, ⟨1, 0, 1, 3⟩]⟩

theorem witness_MpackPacksASerialLayout : serialReady.Inv ∧ wordtype serialReady.hdr = .header ∧ serialReady.pass = .pack ∧
    serialReady.pmode = .none ∧ serialReady.payload = [] ∧
    layoutOf serialReady.cfg serialReady.kind serialReady.hdr = some (.serial serialLayout) ∧
    (serialReady.streamed = true → serialLayout.streamed = true) ∧
    fits serialReady.cfg (wordsFor (serialBits serialLayout) (maxbits serialLayout.streamed)) = true ∧
    fits full.cfg (wordsFor (serialBits serialLayout) (maxbits serialLayout.streamed)) = false :=
  ⟨serialReady_inv, by decide⟩

theorem witness_MpackPacksANeutralLayout : neutralReady.Inv ∧ wordtype neutralReady.hdr = .header ∧ neutralReady.pass = .pack ∧
    neutralReady.pmode = .none ∧ neutralReady.payload = [] ∧
    layoutOf neutralReady.cfg neutralReady.kind neutralReady.hdr = some (.neutral neutralLayout) ∧ neutralLayout.pins ≠ [] ∧
    max 1 (slicesHdr neutralReady.cfg neutralReady.kind (BitVec.ofNat 4 (bits neutralReady.hdr 3 0))
      (BitVec.ofNat 4 (bits neutralReady.hdr 7 4))) = 2 ∧
    fits neutralReady.cfg (2 * neutralLayout.bpspp) = true ∧ fits full.cfg (2 * neutralLayout.bpspp) = false :=
  ⟨neutralReady_inv, by decide⟩

/-- Also at a payload one word short: the last items have no bits left. -/
theorem witness_MunpackReadsASerialLayout : received.fields.wf ∧ wordtype received.hdr = .header ∧ received.wcur = 0 ∧
    layoutOf received.cfg received.kind received.hdr = some (.serial serialLayout) ∧
    (received.streamed = true → serialLayout.streamed = true) ∧
    serialBits serialLayout ≤ received.payload.length * maxbits false ∧ ¬ serialBits serialLayout ≤ 0 * maxbits false := by decide

/-- A received payload whose length gives the slice count, as the header's count is 0 (43_marshaller.md R260). -/
def manySlices (words : Nat) : State :=
  { neutralReady with cfg := { block with slicesHdr := [⟨.cmmEnergy, 2, 0, 0⟩] }, payload := List.replicate words 0 }

/-- The slice counts on both sides of the bound. -/
theorem witness_MunpackReadsANeutralLayout_bound : timeslicesOf (manySlices 1027) = 256 ∧ timeslicesOf (manySlices 1028) = 257 := by
  decide +kernel

theorem witness_MunpackReadsANeutralLayout : neutralReady.fields.wf ∧ wordtype neutralReady.hdr = .header ∧ neutralReady.wcur = 0 ∧
    layoutOf neutralReady.cfg neutralReady.kind neutralReady.hdr = some (.neutral neutralLayout) ∧ neutralLayout.pins ≠ [] ∧
    timeslicesOf neutralReady = 2 := by decide

/-- As `neutralReady`, with a layout that lists no pins. -/
def noPins : State :=
  { neutralReady with cfg := { block with layouts := block.layouts.map fun r => { r with layout := .neutral ⟨1, [], []⟩ } } }

/-- The clauses without pins of the two statements on neutral layouts. -/
theorem witness_noPins : noPins.Inv ∧ noPins.fields.wf ∧ wordtype noPins.hdr = .header ∧ noPins.pass = .pack ∧ noPins.pmode = .none ∧
    noPins.payload = [] ∧ noPins.wcur = 0 ∧ layoutOf noPins.cfg noPins.kind noPins.hdr = some (.neutral ⟨1, [], []⟩) ∧
    timeslicesOf noPins ≤ 256 := ⟨inv_of_lanes_unused rfl rfl (by decide), by decide⟩

theorem witness_SerialMarshallerRoundTrip :
    (∀ it ∈ serialLayout.items, (serialReady.field it.fid it.slice it.index).toNat < 2 ^ it.width) ∧
    exec .mpack serialReady = .next (after .mpack serialReady) ∧
    (∀ w ∈ (after .mpack serialReady).payload, wordtype w = .data) ∧ received.cfg = serialReady.cfg ∧
    received.kind = serialReady.kind ∧ (received.streamed = true → serialLayout.streamed = true) ∧
    exec .readBegin received = .next (after .readBegin received) :=
  ⟨by decide, rfl, ball_of_all (by decide), rfl, rfl, by decide, rfl⟩

/-- The clause for PPM; `serialReady` is of another kind. -/
theorem witness_SerialMarshallerRoundTrip_ppm : (ppmBlock ppmLayout).Inv ∧ (ppmBlock ppmLayout).kind = .ppm ∧
    wordtype (ppmBlock ppmLayout).hdr = .header ∧ (ppmBlock ppmLayout).pass = .pack ∧ (ppmBlock ppmLayout).pmode = .none ∧
    (ppmBlock ppmLayout).payload = [] ∧
    layoutOf (ppmBlock ppmLayout).cfg (ppmBlock ppmLayout).kind (ppmBlock ppmLayout).hdr = some (.serial ppmLayout) ∧
    (ppmBlock ppmLayout).streamed = false ∧
    fits (ppmBlock ppmLayout).cfg (wordsFor (serialBits ppmLayout) (maxbits ppmLayout.streamed)) = true ∧
    (∀ it ∈ ppmLayout.items, ((ppmBlock ppmLayout).field it.fid it.slice it.index).toNat < 2 ^ it.width) ∧
    serialReady.kind ≠ .ppm :=
  ⟨inv_of_lanes_unused rfl rfl (by decide), by decide⟩

theorem witness_NeutralMarshallerRoundTrip : (∀ it ∈ neutralLayout.items, ∀ slice < 2,
    (neutralReady.field it.fid (BitVec.ofNat 8 slice) it.index).toNat < 2 ^ it.width) ∧
    exec .mpack neutralReady = .next (after .mpack neutralReady) ∧
    (∀ w ∈ (after .mpack neutralReady).payload, wordtype w = .data) ∧
    exec .readBegin neutralReady = .next (after .readBegin neutralReady) :=
  ⟨by decide, rfl, ball_of_all (by decide), rfl⟩

theorem witness_MpackIsDetermined : serialReady.Inv ∧ { serialReady with out := [1] }.Inv ∧
    exec .mpack serialReady = .next (after .mpack serialReady) ∧ (after .mpack serialReady).resp = some ⟨.ok, 1⟩ ∧
    (after .mpack { serialReady with out := [1] }).resp = some ⟨.ok, 1⟩ :=
  ⟨serialReady_inv, inv_of_lanes_unused rfl rfl (by decide), rfl, by decide, by decide⟩

theorem witness_RoiLoadStoresItsFields :
    (fresh.kind ≠ .cpmRoi ∧ fresh.kind ≠ .jemRoi) ∧ roiMatch block .cpmRoi 0xB0000003 = false ∧
    roiMatch block .cpmRoi 0xA0000003 = true ∧ roiLayout block .cpmRoi = [⟨.cpmRoi, 7, 1, 0, 4⟩] ∧
    roiLayout { block with roiLayout := [⟨.jemRoi, 9, 0, 31, 1⟩, ⟨.jemRoi, 9, 0, 0, 31⟩] } .jemRoi =
      [] ++ ⟨.jemRoi, 9, 0, 31, 1⟩ :: [⟨.jemRoi, 9, 0, 0, 31⟩] := by decide

end Sys2Proof.Tests
end

/-! Reset and CLEAR against the table of 10_state.md R43. -/

namespace Sys2Proof.Machine

open Sys2Proof Sys2Proof.Spec

/-! ## CLEAR (40_bitstream.md R131) -/

@[simp] theorem clearState_cursor (s : State) (p : Nat) : (clearState s).cursor p = 0 := State.cursor_resetLanes s p

@[simp] theorem clearState_parity (s : State) (p : Nat) : (clearState s).parity p = true := State.parity_resetLanes s p

@[simp] theorem clearState_field (s : State) (fid slice index : Slot) : (clearState s).field fid slice index = 0 := rfl

/-- CLEAR restores every element that the last column of 10_state.md R43's table marks. -/
theorem clearedState_clearState (s : State) : clearedState (clearState s) := by
  have lanes : ∀ p < maxPins (clearState s).cfg, (clearState s).cursor p = 0 ∧ (clearState s).parity p = true :=
    fun p _ => ⟨clearState_cursor s p, clearState_parity s p⟩
  exact ⟨rfl, rfl, rfl, rfl, rfl, rfl, lanes, rfl, rfl, clearState_field s, rfl, rfl, rfl⟩

theorem completes_clear (s : State) : Completes .clear s (clearState s) 0 := rfl

/-! ## The reset input (70_reset_and_hazards.md R340, R341) -/

/-- Reset is CLEAR with the three elements that CLEAR leaves, and the response, reset besides. -/
theorem applyReset_eq_clearState (s : State) :
    applyReset s = { clearState s with streamed := false, kind := .ppm, out := [], resp := none } := rfl

/-- The elements that the table does not mark "yes", and the response, have no part in `clearedState`. -/
theorem clearedState_with_unmarked (t : State) (streamed : Bool) (kind : Kind) (out : List Word) (resp : Option Response) :
    clearedState { t with streamed := streamed, kind := kind, out := out, resp := resp } ↔ clearedState t := Iff.rfl

theorem clearedState_applyReset (s : State) : clearedState (applyReset s) := by
  rw [applyReset_eq_clearState, clearedState_with_unmarked]
  exact clearedState_clearState s

/-- The state the model starts from is one that the reset input leaves as it is. -/
theorem applyReset_reset : applyReset State.reset = State.reset := rfl

theorem step_of_port_reset {s : State} {rest : List PortEvent} (h : s.port = .reset :: rest) :
    step s = .next (applyReset { s with port := rest }) := by
  have taken : fetch s = .reset { s with port := rest } := by simp only [fetch, h]
  simp only [step, taken]

/-- Both ways into a state after reset go through `applyReset`. -/
theorem eq_applyReset_of_after_reset {t : State}
    (h : t = State.reset ∨ ∃ (s : State) (rest : List PortEvent), s.port = .reset :: rest ∧ step s = .next t) :
    ∃ s : State, t = applyReset s := by
  obtain rfl | ⟨s, rest, hport, hstep⟩ := h
  · exact ⟨State.reset, applyReset_reset.symm⟩
  · rw [step_of_port_reset hport] at hstep
    injection hstep with heq
    exact ⟨{ s with port := rest }, heq.symm⟩

/-- Settles O8: a state after reset is `applyReset` of some state, which is CLEAR's state with three elements more reset. -/
theorem resetGivesTheTable : Obligations.ResetGivesTheTable := by
  unfold Obligations.ResetGivesTheTable
  constructor
  · intro t after
    obtain ⟨s, rfl⟩ := eq_applyReset_of_after_reset after
    exact ⟨clearedState_applyReset s, rfl, rfl, rfl⟩
  · intro s
    exact ⟨clearState s, completes_clear s, clearedState_clearState s, rfl, rfl, rfl⟩

end Sys2Proof.Machine

/-! Command words and wire words (30_encoding.md): the words that decode lie in the rows of the table, a step refuses every
other command word, and the top nibble alone tells the kind of a wire word. -/

namespace Sys2Proof

/-! ## The decoder reads only words that the encoder writes -/

theorem ifUnusedZero_eq_ok {op : Slot} {unusedZero : Bool} {i j : Instr} :
    ifUnusedZero op unusedZero i = .ok j ↔ unusedZero = true ∧ i = j := by
  cases unusedZero <;> simp [ifUnusedZero]

theorem slot_eq_ofNat {x : Slot} {n : Nat} (h : x.toNat = n) : x = BitVec.ofNat 8 n := by
  rw [← h, BitVec.ofNat_toNat, BitVec.setWidth_eq]

/-- In the row of each `op`, R93's check leaves in the unused fields exactly the zeros that the encoder writes there. -/
theorem encode_of_decodeFields {op a b c : Slot} {v : Word} {i : Instr} (h : decodeFields op a b c v = .ok i) :
    encode i = .cmd64 (commandWord op a b c v) := by
  unfold decodeFields at h
  split at h
  case h_32 hop => -- FIELD_SET has no unused field
    obtain rfl := slot_eq_ofNat hop
    cases h
    rfl
  case h_37 => cases h
  all_goals
    rename_i hop
    obtain rfl := slot_eq_ofNat hop
    obtain ⟨unused, rfl⟩ := ifUnusedZero_eq_ok.mp h
    simp only [Bool.and_eq_true, beq_iff_eq] at unused
    simp [encode, unused]

theorem encode_of_decodeCommand {w : CommandWord} {i : Instr} (h : decodeCommand w = .ok i) : encode i = .cmd64 w :=
  (encode_of_decodeFields h).trans (congrArg CodeWord.cmd64 (commandWord_fields w))

/-! ## The words that the encoder writes lie in the rows -/

namespace Laws

/-- `RowMatch`, of every instruction. -/
theorem rowMatch : ∀ i : Instr, RowMatch.Statement i
  | .clear => RowMatch.clear
  | .setStreamed => RowMatch.setStreamed
  | .unpackInit => RowMatch.unpackInit
  | .unpackSuccess => RowMatch.unpackSuccess
  | .minBits .. => RowMatch.minBits ..
  | .setKind .. => RowMatch.setKind ..
  | .dataWords => RowMatch.dataWords
  | .timeslices => RowMatch.timeslices
  | .pack .. => RowMatch.pack ..
  | .packFlush => RowMatch.packFlush
  | .unpack .. => RowMatch.unpack ..
  | .packNeutral .. => RowMatch.packNeutral ..
  | .packNeutralParity .. => RowMatch.packNeutralParity ..
  | .unpackNeutral .. => RowMatch.unpackNeutral ..
  | .unpackNeutralParityError .. => RowMatch.unpackNeutralParityError ..
  | .hdrSet .. => RowMatch.hdrSet ..
  | .hdrGet .. => RowMatch.hdrGet ..
  | .hdrWord => RowMatch.hdrWord
  | .hdrLoad .. => RowMatch.hdrLoad ..
  | .wordType .. => RowMatch.wordType ..
  | .wordId .. => RowMatch.wordId ..
  | .wordFormat .. => RowMatch.wordFormat ..
  | .wordSeqno .. => RowMatch.wordSeqno ..
  | .wordModule .. => RowMatch.wordModule ..
  | .stSet .. => RowMatch.stSet ..
  | .stGet .. => RowMatch.stGet ..
  | .stWord => RowMatch.stWord
  | .stLoad .. => RowMatch.stLoad ..
  | .write => RowMatch.write
  | .readBegin => RowMatch.readBegin
  | .readWord .. => RowMatch.readWord ..
  | .fieldSet .. => RowMatch.fieldSet ..
  | .fieldGet .. => RowMatch.fieldGet ..
  | .mpack => RowMatch.mpack
  | .munpack => RowMatch.munpack
  | .roiLoad .. => RowMatch.roiLoad ..
  | .wordHeaderC .. => RowMatch.wordHeaderC ..
  | .wordHeaderE .. => RowMatch.wordHeaderE ..
  | .wordHeaderF .. => RowMatch.wordHeaderF ..
  | .wordStatus .. => RowMatch.wordStatus ..
  | .wordData00 .. => RowMatch.wordData00 ..
  | .wordData01 .. => RowMatch.wordData01 ..
  | .wordData10 .. => RowMatch.wordData10 ..

end Laws

open Laws Spec

/-- The row of an instruction that is a command is one of the 36. -/
theorem rowOf_of_encode_cmd64 {i : Instr} {w : CommandWord} (h : encode i = .cmd64 w) :
    ∃ r ∈ commandRows, rowOf i = (.cmd64 r.1, .cmd64 r.2) := by
  cases i
  case wordHeaderC | wordHeaderE | wordHeaderF | wordStatus | wordData00 | wordData01 | wordData10 => cases h
  all_goals exact ⟨(_, _), by decide, rfl⟩

/-- A command word that decodes lies in one of the 36 rows (30_encoding.md R93, R94). -/
theorem exists_commandRow_of_decodeCommand {w : CommandWord} {i : Instr} (h : decodeCommand w = .ok i) :
    ∃ r ∈ commandRows, w &&& r.2 = r.1 := by
  have hw : encode i = .cmd64 w := encode_of_decodeCommand h
  obtain ⟨r, hr, hrow⟩ := rowOf_of_encode_cmd64 hw
  have hin : inRow (encode i) (rowOf i).1 (rowOf i).2 := rowMatch i
  rw [hw, hrow] at hin
  exact ⟨r, hr, hin⟩

end Sys2Proof

namespace Sys2Proof.Machine

open Sys2Proof Sys2Proof.Spec

/-! ## A step with a word that does not decode -/

theorem step_of_decode_error {s : State} {c : CodeWord} {rest : List PortEvent} {e : DecodeError}
    (hport : s.port = .word c :: rest) (hc : decode c = .error e) :
    step s = .next ({ s with port := rest }.refuse .illegalCmd) := by
  have taken : fetch s = .illegal e { s with port := rest } := by simp only [fetch, hport, hc]
  simp only [step, taken, refuseIllegal]

/-- Settles O4: a word that decoded would lie in a row, so this one does not, and the step refuses it. -/
theorem foreignCommandWordIsIllegal : Obligations.ForeignCommandWordIsIllegal := by
  unfold Obligations.ForeignCommandWordIsIllegal
  intro s w rest hport hrows
  cases hw : decodeCommand w with
  | ok i =>
    obtain ⟨r, hr, hin⟩ := exists_commandRow_of_decodeCommand hw
    exact absurd hin (hrows r hr)
  | error e => exact step_of_decode_error hport hw

/-! ## The kind of a wire word (30_encoding.md R100) -/

/-- The top four bits as a number are the two pairs of bits that `wordtype` reads, side by side. -/
theorem bits_topNibble (w : Word) : bits w 31 28 = (w.extractLsb' 30 2 ++ w.extractLsb' 28 2).toNat := by
  rw [extractLsb'_nibble, BitVec.extractLsb'_toNat, Nat.shiftRight_eq_div_pow, bits]

/-- `wordtype` as a function of the top nibble: below 0xC the top two bits are not both set. -/
theorem wordtype_eq_of_topNibble (w : Word) :
    wordtype w = if bits w 31 28 < 0xC then .data else if bits w 31 28 = 0xD then .status else .header := by
  have pairs : ∀ hi lo : BitVec 2, (if hi = 0b11#2 then (if lo = 0b01#2 then WordKind.status else .header) else .data) =
      if (hi ++ lo).toNat < 0xC then .data else if (hi ++ lo).toNat = 0xD then .status else .header := by decide
  rw [bits_topNibble]
  exact pairs _ _

theorem bits_topNibble_lt (w : Word) : bits w 31 28 < 16 := Nat.mod_lt _ (by decide)

/-- Settles O19: in each of the three ranges of the nibble what is left is arithmetic below 16. -/
theorem wordKindIsDecidedByTheTopNibble : Obligations.WordKindIsDecidedByTheTopNibble := by
  unfold Obligations.WordKindIsDecidedByTheTopNibble
  intro w
  rw [wordtype_eq_of_topNibble]
  have lt := bits_topNibble_lt w
  split_ifs
  all_goals
    simp only [true_iff, false_iff]
    omega

end Sys2Proof.Machine

/-! The commands of 40_bitstream.md, one at a time: control and queries, then the serial packer and unpacker with the
numbers that R134 and R136 compute. -/

namespace Sys2Proof.Machine

open Sys2Proof Sys2Proof.Spec

/-! ## The outcome of a command from what its body gives -/

theorem exec_setStreamed (s : State) : exec .setStreamed s = finish s (noResult (setStreamedBody s)) := rfl
theorem exec_unpackInit (s : State) : exec .unpackInit s = finish s (noResult (unpackInitBody s)) := rfl
theorem exec_pack (value : Word) (nbits : Slot) (s : State) :
    exec (.pack value nbits) s = finish s (noResult (packBody value nbits.toNat s)) := rfl
theorem exec_packFlush (s : State) : exec .packFlush s = finish s (noResult (packFlushBody s)) := rfl
theorem exec_unpack (nbits : Slot) (s : State) : exec (.unpack nbits) s = finish s (unpackBody nbits.toNat s) := rfl

section

variable {i : Instr} {s t : State} {r : Word} {c : Status}

theorem completes_of_ok {body : Except Status (State × Word)} (hexec : exec i s = finish s body) (hbody : body = .ok (t, r)) :
    Completes i s t r := by
  rw [Completes, hexec, hbody, finish_ok]

theorem refusedWith_of_error {body : Except Status (State × Word)} (hexec : exec i s = finish s body)
    (hbody : body = .error c) : RefusedWith i s c := by
  rw [RefusedWith, hexec, hbody, finish_error]

theorem completes_of_noResult_ok {body : Except Status State} (hexec : exec i s = finish s (noResult body))
    (hbody : body = .ok t) : Completes i s t 0 :=
  completes_of_ok hexec (noResult_ok_iff.mpr ⟨hbody, rfl⟩)

theorem refusedWith_of_noResult_error {body : Except Status State} (hexec : exec i s = finish s (noResult body))
    (hbody : body = .error c) : RefusedWith i s c :=
  refusedWith_of_error hexec (noResult_error_iff.mpr hbody)

end

/-! ## Control and queries -/

/-- Settles O21, by CLEAR's state `clearState s`. -/
theorem clearEmptiesTheSubBlock : Obligations.ClearEmptiesTheSubBlock := by
  unfold Obligations.ClearEmptiesTheSubBlock
  intro s
  have lanes : ∀ p, (clearState s).cursor p = 0 ∧ (clearState s).parity p = true :=
    fun p => ⟨clearState_cursor s p, clearState_parity s p⟩
  exact ⟨clearState s, completes_clear s, rfl, lanes, clearState_field s⟩

/-- Settles O22, by the two ends of `setStreamedBody`. -/
theorem setStreamedBeforeAnyPacking : Obligations.SetStreamedBeforeAnyPacking := by
  unfold Obligations.SetStreamedBeforeAnyPacking
  intro s
  constructor
  · intro hmode
    exact completes_of_noResult_ok (exec_setStreamed s) (setStreamedBody_ok_iff.mpr ⟨hmode, rfl⟩)
  · intro hmode
    exact refusedWith_of_noResult_error (exec_setStreamed s) (setStreamedBody_error_iff.mpr ⟨hmode, rfl⟩)

/-- Settles O23, by the two ends of `unpackInitBody`; the lanes are those of `resetLanes`. -/
theorem unpackInitStartsAPass : Obligations.UnpackInitStartsAPass := by
  unfold Obligations.UnpackInitStartsAPass
  intro s
  constructor
  · intro hflushed
    have completes := completes_of_noResult_ok (exec_unpackInit s) (unpackInitBody_ok_iff.mpr ⟨hflushed, rfl⟩)
    exact ⟨_, completes, rfl, fun p => ⟨State.cursor_resetLanes s p, State.parity_resetLanes s p⟩⟩
  · intro hheld
    exact refusedWith_of_noResult_error (exec_unpackInit s) (unpackInitBody_error_iff.mpr ⟨hheld, rfl⟩)

theorem completes_unpackSuccess (s : State) : Completes .unpackSuccess s s (boolWord s.ok) := rfl

theorem completes_dataWords (s : State) : Completes .dataWords s s (countWord s.payload.length) := rfl

theorem completes_minBits (value : Word) (s : State) :
    Completes (.minBits value) s s (BitVec.ofNat 32 (minBitsOf value)) := rfl

theorem countWord_of_lt {n : Nat} (h : n < 2 ^ 32) : countWord n = BitVec.ofNat 32 n := if_pos h

/-- Settles O24; a count that does not fit is answered too, with `countWord`'s open value. -/
theorem queriesAnswerTheState : Obligations.QueriesAnswerTheState := by
  unfold Obligations.QueriesAnswerTheState
  intro s
  refine ⟨completes_unpackSuccess s, ?_, _, completes_dataWords s⟩
  intro hlen
  rw [← countWord_of_lt hlen]
  exact completes_dataWords s

/-! ## MIN_BITS (40_bitstream.md R145) -/

/-- The loop ends at a width that holds the value, if one lies within its fuel. -/
theorem lt_two_pow_minBitsFrom {value fuel n : Nat} (h : value < 2 ^ (n + fuel)) :
    value < 2 ^ minBitsFrom value fuel n := by
  induction fuel generalizing n with
  | zero => exact h
  | succ fuel ih =>
    unfold minBitsFrom
    split
    · exact ih (by rwa [Nat.add_right_comm])
    · omega

/-- The loop passes no width that holds the value. -/
theorem minBitsFrom_le {value fuel n m : Nat} (hn : n ≤ m) (hm : value < 2 ^ m) : minBitsFrom value fuel n ≤ m := by
  induction fuel generalizing n with
  | zero => exact hn
  | succ fuel ih =>
    unfold minBitsFrom
    split
    · rename_i hge
      have : n < m := (Nat.pow_lt_pow_iff_right Nat.one_lt_two).mp (Nat.lt_of_le_of_lt hge hm)
      exact ih this
    · exact hn

/-- Settles O25: from 0 the loop passes no width that suffices, 32 among them, and 32 steps reach one. -/
theorem minBitsIsTheSmallestWidth : Obligations.MinBitsIsTheSmallestWidth := by
  unfold Obligations.MinBitsIsTheSmallestWidth
  intro value s
  have smallest : ∀ m, value.toNat < 2 ^ m → minBitsOf value ≤ m := fun m hm => minBitsFrom_le (Nat.zero_le m) hm
  have holds : value.toNat < 2 ^ minBitsOf value := lt_two_pow_minBitsFrom (by rw [Nat.zero_add]; exact value.isLt)
  exact ⟨minBitsOf value, smallest 32 value.isLt, completes_minBits value s, holds, smallest⟩

/-! ## The checks of the serial commands (40_bitstream.md R133) -/

theorem maySerialPack_eq_false_iff {s : State} : maySerialPack s = false ↔ s.pass ≠ .pack ∨ s.pmode = .neutral := by
  rw [← Bool.not_eq_true, maySerialPack_iff, not_and_or, not_not]

theorem maySerialUnpack_eq_false_iff {s : State} : maySerialUnpack s = false ↔ s.pass ≠ .unpack ∨ s.pmode = .neutral := by
  rw [← Bool.not_eq_true, maySerialUnpack_iff, not_and_or, not_not]

section

variable {s : State} {nbits : Nat}

theorem packBody_badOperand (value : Word) (h : maxbits s.streamed < nbits) :
    packBody value nbits s = .error .badOperand := by
  simp [packBody, serialWidthOk, h]

theorem packBody_badState (value : Word) (hn : nbits ≤ maxbits s.streamed) (h : s.pass ≠ .pack ∨ s.pmode = .neutral) :
    packBody value nbits s = .error .badState := by
  simp [packBody, serialWidthOk, hn, maySerialPack_eq_false_iff.mpr h]

theorem packFlushBody_badState (h : s.pass ≠ .pack ∨ s.pmode = .neutral) : packFlushBody s = .error .badState := by
  simp [packFlushBody, maySerialPack_eq_false_iff.mpr h]

theorem unpackBody_badOperand (h : maxbits s.streamed < nbits) : unpackBody nbits s = .error .badOperand := by
  simp [unpackBody, serialWidthOk, h]

theorem unpackBody_badState (hn : nbits ≤ maxbits s.streamed) (h : s.pass ≠ .unpack ∨ s.pmode = .neutral) :
    unpackBody nbits s = .error .badState := by
  simp [unpackBody, serialWidthOk, hn, maySerialUnpack_eq_false_iff.mpr h]

end

/-! ## The packer's words as numbers (40_bitstream.md R134) -/

theorem word_eq_ofNat {w : Word} {n : Nat} (h : w.toNat = n) : w = BitVec.ofNat 32 n := (BitVec.toNat_eq_nat.mp h).2

/-- `acc | (x << k)`, cut to the word; `k` may be past the word's end. -/
theorem toNat_or_shiftLeft (acc x : Word) (k : Nat) :
    (acc ||| (x <<< k)).toNat = (acc.toNat ||| x.toNat * 2 ^ k) % 2 ^ 32 := by
  rw [BitVec.toNat_or, BitVec.toNat_shiftLeft, Nat.shiftLeft_eq, Nat.or_mod_two_pow, Nat.mod_eq_of_lt acc.isLt]

/-- A word below bit 31 with the marker set: the marker adds, for it meets no bit. -/
theorem toNat_or_mark {w : Word} (h : w.toNat < 2 ^ 31) : (w ||| 0x80000000).toNat = w.toNat + 2 ^ 31 := by
  calc (w ||| 0x80000000).toNat = 2 ^ 31 ||| w.toNat := by rw [BitVec.toNat_or, Nat.or_comm]; rfl
    _ = w.toNat + 2 ^ 31 := by simpa [Nat.add_comm] using (Nat.two_pow_add_eq_or_of_lt h 1).symm

theorem toNat_and_maxmask (streamed : Bool) (w : Word) :
    (w &&& maxmask streamed).toNat = w.toNat % 2 ^ maxbits streamed := by
  rw [maxmask_eq_mask, toNat_and_mask w (maxbits_le streamed)]

/-- The completed word: cut to `maxbits` bits, the marker added where the block marks. -/
theorem toNat_emittedWord (s : State) (a : Word) :
    (emittedWord s a).toNat = a.toNat % 2 ^ maxbits s.streamed + markOf s := by
  unfold emittedWord markOf
  dsimp only
  split
  · rename_i hmark
    have hstreamed : s.streamed = true := (Bool.and_eq_true_iff.mp hmark).1
    have hcut : (a &&& maxmask s.streamed).toNat < 2 ^ 31 := by
      rw [toNat_and_maxmask, hstreamed]
      exact Nat.mod_lt _ (Nat.two_pow_pos 31)
    rw [toNat_or_mark hcut, toNat_and_maxmask]
  · exact toNat_and_maxmask s.streamed a

/-! ## PACK, on numbers (40_bitstream.md R134) -/

section

variable {s : State} {value : Word} {nbits x a : Nat}

/-- R134's `a`: the bits of `x` above the `wcur` bits held. -/
theorem toNat_packedAcc (hn : nbits ≤ 32) (hx : x = value.toNat % 2 ^ nbits)
    (ha : a = (s.acc.toNat ||| x * 2 ^ s.wcur) % 2 ^ 32) :
    (s.acc ||| ((value &&& mask nbits) <<< s.wcur)).toNat = a := by
  rw [toNat_or_shiftLeft, toNat_and_mask value hn, ha, hx]

/-- The bits of `x` that a completed word leaves over. -/
theorem toNat_carriedBits (hn : nbits ≤ 32) (hx : x = value.toNat % 2 ^ nbits) (k : Nat) :
    ((value &&& mask nbits) >>> k).toNat = x / 2 ^ k := by
  rw [BitVec.toNat_ushiftRight, Nat.shiftRight_eq_div_pow, toNat_and_mask value hn, hx]

theorem packStep_within_toNat (hn : nbits ≤ 32) (hx : x = value.toNat % 2 ^ nbits)
    (ha : a = (s.acc.toNat ||| x * 2 ^ s.wcur) % 2 ^ 32) (hc : s.wcur + nbits < maxbits s.streamed) :
    packStep value nbits s = .ok { s with acc := BitVec.ofNat 32 a, wcur := s.wcur + nbits, pmode := .serial } := by
  rw [packStep_within value hc, word_eq_ofNat (toNat_packedAcc hn hx ha)]

theorem packStep_over_toNat (hn : nbits ≤ 32) (hx : x = value.toNat % 2 ^ nbits)
    (ha : a = (s.acc.toNat ||| x * 2 ^ s.wcur) % 2 ^ 32) (hc : maxbits s.streamed ≤ s.wcur + nbits)
    (hroom : fits s.cfg (s.payload.length + 1) = true) :
    packStep value nbits s =
      .ok { s with payload := s.payload ++ [BitVec.ofNat 32 (a % 2 ^ maxbits s.streamed + markOf s)],
                   acc := BitVec.ofNat 32 (x / 2 ^ (nbits - (s.wcur + nbits - maxbits s.streamed))),
                   wcur := s.wcur + nbits - maxbits s.streamed, pmode := .serial } := by
  have emitted := word_eq_ofNat (toNat_emittedWord s (s.acc ||| ((value &&& mask nbits) <<< s.wcur)))
  rw [toNat_packedAcc hn hx ha] at emitted
  rw [packStep_over value hc hroom, emitted, word_eq_ofNat (toNat_carriedBits hn hx _)]

end

/-- Settles O27: after the two checks PACK is `packStep`, whose three ends are told apart by `c` and by the room. -/
theorem packFollowsItsRule : Obligations.PackFollowsItsRule := by
  unfold Obligations.PackFollowsItsRule
  intro s value nbits
  refine ⟨fun hwide => refusedWith_of_noResult_error (exec_pack value nbits s) (packBody_badOperand value hwide), ?_⟩
  intro hn
  refine ⟨fun hstate => refusedWith_of_noResult_error (exec_pack value nbits s) (packBody_badState value hn hstate), ?_⟩
  intro hpass hmode x a c hx ha hc
  have body : packBody value nbits.toNat s = packStep value nbits.toNat s := packBody_eq value hn hpass hmode
  have hn32 : nbits.toNat ≤ 32 := hn.trans (maxbits_le s.streamed)
  subst hc
  refine ⟨?within, ?full, ?completed⟩
  case within =>
    intro hc
    exact completes_of_noResult_ok (exec_pack value nbits s) (body.trans (packStep_within_toNat hn32 hx ha hc))
  case full =>
    intro hc hroom
    exact refusedWith_of_noResult_error (exec_pack value nbits s) (body.trans (packStep_full value hc hroom))
  case completed =>
    intro hc hroom
    exact completes_of_noResult_ok (exec_pack value nbits s) (body.trans (packStep_over_toNat hn32 hx ha hc hroom))

/-! ## PACK_FLUSH (40_bitstream.md R136) -/

section

variable {s : State}

theorem packFlushBody_of_wcur_eq_zero (hpass : s.pass = .pack) (hmode : s.pmode ≠ .neutral) (hw : s.wcur = 0) :
    packFlushBody s = .ok { s with pmode := .serial } := by
  simp [packFlushBody, maySerialPack_iff.mpr ⟨hpass, hmode⟩, hw]

theorem packFlushBody_full (hpass : s.pass = .pack) (hmode : s.pmode ≠ .neutral) (hw : 0 < s.wcur)
    (hroom : fits s.cfg (s.payload.length + 1) = false) : packFlushBody s = .error .full := by
  simp [packFlushBody, maySerialPack_iff.mpr ⟨hpass, hmode⟩, hw, memAppend, hroom]

theorem packFlushBody_emits (hpass : s.pass = .pack) (hmode : s.pmode ≠ .neutral) (hw : 0 < s.wcur)
    (hroom : fits s.cfg (s.payload.length + 1) = true) :
    packFlushBody s =
      .ok { s with payload := s.payload ++ [emittedWord s s.acc], acc := 0, wcur := 0, pmode := .serial } := by
  simp [packFlushBody, maySerialPack_iff.mpr ⟨hpass, hmode⟩, hw, memAppend, hroom]

end

/-- Settles O29: after the check of the pass the ends are told apart by `wcur` and by the room. -/
theorem packFlushFollowsItsRule : Obligations.PackFlushFollowsItsRule := by
  unfold Obligations.PackFlushFollowsItsRule
  intro s
  refine ⟨fun hstate => refusedWith_of_noResult_error (exec_packFlush s) (packFlushBody_badState hstate), ?_⟩
  intro hpass hmode
  refine ⟨?empty, ?full, ?emits⟩
  case empty =>
    intro hw
    exact completes_of_noResult_ok (exec_packFlush s) (packFlushBody_of_wcur_eq_zero hpass hmode hw)
  case full =>
    intro hw hroom
    exact refusedWith_of_noResult_error (exec_packFlush s) (packFlushBody_full hpass hmode hw hroom)
  case emits =>
    intro hw hroom
    rw [← word_eq_ofNat (toNat_emittedWord s s.acc)]
    exact completes_of_noResult_ok (exec_packFlush s) (packFlushBody_emits hpass hmode hw hroom)

/-! ## UNPACK without a field to give (40_bitstream.md R142, R143) -/

section

variable {s : State}

theorem unpackBody_zero (hpass : s.pass = .unpack) (hmode : s.pmode ≠ .neutral) :
    unpackBody 0 s = .ok ({ s with pmode := .serial }, 0) := by
  simp [unpackBody, serialWidthOk, maySerialUnpack_iff.mpr ⟨hpass, hmode⟩]

theorem unpackBody_truncated {nbits : Nat} (hn : nbits ≤ maxbits s.streamed) (hpass : s.pass = .unpack)
    (hmode : s.pmode ≠ .neutral) (hshort : availableBits s < nbits) :
    unpackBody nbits s = .ok (unpackTruncated { s with pmode := .serial }) := by
  have hne : nbits ≠ 0 := by omega
  have hshort' : availableBits { s with pmode := .serial } < nbits := hshort
  simp [unpackBody, serialWidthOk, hn, maySerialUnpack_iff.mpr ⟨hpass, hmode⟩, hne, hshort']

end

/-- Settles O31; a truncated UNPACK draws the model's next free word. -/
theorem unpackRefusesOrTruncates : Obligations.UnpackRefusesOrTruncates := by
  unfold Obligations.UnpackRefusesOrTruncates
  intro s nbits
  refine ⟨?wide, ?state, ?accepted⟩
  case wide =>
    intro hwide
    exact refusedWith_of_error (exec_unpack nbits s) (unpackBody_badOperand hwide)
  case state =>
    intro hn hstate
    exact refusedWith_of_error (exec_unpack nbits s) (unpackBody_badState hn hstate)
  case accepted =>
    intro hn hpass hmode
    constructor
    · rintro rfl
      exact completes_of_ok (exec_unpack 0 s) (unpackBody_zero hpass hmode)
    · intro hshort
      exact ⟨Config.freeWord s.free,
        completes_of_ok (exec_unpack nbits s) (unpackBody_truncated hn hpass hmode hshort)⟩

end Sys2Proof.Machine

/-! The commands of 41_neutral.md, one at a time: what a step of a lane does to its registers and its column, then
PACK_NEUTRAL, PACK_NEUTRAL_PARITY and UNPACK_NEUTRAL case by case. -/

namespace Sys2Proof.Machine

open Sys2Proof Sys2Proof.Spec

theorem exec_packNeutral (pin : Slot) (value : Word) (nbits : Slot) (s : State) :
    exec (.packNeutral pin value nbits) s = finish s (noResult (packNeutralBody pin.toNat value nbits.toNat s)) := rfl
theorem exec_packNeutralParity (pin : Slot) (s : State) :
    exec (.packNeutralParity pin) s = finish s (noResult (packNeutralParityBody pin.toNat s)) := rfl
theorem exec_unpackNeutral (pin nbits : Slot) (s : State) :
    exec (.unpackNeutral pin nbits) s = finish s (unpackNeutralBody pin.toNat nbits.toNat s) := rfl

/-! ## The parity of a field (41_neutral.md R178) -/

theorem oddOnes_succ (value : Word) (n : Nat) : oddOnes value (n + 1) = (oddOnes value n ^^ value.getLsbD n) := by
  have bits_succ : lowBits value (n + 1) = lowBits value n ++ [value.getLsbD n] := by
    simp [lowBits, List.range_succ, BitVec.getLsbD]
  rw [oddOnes, oddOnes, bits_succ, List.count_append]
  cases value.getLsbD n with
  | false => simp
  | true =>
    rcases Nat.mod_two_eq_zero_or_one ((lowBits value n).count true) with h | h <;> simp [Nat.add_mod, h]

/-- The fold of a field into a parity flips it exactly when the field holds an odd number of ones. -/
theorem foldParityBits_eq_xor_oddOnes (par : Bool) (value : Word) (n : Nat) :
    foldParityBits par value n = (par ^^ oddOnes value n) := by
  induction n with
  | zero => exact (Bool.xor_false par).symm
  | succ n ih => rw [foldParityBits, foldParity, ih, oddOnes_succ, Bool.xor_assoc]

/-! ## One step of a lane -/

/-- The lane registers after `nbits` bits of lane `pin`, its parity left at `parity`. -/
def State.moveLane (s : State) (pin nbits : Nat) (parity : Bool) : State :=
  (s.setParity pin parity).setCursor pin (s.cursor pin + nbits)

/-- The payload after `nbits` bits of `value` went down lane `pin` from its cursor (41_neutral.md R172, R173). -/
def packedColumn (s : State) (pin : Nat) (value : Word) (nbits : Nat) : List Word :=
  putBits pin (s.cursor pin) value nbits (growTo s.cfg.neutralFill (s.cursor pin + nbits) s.payload)

/-- The state that an accepted pack on lane `pin` makes; the two packs differ in the bits and in the parity left. -/
def packedLane (s : State) (pin : Nat) (value : Word) (nbits : Nat) (parity : Bool) : State :=
  { s.moveLane pin nbits parity with payload := packedColumn s pin value nbits, pmode := .neutral }

section

variable {pin : Nat} (hp : pin < 32) (s : State)

include hp

theorem State.cursor_moveLane (nbits : Nat) (parity : Bool) (q : Nat) :
    (s.moveLane pin nbits parity).cursor q = if q = pin then s.cursor q + nbits else s.cursor q := by
  rw [State.moveLane, State.cursor_setCursor _ _ _ _ hp, State.cursor_setParity]
  by_cases h : q = pin
  · rw [if_pos h.symm, if_pos h, h]
  · rw [if_neg (Ne.symm h), if_neg h]

theorem State.parity_moveLane (nbits : Nat) (parity : Bool) (q : Nat) :
    (s.moveLane pin nbits parity).parity q = if q = pin then parity else s.parity q := by
  rw [State.moveLane, State.parity_setCursor, State.parity_setParity _ _ _ _ hp]
  simp only [@eq_comm _ pin q]

/-- The parity of each lane after a step of lane `pin` that folds `nbits` bits of `value` in. -/
theorem State.parity_moveLane_fold (value : Word) (nbits q : Nat) :
    (s.moveLane pin nbits (s.parity pin ^^ oddOnes value nbits)).parity q =
      if q = pin then s.parity q ^^ oddOnes value nbits else s.parity q := by
  rw [State.parity_moveLane hp]
  refine if_ctx_congr Iff.rfl ?_ (fun _ => rfl)
  rintro rfl
  rfl

/-- Every bit of the payload after a pack: the field's in its column, else the old row's, else the fill's. -/
theorem laneBit_packedColumn (value : Word) (nbits : Nat) {row : Nat}
    (hrow : row < (packedColumn s pin value nbits).length) (col : Nat) :
    laneBit (packedColumn s pin value nbits) col row =
      if col = pin ∧ s.cursor col ≤ row ∧ row < s.cursor col + nbits then value.toNat.testBit (row - s.cursor col)
      else if row < s.payload.length then laneBit s.payload col row else s.cfg.neutralFill.toNat.testBit col := by
  rw [packedColumn, length_putBits, length_growTo] at hrow
  rw [laneBit, packedColumn, getLsbD_putBits value hp (by rw [length_growTo]; omega), memRead_growTo _ _ hrow]
  by_cases hcol : col = pin
  · subst hcol
    split_ifs <;> rfl
  · simp only [hcol, false_and, if_false]
    split_ifs <;> rfl

end

theorem length_packedColumn (s : State) (pin : Nat) (value : Word) (nbits : Nat) :
    (packedColumn s pin value nbits).length = max s.payload.length (s.cursor pin + nbits) := by
  rw [packedColumn, length_putBits, length_growTo]

/-- The one bit of a pack of the parity stands at the cursor. -/
theorem laneBit_packedColumn_boolWord {pin : Nat} (hp : pin < 32) (s : State) {row : Nat}
    (hrow : row < (packedColumn s pin (boolWord (s.parity pin)) 1).length) (col : Nat) :
    laneBit (packedColumn s pin (boolWord (s.parity pin)) 1) col row =
      if col = pin ∧ row = s.cursor col then s.parity col
      else if row < s.payload.length then laneBit s.payload col row else s.cfg.neutralFill.toNat.testBit col := by
  rw [laneBit_packedColumn hp s _ _ hrow]
  have at_cursor : s.cursor col ≤ row ∧ row < s.cursor col + 1 ↔ row = s.cursor col := by omega
  simp only [at_cursor]
  refine if_ctx_congr Iff.rfl ?_ (fun _ => rfl)
  rintro ⟨rfl, rfl⟩
  rw [Nat.sub_self, ← BitVec.getLsbD, getLsbD_boolWord]
  simp

/-! ## The checks of the neutral commands (41_neutral.md R171) -/

theorem mayNeutralPack_eq_false_iff {s : State} : mayNeutralPack s = false ↔ s.pass ≠ .pack ∨ s.pmode = .serial := by
  rw [← Bool.not_eq_true, mayNeutralPack_iff, not_and_or, not_not]

theorem mayNeutralUnpack_eq_false_iff {s : State} : mayNeutralUnpack s = false ↔ s.pass ≠ .unpack ∨ s.pmode = .serial := by
  rw [← Bool.not_eq_true, mayNeutralUnpack_iff, not_and_or, not_not]

theorem pinOk_eq_false_iff {s : State} {pin : Nat} : pinOk s pin = false ↔ maxPins s.cfg ≤ pin := by
  simp [pinOk]

/-- The operands of a neutral command with a width. -/
theorem laneOperandsOk_iff {s : State} {pin nbits : Nat} :
    (pinOk s pin && neutralWidthOk nbits) = true ↔ pin < maxPins s.cfg ∧ nbits ≤ 32 := by
  simp [pinOk, neutralWidthOk]

theorem laneOperandsOk_eq_false_iff {s : State} {pin nbits : Nat} :
    (pinOk s pin && neutralWidthOk nbits) = false ↔ maxPins s.cfg ≤ pin ∨ 32 < nbits := by
  rw [← Bool.not_eq_true, laneOperandsOk_iff, not_and_or, not_lt, not_le]

section

variable {s : State} {pin nbits : Nat}

theorem packNeutralBody_badOperand (value : Word) (h : maxPins s.cfg ≤ pin ∨ 32 < nbits) :
    packNeutralBody pin value nbits s = .error .badOperand := by
  rw [packNeutralBody, laneOperandsOk_eq_false_iff.mpr h]
  rfl

theorem packNeutralParityBody_badOperand (h : maxPins s.cfg ≤ pin) :
    packNeutralParityBody pin s = .error .badOperand := by
  rw [packNeutralParityBody, pinOk_eq_false_iff.mpr h]
  rfl

theorem unpackNeutralBody_badOperand (h : maxPins s.cfg ≤ pin ∨ 32 < nbits) :
    unpackNeutralBody pin nbits s = .error .badOperand := by
  rw [unpackNeutralBody, laneOperandsOk_eq_false_iff.mpr h]
  rfl

theorem packNeutralBody_badState (value : Word) (hpin : pin < maxPins s.cfg) (hn : nbits ≤ 32)
    (h : s.pass ≠ .pack ∨ s.pmode = .serial) : packNeutralBody pin value nbits s = .error .badState := by
  rw [packNeutralBody, laneOperandsOk_iff.mpr ⟨hpin, hn⟩, mayNeutralPack_eq_false_iff.mpr h]
  rfl

theorem packNeutralParityBody_badState (hpin : pin < maxPins s.cfg) (h : s.pass ≠ .pack ∨ s.pmode = .serial) :
    packNeutralParityBody pin s = .error .badState := by
  rw [packNeutralParityBody, pinOk, decide_eq_true hpin, mayNeutralPack_eq_false_iff.mpr h]
  rfl

theorem unpackNeutralBody_badState (hpin : pin < maxPins s.cfg) (hn : nbits ≤ 32)
    (h : s.pass ≠ .unpack ∨ s.pmode = .serial) : unpackNeutralBody pin nbits s = .error .badState := by
  rw [unpackNeutralBody, laneOperandsOk_iff.mpr ⟨hpin, hn⟩, mayNeutralUnpack_eq_false_iff.mpr h]
  rfl

/-- After the checks PACK_NEUTRAL is decided by the room alone. -/
theorem packNeutralBody_eq (value : Word) (hpin : pin < maxPins s.cfg) (hn : nbits ≤ 32) (hpass : s.pass = .pack)
    (hmode : s.pmode ≠ .serial) :
    packNeutralBody pin value nbits s =
      if fits s.cfg (s.cursor pin + nbits) = true then
        .ok (packedLane s pin value nbits (s.parity pin ^^ oddOnes value nbits))
      else .error .full := by
  rw [packNeutralBody, laneOperandsOk_iff.mpr ⟨hpin, hn⟩, mayNeutralPack_iff.mpr ⟨hpass, hmode⟩,
    foldParityBits_eq_xor_oddOnes]
  dsimp only
  cases fits s.cfg (s.cursor pin + nbits) <;> rfl

/-- After the checks PACK_NEUTRAL_PARITY is decided by the room alone. -/
theorem packNeutralParityBody_eq (hpin : pin < maxPins s.cfg) (hpass : s.pass = .pack) (hmode : s.pmode ≠ .serial) :
    packNeutralParityBody pin s =
      if fits s.cfg (s.cursor pin + 1) = true then .ok (packedLane s pin (boolWord (s.parity pin)) 1 true)
      else .error .full := by
  rw [packNeutralParityBody, pinOk, decide_eq_true hpin, mayNeutralPack_iff.mpr ⟨hpass, hmode⟩]
  dsimp only
  cases fits s.cfg (s.cursor pin + 1) <;> rfl

/-- After the checks UNPACK_NEUTRAL is decided by the width and by the rows that are left. -/
theorem unpackNeutralBody_eq (hpin : pin < maxPins s.cfg) (hn : nbits ≤ 32) (hpass : s.pass = .unpack)
    (hmode : s.pmode ≠ .serial) :
    unpackNeutralBody pin nbits s =
      if nbits = 0 then .ok ({ s with pmode := .neutral }, 0)
      else if s.payload.length < s.cursor pin + nbits then
        .ok ({ s with ok := false, pmode := .neutral, free := s.free + 1 }, Config.freeWord s.free)
      else
        .ok ({ s with pmode := .neutral }.moveLane pin nbits
            (s.parity pin ^^ oddOnes (getBits s.payload pin (s.cursor pin) nbits) nbits),
          getBits s.payload pin (s.cursor pin) nbits) := by
  rw [unpackNeutralBody, laneOperandsOk_iff.mpr ⟨hpin, hn⟩, mayNeutralUnpack_iff.mpr ⟨hpass, hmode⟩]
  dsimp only
  rw [foldParityBits_eq_xor_oddOnes]
  rfl

end

/-! ## The statements -/

/-- Settles O33: after the checks the room decides, and the accepted state is `packedLane`. -/
theorem packNeutralWritesItsColumn : Obligations.PackNeutralWritesItsColumn := by
  unfold Obligations.PackNeutralWritesItsColumn
  intro s pin nbits value
  have hexec := exec_packNeutral pin value nbits s
  refine ⟨fun hop => refusedWith_of_noResult_error hexec (packNeutralBody_badOperand value hop), ?_⟩
  intro hpin hn
  refine ⟨fun hstate => refusedWith_of_noResult_error hexec (packNeutralBody_badState value hpin hn hstate), ?_⟩
  intro hpass hmode
  have body := packNeutralBody_eq value hpin hn hpass hmode
  have hp : pin.toNat < 32 := hpin.trans_le (maxPins_le s.cfg)
  refine ⟨?full, ?packed⟩
  case full =>
    intro hroom
    exact refusedWith_of_noResult_error hexec (body.trans (if_neg (Bool.eq_false_iff.mp hroom)))
  case packed =>
    intro hroom
    exact ⟨_, completes_of_noResult_ok hexec (body.trans (if_pos hroom)), rfl,
      State.cursor_moveLane hp s _ _, State.parity_moveLane_fold hp s value _, length_packedColumn s _ _ _,
      fun _ hrow col _ => laneBit_packedColumn hp s value _ hrow col⟩

/-- Settles O34: PACK_NEUTRAL of the one parity bit, with the parity restarted. -/
theorem packNeutralParityWritesTheParity : Obligations.PackNeutralParityWritesTheParity := by
  unfold Obligations.PackNeutralParityWritesTheParity
  intro s pin
  have hexec := exec_packNeutralParity pin s
  refine ⟨fun hop => refusedWith_of_noResult_error hexec (packNeutralParityBody_badOperand hop), ?_⟩
  intro hpin
  refine ⟨fun hstate => refusedWith_of_noResult_error hexec (packNeutralParityBody_badState hpin hstate), ?_⟩
  intro hpass hmode
  have body := packNeutralParityBody_eq hpin hpass hmode
  have hp : pin.toNat < 32 := hpin.trans_le (maxPins_le s.cfg)
  refine ⟨?full, ?packed⟩
  case full =>
    intro hroom
    exact refusedWith_of_noResult_error hexec (body.trans (if_neg (Bool.eq_false_iff.mp hroom)))
  case packed =>
    intro hroom
    exact ⟨_, completes_of_noResult_ok hexec (body.trans (if_pos hroom)), rfl,
      State.cursor_moveLane hp s 1 true, State.parity_moveLane hp s 1 true, length_packedColumn s _ _ _,
      fun _ hrow col _ => laneBit_packedColumn_boolWord hp s hrow col⟩

/-- Settles O35: after the checks the width and the rows left decide; the bits read are those of `getBits`. -/
theorem unpackNeutralReadsItsColumn : Obligations.UnpackNeutralReadsItsColumn := by
  unfold Obligations.UnpackNeutralReadsItsColumn
  intro s pin nbits
  have hexec := exec_unpackNeutral pin nbits s
  refine ⟨fun hop => refusedWith_of_error hexec (unpackNeutralBody_badOperand hop), ?_⟩
  intro hpin hn
  refine ⟨fun hstate => refusedWith_of_error hexec (unpackNeutralBody_badState hpin hn hstate), ?_⟩
  intro hpass hmode
  have body := unpackNeutralBody_eq hpin hn hpass hmode
  have hp : pin.toNat < 32 := hpin.trans_le (maxPins_le s.cfg)
  refine ⟨?empty, ?truncated, ?reads⟩
  case empty =>
    rintro rfl
    exact completes_of_ok hexec (body.trans (if_pos rfl))
  case truncated =>
    intro hpos hshort
    rw [if_neg hpos.ne', if_pos hshort] at body
    exact ⟨_, completes_of_ok hexec body⟩
  case reads =>
    intro hpos hrows
    rw [if_neg hpos.ne', if_neg hrows.not_gt] at body
    refine ⟨_, _, completes_of_ok hexec body, rfl, State.cursor_moveLane hp _ _ _,
      State.parity_moveLane_fold hp { s with pmode := .neutral } _ _, getBits_lt _ _ _ hn, ?_⟩
    intro k hk
    rw [laneBit, ← BitVec.getLsbD, getLsbD_getBits _ _ _ hn, decide_eq_true hk, Bool.true_and]

end Sys2Proof.Machine

/-! The commands of 42_header_trailer.md, one at a time: slices and fields of a word as the numbers of 00_scope.md R9, then
the word helpers, the header, the trailer, WRITE and the reader. -/

namespace Sys2Proof.Machine

open Sys2Proof Sys2Proof.Spec

/-! ## Slices of a word as numbers (00_scope.md R9) -/

theorem testBit_bits (w : Word) (hi lo k : Nat) :
    (bits w hi lo).testBit k = (decide (k < hi - lo + 1) && w.getLsbD (lo + k)) := by
  rw [bits, Nat.testBit_mod_two_pow, Nat.testBit_div_two_pow, Nat.add_comm k lo, BitVec.getLsbD]

theorem bits_eq_toNat_extractLsb' (w : Word) (hi lo : Nat) : bits w hi lo = (w.extractLsb' lo (hi - lo + 1)).toNat := by
  rw [BitVec.extractLsb'_toNat, Nat.shiftRight_eq_div_pow, bits]

theorem bits_lt (w : Word) (hi lo : Nat) : bits w hi lo < 2 ^ (hi - lo + 1) := Nat.mod_lt _ (Nat.two_pow_pos _)

/-- A slice is decided by its bits. -/
theorem bits_congr {v w : Word} {hi lo : Nat} (h : ∀ k < hi - lo + 1, v.getLsbD (lo + k) = w.getLsbD (lo + k)) :
    bits v hi lo = bits w hi lo := by
  apply Nat.eq_of_testBit_eq
  intro k
  rw [testBit_bits, testBit_bits]
  by_cases hk : k < hi - lo + 1
  · rw [h k hk]
  · simp [hk]

theorem bits_or (v w : Word) (hi lo : Nat) : bits (v ||| w) hi lo = bits v hi lo ||| bits w hi lo := by
  apply Nat.eq_of_testBit_eq
  intro k
  rw [Nat.testBit_or, testBit_bits, testBit_bits, testBit_bits, BitVec.getLsbD_or, Bool.and_or_distrib_left]

theorem bits_and (v w : Word) (hi lo : Nat) : bits (v &&& w) hi lo = bits v hi lo &&& bits w hi lo := by
  apply Nat.eq_of_testBit_eq
  intro k
  rw [Nat.testBit_and, testBit_bits, testBit_bits, testBit_bits, BitVec.getLsbD_and]
  cases decide (k < hi - lo + 1) <;> rfl

/-- A mask that covers a slice keeps it. -/
theorem bits_and_of_ones (w : Word) {m : Word} {hi lo : Nat} (h : bits m hi lo = 2 ^ (hi - lo + 1) - 1) :
    bits (w &&& m) hi lo = bits w hi lo := by
  rw [bits_and, h, Nat.and_two_pow_sub_one_of_lt_two_pow (bits_lt w hi lo)]

/-- A mask that misses a slice clears it. -/
theorem bits_and_of_zero (w : Word) {m : Word} {hi lo : Nat} (h : bits m hi lo = 0) : bits (w &&& m) hi lo = 0 := by
  rw [bits_and, h, Nat.and_zero]

theorem wordSlice_eq_bits (w : Word) {hi lo : Nat} (h : hi - lo + 1 ≤ 32) :
    wordSlice w lo (hi - lo + 1) = BitVec.ofNat 32 (bits w hi lo) := by
  apply BitVec.eq_of_toNat_eq
  have lt : bits w hi lo < 2 ^ 32 := (bits_lt w hi lo).trans_le (Nat.pow_le_pow_right Nat.two_pos h)
  rw [toNat_wordSlice w lo h, BitVec.toNat_ofNat, Nat.mod_eq_of_lt lt, bits]

/-- The field replaced is the low bits of the value (42_header_trailer.md R206). -/
theorem bits_replaceField_same (w value : Word) {hi lo : Nat} (h : lo + (hi - lo + 1) ≤ 32) :
    bits (replaceField w lo (hi - lo + 1) value) hi lo = value.toNat % 2 ^ (hi - lo + 1) := by
  apply Nat.eq_of_testBit_eq
  intro k
  rw [testBit_bits, getLsbD_replaceField w value h, Nat.testBit_mod_two_pow]
  by_cases hk : k < hi - lo + 1
  · rw [if_pos (by omega), Nat.add_sub_cancel_left, BitVec.getLsbD]
  · simp [hk]

/-- A slice above or below the field replaced stays. -/
theorem bits_replaceField_disjoint (w value : Word) {lo width hi' lo' : Nat} (h : lo + width ≤ 32)
    (apart : lo' + (hi' - lo' + 1) ≤ lo ∨ lo + width ≤ lo') :
    bits (replaceField w lo width value) hi' lo' = bits w hi' lo' := by
  apply bits_congr
  intro k hk
  rw [getLsbD_replaceField w value h, if_neg (by omega)]

/-! ## The field tables (30_encoding.md R104, R108, R112) -/

/-- The model's positions `(lo, width)` are those of the table's fields `(hi, lo)`. -/
theorem hdrField_eq (sel : Slot) :
    hdrField sel = headerFields[sel.toNat]?.map fun p => (p.2, p.1 - p.2 + 1) := by
  unfold hdrField
  generalize sel.toNat = n
  match n with
  | 0 | 1 | 2 | 3 | 4 | 5 | 6 | 7 | _ + 8 => rfl

theorem stField_eq (sel : Slot) :
    stField sel = trailerFields[sel.toNat]?.map fun p => (p.2, p.1 - p.2 + 1) := by
  unfold stField
  generalize sel.toNat = n
  match n with
  | 0 | 1 | 2 | 3 | 4 | 5 | 6 | 7 | _ + 8 => rfl

section

variable {sel : Slot}

theorem hdrField_of_entry {hi lo : Nat} (h : headerFields[sel.toNat]? = some (hi, lo)) :
    hdrField sel = some (lo, hi - lo + 1) := by
  rw [hdrField_eq, h, Option.map_some]

theorem stField_of_entry {hi lo : Nat} (h : trailerFields[sel.toNat]? = some (hi, lo)) :
    stField sel = some (lo, hi - lo + 1) := by
  rw [stField_eq, h, Option.map_some]

theorem hdrField_eq_none (h : sel.toNat > 7) : hdrField sel = none := by
  rw [hdrField_eq, List.getElem?_eq_none (Nat.succ_le_of_lt h), Option.map_none]

theorem stField_eq_none (h : sel.toNat > 7) : stField sel = none := by
  rw [stField_eq, List.getElem?_eq_none (Nat.succ_le_of_lt h), Option.map_none]

end

theorem fieldBits_of_entry {table : List (Nat × Nat)} {k hi lo : Nat} (h : table[k]? = some (hi, lo)) (w : Word) :
    fieldBits table w k = bits w hi lo := by
  rw [fieldBits, h]

/-- The header's fields stand from the top of the word down, none over another. -/
theorem headerFields_descend : headerFields.Pairwise fun x y => y.2 + (y.1 - y.2 + 1) ≤ x.2 := by decide

theorem headerFields_apart {j k hi lo hi' lo' : Nat} (hj : headerFields[j]? = some (hi, lo))
    (hk : headerFields[k]? = some (hi', lo')) (ne : k ≠ j) :
    lo' + (hi' - lo' + 1) ≤ lo ∨ lo + (hi - lo + 1) ≤ lo' := by
  obtain ⟨hj_lt, hj⟩ := List.getElem?_eq_some_iff.mp hj
  obtain ⟨hk_lt, hk⟩ := List.getElem?_eq_some_iff.mp hk
  have descend := List.pairwise_iff_getElem.mp headerFields_descend
  obtain above | below := Nat.lt_or_gt_of_ne ne
  · have := descend k j hk_lt hj_lt above
    rw [hj, hk] at this
    exact .inr this
  · have := descend j k hj_lt hk_lt below
    rw [hj, hk] at this
    exact .inl this

/-- One header field replaced, as every field of the header sees it (42_header_trailer.md R206). -/
theorem fieldBits_replaceField {j k hi lo : Nat} (w value : Word) (hj : headerFields[j]? = some (hi, lo))
    (within : lo + (hi - lo + 1) ≤ 32) (hk : k < 8) :
    fieldBits headerFields (replaceField w lo (hi - lo + 1) value) k =
      if k = j then value.toNat % 2 ^ (hi - lo + 1) else fieldBits headerFields w k := by
  split_ifs with same
  · subst same
    rw [fieldBits_of_entry hj, bits_replaceField_same w value within]
  · have entry : headerFields[k]? = some (headerFields[k].1, headerFields[k].2) := List.getElem?_eq_getElem hk
    rw [fieldBits_of_entry entry, fieldBits_of_entry entry,
      bits_replaceField_disjoint w value within (headerFields_apart hj entry same)]

/-! ## The word helpers (42_header_trailer.md R200 to R205) -/

theorem wordtype_code (w : Word) :
    (wordtype w).code = if bits w 31 30 ≠ 3 then 0 else if bits w 29 28 = 1 then 2 else 1 := by
  have pairs : ∀ hi lo : BitVec 2, (if hi = 0b11#2 then (if lo = 0b01#2 then WordKind.status else .header) else .data).code =
      if hi.toNat ≠ 3 then 0 else if lo.toNat = 1 then 2 else 1 := by decide
  rw [bits_eq_toNat_extractLsb', bits_eq_toNat_extractLsb']
  exact pairs _ _

theorem completes_wordType (w : Word) (s : State) : Completes (.wordType w) s s (wordtype w).code := rfl
theorem completes_wordId (w : Word) (s : State) : Completes (.wordId w) s s (wordSlice w 28 4) := rfl
theorem completes_wordFormat (w : Word) (s : State) : Completes (.wordFormat w) s s (wordSlice w 22 3) := rfl
theorem completes_wordSeqno (w : Word) (s : State) : Completes (.wordSeqno w) s s (wordSlice w 16 6) := rfl
theorem completes_wordModule (w : Word) (s : State) : Completes (.wordModule w) s s (wordSlice w 8 4) := rfl

/-- Settles O20: the helpers answer `wordtype`'s code and four `wordSlice`s. -/
theorem wordHelpersAnswerTheirSlice : Obligations.WordHelpersAnswerTheirSlice := by
  unfold Obligations.WordHelpersAnswerTheirSlice
  intro w s
  rw [← wordtype_code, ← wordSlice_eq_bits w (by decide), ← wordSlice_eq_bits w (by decide),
    ← wordSlice_eq_bits w (by decide), ← wordSlice_eq_bits w (by decide)]
  exact ⟨completes_wordType w s, completes_wordId w s, completes_wordFormat w s, completes_wordSeqno w s,
    completes_wordModule w s⟩

/-! ## The header (42_header_trailer.md R206 to R209) -/

theorem exec_hdrSet (sel : Slot) (value : Word) (s : State) :
    exec (.hdrSet sel value) s = finish s (noResult (hdrSetBody sel value s)) := rfl
theorem exec_hdrGet (sel : Slot) (s : State) : exec (.hdrGet sel) s = finish s (hdrGetBody sel s) := rfl
theorem exec_hdrWord (s : State) : exec .hdrWord s = finish s (hdrWordBody s) := rfl
theorem exec_hdrLoad (w : Word) (s : State) : exec (.hdrLoad w) s = finish s (noResult (hdrLoadBody w s)) := rfl

section

variable {s : State} {sel : Slot} {w : Word}

theorem hdrSetBody_badOperand (value : Word) (h : hdrField sel = none) : hdrSetBody sel value s = .error .badOperand := by
  rw [hdrSetBody, h]

theorem hdrGetBody_badOperand (h : hdrField sel = none) : hdrGetBody sel s = .error .badOperand := by
  rw [hdrGetBody, h]

theorem hdrWordBody_badState (h : wordtype s.hdr ≠ .header) : hdrWordBody s = .error .badState :=
  guard_error_iff.mpr ⟨bne_iff_ne.mpr h, rfl⟩

theorem hdrLoadBody_structural (h : wordtype w ≠ .header) : hdrLoadBody w s = .error .structural :=
  guard_error_iff.mpr ⟨bne_iff_ne.mpr h, rfl⟩

end

/-- Settles O41: the table's entry is the position that the commands look up, and the fields stand apart. -/
theorem hdrSetReplacesOneField : Obligations.HdrSetReplacesOneField := by
  unfold Obligations.HdrSetReplacesOneField
  intro s sel value
  constructor
  · intro unknown
    have noField := hdrField_eq_none unknown
    exact ⟨refusedWith_of_noResult_error (exec_hdrSet sel value s) (hdrSetBody_badOperand value noField),
      refusedWith_of_error (exec_hdrGet sel s) (hdrGetBody_badOperand noField)⟩
  · intro hi lo entry
    have position := hdrField_of_entry entry
    have within : lo + (hi - lo + 1) ≤ 32 := (hdrField_le position).1
    constructor
    · rw [← wordSlice_eq_bits s.hdr (by omega)]
      exact completes_of_ok (exec_hdrGet sel s) (hdrGetBody_ok_iff.mpr ⟨rfl, lo, _, position, rfl⟩)
    · exact ⟨replaceField s.hdr lo (hi - lo + 1) value,
        completes_of_noResult_ok (exec_hdrSet sel value s) (hdrSetBody_ok_iff.mpr ⟨lo, _, position, rfl⟩),
        fun k hk => fieldBits_replaceField s.hdr value entry within hk⟩

/-- Settles O42, by the two ends of `hdrWordBody` and of `hdrLoadBody`. -/
theorem headerWordIsChecked : Obligations.HeaderWordIsChecked := by
  unfold Obligations.HeaderWordIsChecked
  intro s w
  refine ⟨?word, ?noWord, ?load, ?noLoad⟩
  case word =>
    intro header
    exact completes_of_ok (exec_hdrWord s) (hdrWordBody_ok_iff.mpr ⟨header, rfl, rfl⟩)
  case noWord =>
    intro other
    exact refusedWith_of_error (exec_hdrWord s) (hdrWordBody_badState other)
  case load =>
    intro header
    exact completes_of_noResult_ok (exec_hdrLoad w s) (hdrLoadBody_ok_iff.mpr ⟨header, rfl⟩)
  case noLoad =>
    intro other
    exact refusedWith_of_noResult_error (exec_hdrLoad w s) (hdrLoadBody_structural other)

/-! ## The trailer (42_header_trailer.md R220 to R223) -/

theorem exec_stGet (sel : Slot) (s : State) : exec (.stGet sel) s = finish s (stGetBody sel s) := rfl
theorem exec_stLoad (w : Word) (s : State) : exec (.stLoad w) s = finish s (noResult (stLoadBody w s)) := rfl

theorem completes_stSet (value : Word) (s : State) :
    Completes (.stSet value) s { s with trl := trailerOf s.hdr value } 0 := rfl

theorem completes_stWord (s : State) : Completes .stWord s s (if trailerPresent s.trl then s.trl else 0) := rfl

theorem trailerPresent_iff (trl : Word) : trailerPresent trl = true ↔ trl &&& 0x0FC000DF ≠ 0 := bne_iff_ne

theorem stGetBody_badOperand {s : State} {sel : Slot} (h : stField sel = none) : stGetBody sel s = .error .badOperand := by
  rw [stGetBody, h]

theorem stLoadBody_structural {s : State} {w : Word} (h : wordtype w ≠ .status) : stLoadBody w s = .error .structural :=
  guard_error_iff.mpr ⟨bne_iff_ne.mpr h, rfl⟩

theorem trailerOf_of_no_error (hdr : Word) {value : Word} (h : value &&& 0x0FC000DF = 0) : trailerOf hdr value = 0 :=
  if_pos h

section

variable (hdr : Word) {value : Word} (present : value &&& 0x0FC000DF ≠ 0) {hi lo : Nat}

include present

/-- A slice of the trailer is put together from the pattern, the value and the header. -/
theorem bits_trailerOf : bits (trailerOf hdr value) hi lo =
    bits 0xD0000000 hi lo ||| bits (value &&& 0x0FC000DF) hi lo ||| bits (hdr &&& 0x003FFF00) hi lo := by
  have made : trailerOf hdr value = 0xD0000000 ||| (value &&& 0x0FC000DF) ||| (hdr &&& 0x003FFF00) := if_neg present
  rw [made, bits_or, bits_or]

/-- A slice that neither the error fields nor the copies reach is the pattern's. -/
theorem bits_trailerOf_pattern (errors : bits 0x0FC000DF hi lo = 0) (copies : bits 0x003FFF00 hi lo = 0) :
    bits (trailerOf hdr value) hi lo = bits 0xD0000000 hi lo := by
  rw [bits_trailerOf hdr present, bits_and_of_zero value errors, bits_and_of_zero hdr copies, Nat.or_zero, Nat.or_zero]

/-- A slice within the error fields is the value's. -/
theorem bits_trailerOf_error (pattern : bits 0xD0000000 hi lo = 0)
    (errors : bits 0x0FC000DF hi lo = 2 ^ (hi - lo + 1) - 1) (copies : bits 0x003FFF00 hi lo = 0) :
    bits (trailerOf hdr value) hi lo = bits value hi lo := by
  rw [bits_trailerOf hdr present, pattern, bits_and_of_ones value errors, bits_and_of_zero hdr copies, Nat.zero_or,
    Nat.or_zero]

/-- A slice within the copies is the header's. -/
theorem bits_trailerOf_copy (pattern : bits 0xD0000000 hi lo = 0) (errors : bits 0x0FC000DF hi lo = 0)
    (copies : bits 0x003FFF00 hi lo = 2 ^ (hi - lo + 1) - 1) :
    bits (trailerOf hdr value) hi lo = bits hdr hi lo := by
  rw [bits_trailerOf hdr present, pattern, bits_and_of_zero value errors, bits_and_of_ones hdr copies, Nat.or_zero,
    Nat.zero_or]

end

/-- Settles O43: the trailer is `trailerOf`, each slice of it from one of the three words it is put together from. -/
theorem stSetBuildsTheTrailer : Obligations.StSetBuildsTheTrailer := by
  unfold Obligations.StSetBuildsTheTrailer
  intro s value
  refine ⟨trailerOf s.hdr value, completes_stSet value s, trailerOf_of_no_error s.hdr, ?_⟩
  intro present
  refine ⟨?status, ?failingBCN, ?seqno, ?crate, ?modNo, ?glinkDown, ?unused, ?flags⟩
  case status | unused => exact bits_trailerOf_pattern s.hdr present (by decide) (by decide)
  case failingBCN | glinkDown | flags => exact bits_trailerOf_error s.hdr present (by decide) (by decide) (by decide)
  case seqno | crate | modNo => exact bits_trailerOf_copy s.hdr present (by decide) (by decide) (by decide)

/-- Settles O44, by the two ends of `stGetBody` and of `stLoadBody`, and `trailerPresent`. -/
theorem trailerReadsAndLoads : Obligations.TrailerReadsAndLoads := by
  unfold Obligations.TrailerReadsAndLoads
  intro s sel w
  refine ⟨?unknown, ?get, ?word, ?load, ?noLoad⟩
  case unknown =>
    intro unknown
    exact refusedWith_of_error (exec_stGet sel s) (stGetBody_badOperand (stField_eq_none unknown))
  case get =>
    intro hi lo entry
    have position := stField_of_entry entry
    have within : lo + (hi - lo + 1) ≤ 32 := (stField_le position).1
    rw [← wordSlice_eq_bits s.trl (by omega)]
    exact completes_of_ok (exec_stGet sel s) (stGetBody_ok_iff.mpr ⟨rfl, lo, _, position, rfl⟩)
  case word =>
    have completes := completes_stWord s
    simp only [trailerPresent_iff, ne_eq, ite_not] at completes
    exact completes
  case load =>
    intro status
    exact completes_of_noResult_ok (exec_stLoad w s) (stLoadBody_ok_iff.mpr ⟨status, rfl⟩)
  case noLoad =>
    intro other
    exact refusedWith_of_noResult_error (exec_stLoad w s) (stLoadBody_structural other)

/-! ## WRITE (42_header_trailer.md R230) -/

theorem exec_write (s : State) : exec .write s = finish s (writeBody s) := rfl

theorem subBlockWords_eq (s : State) :
    subBlockWords s = [s.hdr] ++ s.payload ++ (if s.trl &&& 0x0FC000DF ≠ 0 then [s.trl] else []) := by
  simp only [subBlockWords, trailerPresent_iff]

theorem writeBody_badState {s : State} (h : wordtype s.hdr ≠ .header ∨ s.wcur ≠ 0) : writeBody s = .error .badState := by
  by_cases header : wordtype s.hdr = .header
  · have held : s.wcur ≠ 0 := h.resolve_left (not_not_intro header)
    simp [writeBody, header, held]
  · simp [writeBody, header]

/-- Settles O45, by the two ends of `writeBody`; a number that does not fit is answered with `countWord`'s open value. -/
theorem writeEmitsTheSubBlock : Obligations.WriteEmitsTheSubBlock := by
  unfold Obligations.WriteEmitsTheSubBlock
  intro s
  constructor
  · intro unready
    exact refusedWith_of_error (exec_write s) (writeBody_badState unready)
  · intro header flushed ws words
    obtain rfl : ws = subBlockWords s := words.trans (subBlockWords_eq s).symm
    exact ⟨countWord (subBlockWords s).length,
      completes_of_ok (exec_write s) (writeBody_ok_iff.mpr ⟨header, flushed, rfl, rfl⟩), countWord_of_lt⟩

/-! ## The reader (42_header_trailer.md R231, R232) -/

theorem completes_readBegin (s : State) : Completes .readBegin s { clearState s with rd := .expectHeader } 0 := rfl

theorem exec_readWord (w : Word) (s : State) : exec (.readWord w) s = finish s (readWordBody w s) := rfl

section

variable {s : State} {w : Word}

theorem readWordBody_idle (hrd : s.rd = .idle) : readWordBody w s = .error .badState := by
  rw [readWordBody, hrd]

theorem readWordBody_done (hrd : s.rd = .done) : readWordBody w s = .ok (s, 0) := by
  rw [readWordBody, hrd]

theorem readWordBody_structural (hrd : s.rd = .expectHeader) (hw : wordtype w ≠ .header) :
    readWordBody w s = .error .structural := by
  rw [readWordBody, hrd]
  exact guard_error_iff.mpr ⟨bne_iff_ne.mpr hw, rfl⟩

theorem readWordBody_header (hrd : s.rd = .expectHeader) (hw : wordtype w = .header) :
    readWordBody w s = .ok ({ s with hdr := w, rd := .inData }, 1) := by
  rw [readWordBody, hrd]
  exact guard_ok_iff.mpr ⟨by simp [hw], rfl⟩

theorem readWordBody_full (hrd : s.rd = .inData) (hw : wordtype w = .data)
    (room : fits s.cfg (s.payload.length + 1) = false) : readWordBody w s = .error .full := by
  have append : memAppend s w = .error .full := memAppend_error_iff.mpr ⟨room, rfl⟩
  simp only [readWordBody, hrd, hw, append]

theorem readWordBody_data (hrd : s.rd = .inData) (hw : wordtype w = .data)
    (room : fits s.cfg (s.payload.length + 1) = true) :
    readWordBody w s = .ok ({ s with payload := s.payload ++ [w] }, 1) := by
  have append : memAppend s w = .ok { s with payload := s.payload ++ [w] } := memAppend_ok_iff.mpr ⟨room, rfl⟩
  simp only [readWordBody, hrd, hw, append]

theorem readWordBody_status (hrd : s.rd = .inData) (hw : wordtype w = .status) :
    readWordBody w s = .ok ({ s with trl := w, rd := .done }, 1) := by
  simp only [readWordBody, hrd, hw]

/-- The header of the next sub-block is declined. -/
theorem readWordBody_nextHeader (hrd : s.rd = .inData) (hw : wordtype w = .header) :
    readWordBody w s = .ok ({ s with rd := .done }, 0) := by
  simp only [readWordBody, hrd, hw]

end

/-- Settles O46: `readWordBody` in each state of the reader, and READ_BEGIN on CLEAR's state. -/
theorem readerFollowsTheGrammar : Obligations.ReaderFollowsTheGrammar := by
  unfold Obligations.ReaderFollowsTheGrammar
  intro s w
  have hexec := exec_readWord w s
  refine ⟨?clear, ?idle, ?expectHeader, ?inData, ?done⟩
  case clear => exact ⟨clearState s, completes_clear s, completes_readBegin s⟩
  case idle => exact fun hrd => refusedWith_of_error hexec (readWordBody_idle hrd)
  case expectHeader =>
    intro hrd
    exact ⟨fun hw => refusedWith_of_error hexec (readWordBody_structural hrd hw),
      fun hw => completes_of_ok hexec (readWordBody_header hrd hw)⟩
  case inData =>
    intro hrd
    exact ⟨fun hw room => refusedWith_of_error hexec (readWordBody_full hrd hw room),
      fun hw room => completes_of_ok hexec (readWordBody_data hrd hw room),
      fun hw => completes_of_ok hexec (readWordBody_status hrd hw),
      fun hw => completes_of_ok hexec (readWordBody_nextHeader hrd hw)⟩
  case done => exact fun hrd => completes_of_ok hexec (readWordBody_done hrd)

end Sys2Proof.Machine

/-! The marshaller's single commands (43_marshaller.md): the kind, the field store, the slice count and a bare RoI word. -/

namespace Sys2Proof.Machine

open Sys2Proof Sys2Proof.Spec

/-! ## SET_KIND (43_marshaller.md R251) -/

theorem exec_setKind (code : Slot) (s : State) : exec (.setKind code) s = finish s (noResult (setKindBody code s)) := rfl

/-- The model's kinds are those of the code table (30_encoding.md R113). -/
theorem kindOfCode_eq (code : Slot) : kindOfCode code = kinds[code.toNat]? := by
  unfold kindOfCode
  generalize code.toNat = n
  match n with
  | 0 | 1 | 2 | 3 | 4 | 5 | 6 | 7 | _ + 8 => rfl

/-- Settles O26: the code's entry in the table decides. -/
theorem setKindWritesTheKind : Obligations.SetKindWritesTheKind := by
  unfold Obligations.SetKindWritesTheKind
  intro code s
  constructor
  · intro k entry
    have body : setKindBody code s = .ok { s with kind := k } := by rw [setKindBody, kindOfCode_eq, entry]
    exact completes_of_noResult_ok (exec_setKind code s) body
  · intro unknown
    have noEntry : kinds[code.toNat]? = none := List.getElem?_eq_none unknown
    have body : setKindBody code s = .error .badOperand := by rw [setKindBody, kindOfCode_eq, noEntry]
    exact refusedWith_of_noResult_error (exec_setKind code s) body

/-! ## FIELD_SET and FIELD_GET (43_marshaller.md R252, R253) -/

theorem completes_fieldGet (fid slice index : Slot) (s : State) :
    Completes (.fieldGet fid slice index) s s (s.field fid slice index) := rfl

theorem completes_fieldSet (fid slice index : Slot) (value : Word) (s : State) :
    Completes (.fieldSet fid slice index value) s (s.setField fid slice index value) 0 := rfl

/-- Every field after one is written, in a store in canonical form. -/
theorem State.field_setField {s : State} (h : s.fields.wf) (fid slice index : Slot) (v : Word) (f x k : Slot) :
    (s.setField fid slice index v).field f x k = if f = fid ∧ x = slice ∧ k = index then v else s.field f x k := by
  split
  · rename_i same
    obtain ⟨rfl, rfl, rfl⟩ := same
    exact State.field_setField_same h f x k v
  · rename_i other
    exact State.field_setField_other s v (by simpa only [ne_eq, Prod.mk.injEq] using other)

/-- Settles O50, by the read-after-write rule of the field store. -/
theorem fieldStoreReadsBack : Obligations.FieldStoreReadsBack := by
  unfold Obligations.FieldStoreReadsBack
  intro s fid slice index value hwf
  exact ⟨completes_fieldGet fid slice index s, _, completes_fieldSet fid slice index value s, rfl,
    State.setField_wf hwf fid slice index value, State.field_setField hwf fid slice index value⟩

/-! ## TIMESLICES (43_marshaller.md R260) -/

theorem completes_timeslices (s : State) : Completes .timeslices s s (countWord (timeslicesOf s)) := rfl

theorem hdrSlices1_eq_bits (h : Word) : hdrSlices1 h = BitVec.ofNat 4 (bits h 3 0) := by
  rw [bits_eq_toNat_extractLsb', hdrSlices1, BitVec.ofNat_toNat, BitVec.setWidth_eq]

theorem hdrSlices2_eq_bits (h : Word) : hdrSlices2 h = BitVec.ofNat 4 (bits h 7 4) := by
  rw [bits_eq_toNat_extractLsb', hdrSlices2, BitVec.ofNat_toNat, BitVec.setWidth_eq]

theorem hdrFormat_beq_zero (h : Word) : (hdrFormat h == 0) = decide (bits h 24 22 = 0) := by
  rw [bits_eq_toNat_extractLsb', hdrFormat, Bool.beq_eq_decide_eq, decide_eq_decide]
  exact BitVec.toNat_inj.symm

/-- `SLICES_HDR` is 0 .. 255 (43_marshaller.md R260). -/
theorem slicesHdr_lt (c : Config) (k : Kind) (slices1 slices2 : BitVec 4) : slicesHdr c k slices1 slices2 < 256 := by
  unfold slicesHdr
  split
  · exact slices1.isLt.trans (by decide)
  · rename_i r _
    exact r.count.isLt

section

variable {s : State} {n : Nat}
  (count : n = slicesHdr s.cfg s.kind (BitVec.ofNat 4 (bits s.hdr 3 0)) (BitVec.ofNat 4 (bits s.hdr 7 4)))

include count

/-- The header's count, where it is not 0. -/
theorem timeslicesOf_of_header (hn : n ≠ 0) : timeslicesOf s = n := by
  simp only [timeslicesOf, hdrSlices1_eq_bits, hdrSlices2_eq_bits, ← count, hn, decide_false, Bool.false_and,
    Bool.false_eq_true, if_false]

/-- The rows of a neutral payload divided into slices, at least 1. -/
theorem timeslicesOf_of_neutral (hn : n = 0) (format : bits s.hdr 24 22 = 0) {L : NeutralLayout}
    (layout : layoutOf s.cfg s.kind s.hdr = some (.neutral L)) :
    timeslicesOf s = max 1 (s.payload.length / L.bpspp) := by
  subst hn
  simp only [timeslicesOf, hdrSlices1_eq_bits, hdrSlices2_eq_bits, ← count, hdrFormat_beq_zero, format, layout,
    decide_true, Bool.and_self, if_true]
  generalize s.payload.length / L.bpspp = m
  split <;> omega

/-- 1 where neither the header nor the payload gives a count. -/
theorem timeslicesOf_of_none (hn : n = 0)
    (uncounted : bits s.hdr 24 22 ≠ 0 ∨ ∀ L, layoutOf s.cfg s.kind s.hdr ≠ some (.neutral L)) : timeslicesOf s = 1 := by
  subst hn
  simp only [timeslicesOf, hdrSlices1_eq_bits, hdrSlices2_eq_bits, ← count, hdrFormat_beq_zero]
  split
  · rename_i format
    split
    · rename_i L layout
      have format : bits s.hdr 24 22 = 0 := by simpa using format
      exact absurd layout (uncounted.resolve_left (not_not_intro format) L)
    · rfl
  · rfl

end

/-- Settles O51, by the three cases of the count; one of the header or of a payload below 2^32 fits the result. -/
theorem timeslicesCountsTheSlices : Obligations.TimeslicesCountsTheSlices := by
  unfold Obligations.TimeslicesCountsTheSlices
  intro s n count
  have completes := completes_timeslices s
  refine ⟨fun hn => ?header, fun hn => ⟨⟨_, completes⟩, fun L format layout hlen => ?neutral, fun uncounted => ?none⟩⟩
  case header =>
    have lt : n < 256 := count ▸ slicesHdr_lt ..
    rwa [timeslicesOf_of_header count hn, countWord_of_lt (by omega)] at completes
  case neutral =>
    have le := Nat.div_le_self s.payload.length L.bpspp
    rwa [timeslicesOf_of_neutral count hn format layout, countWord_of_lt (by omega)] at completes
  case none => rwa [timeslicesOf_of_none count hn uncounted] at completes

/-! ## Fields stored one after the other -/

/-- The value under a key `(fid, slice, index)`. -/
def State.fieldAt (s : State) (k : Slot × Slot × Slot) : Word := s.field k.1 k.2.1 k.2.2

/-- From `s` to `t` one field is stored for each entry of `l`, in order: a key that no later entry has ends with a value
that is good for its entry after the entries before it, and a key of no entry keeps its value. -/
structure StoredInOrder {α : Type} (key : α → Slot × Slot × Slot) (good : List α → α → Word → Prop) (l : List α)
    (s t : State) : Prop where
  wf : t.fields.wf
  written : ∀ before x after, l = before ++ x :: after → (∀ y ∈ after, key y ≠ key x) → good before x (t.fieldAt (key x))
  kept : ∀ k, (∀ x ∈ l, key x ≠ k) → t.fieldAt k = s.fieldAt k

section

variable {α : Type} {key : α → Slot × Slot × Slot} {good good' : List α → α → Word → Prop} {s s' t : State}

theorem StoredInOrder.nil (hwf : s.fields.wf) : StoredInOrder key good [] s s where
  wf := hwf
  written before x after h := by simp at h
  kept _ _ := rfl

theorem StoredInOrder.cons {x : α} {rest : List α} {v : Word} (hwf : s.fields.wf) (hs : s'.fields = s.fields)
    (hv : good [] x v)
    (hrest : StoredInOrder key (fun before => good (x :: before)) rest
      (s'.setField (key x).1 (key x).2.1 (key x).2.2 v) t) : StoredInOrder key good (x :: rest) s t where
  wf := hrest.wf
  written before y after hl later := by
    cases before with
    | nil =>
      obtain ⟨rfl, rfl⟩ := List.cons.inj hl
      have stored : t.fieldAt (key x) = v :=
        (hrest.kept _ later).trans (State.field_setField_same (s := s') (hs ▸ hwf) _ _ _ v)
      exact stored ▸ hv
    | cons z before =>
      obtain ⟨rfl, hrest_eq⟩ := List.cons.inj hl
      exact hrest.written before y after hrest_eq later
  kept k hk := by
    have other : k ≠ key x := (hk x List.mem_cons_self).symm
    calc t.fieldAt k
        = (s'.setField (key x).1 (key x).2.1 (key x).2.2 v).fieldAt k :=
          hrest.kept k fun y hy => hk y (List.mem_cons_of_mem x hy)
      _ = s'.fieldAt k := State.field_setField_other s' v other
      _ = s.fieldAt k := by rw [State.fieldAt, State.fieldAt, State.field, State.field, hs]

theorem StoredInOrder.imp {l : List α} (h : StoredInOrder key good l s t)
    (himp : ∀ before x v, x ∈ l → good before x v → good' before x v) : StoredInOrder key good' l s t where
  wf := h.wf
  written before x after hl later := himp _ _ _ (by simp [hl]) (h.written before x after hl later)
  kept := h.kept

end

/-! ## ROI_LOAD (43_marshaller.md R269) -/

/-- The key of an entry of `ROI_LAYOUT`. -/
def roiKey (f : RoiField) : Slot × Slot × Slot := (f.fid, 0, f.index)

theorem storedInOrder_roiStore (word : Word) (l : List RoiField) {s : State} (hwf : s.fields.wf) :
    StoredInOrder roiKey (fun _ f v => v = wordSlice word f.lo f.width) l s (roiStore word l s) := by
  induction l generalizing s with
  | nil => exact .nil hwf
  | cons f rest ih => exact .cons hwf rfl rfl (ih (State.setField_wf hwf f.fid 0 f.index _))

theorem isRoiKind_iff (k : Kind) : isRoiKind k = true ↔ k = .cpmRoi ∨ k = .jemRoi := by
  cases k <;> decide

theorem completes_roiLoad (word : Word) (s : State) :
    Completes (.roiLoad word) s (roiLoadBody word s).1 (roiLoadBody word s).2 := rfl

theorem roiLoadBody_unrecognised {word : Word} {s : State} (h : isRoiKind s.kind = false ∨ roiMatch s.cfg s.kind word = false) :
    roiLoadBody word s = (s, 0) := by
  unfold roiLoadBody
  obtain kind | noMatch := h
  · rw [kind]; rfl
  · rw [noMatch]; cases isRoiKind s.kind <;> rfl

theorem roiLoadBody_recognised {word : Word} {s : State} (kind : isRoiKind s.kind = true)
    (hmatch : roiMatch s.cfg s.kind word = true) :
    roiLoadBody word s = (roiStore word (roiLayout s.cfg s.kind) s, 1) := by
  rw [roiLoadBody, kind, hmatch]
  rfl

/-- Settles O60: the store of `roiStore`, whose entries are slices of the word that lie apart. -/
theorem roiLoadStoresItsFields : Obligations.RoiLoadStoresItsFields := by
  unfold Obligations.RoiLoadStoresItsFields
  intro s w
  have completes := completes_roiLoad w s
  constructor
  · intro h
    have unrecognised : isRoiKind s.kind = false ∨ roiMatch s.cfg s.kind w = false := by
      rwa [← Bool.not_eq_true, isRoiKind_iff, not_or]
    rwa [roiLoadBody_unrecognised unrecognised] at completes
  · intro hwf hkind hmatch
    rw [roiLoadBody_recognised ((isRoiKind_iff _).mpr hkind) hmatch] at completes
    obtain ⟨slices, apart⟩ := roiLayout_wf s.cfg s.kind
    have stored := storedInOrder_roiStore w (roiLayout s.cfg s.kind) hwf
    refine ⟨_, completes, roiStore_frame w _ s, ?entries, ?others⟩
    case entries =>
      intro before f after hl
      obtain ⟨-, pos, within⟩ := slices f (by rw [hl]; simp)
      rw [hl, List.pairwise_append, List.pairwise_cons] at apart
      refine ⟨pos, within, fun x hx => (apart.2.1.1 x hx).symm, fun later => ?_⟩
      have value := stored.written before f after hl
        (fun x hx same => later x hx (by simpa [roiKey] using same))
      have width : f.lo + f.width - 1 - f.lo + 1 = f.width := by omega
      calc (State.fieldAt _ (roiKey f)).toNat = (wordSlice w f.lo f.width).toNat := congrArg BitVec.toNat value
        _ = bits w (f.lo + f.width - 1) f.lo := by rw [toNat_wordSlice w f.lo (by omega), bits, width]
    case others =>
      intro fid slice index unlisted
      refine stored.kept (fid, slice, index) fun x hx same => unlisted x hx ?_
      obtain ⟨hfid, hkeys⟩ := Prod.mk.inj same
      obtain ⟨hslice, hindex⟩ := Prod.mk.inj hkeys
      exact ⟨hfid, hslice.symm, hindex⟩

end Sys2Proof.Machine

/-! MPACK of a serial layout (43_marshaller.md R262, R263): PACK and PACK_FLUSH as appends to the bitstream, then the walk
over the items. -/

namespace Sys2Proof.Machine

open Sys2Proof Sys2Proof.Spec

/-! ## Words of bits -/

theorem lowBits_eq_wordBits (v : Word) (n : Nat) : lowBits v n = wordBits n v := rfl

/-- A word is below `2^n` when no bit from `n` on is set. -/
theorem toNat_lt_two_pow_of_getLsbD {w : Word} {n : Nat} (h : ∀ k, n ≤ k → w.getLsbD k = false) : w.toNat < 2 ^ n :=
  Nat.lt_pow_two_of_testBit _ fun k hk => h k hk

/-- A word below `2^a` is its first `a` bits and then zeros. -/
theorem wordBits_of_lt {a m : Nat} {w : Word} (ha : w.toNat < 2 ^ a) (ham : a ≤ m) :
    wordBits m w = wordBits a w ++ List.replicate (m - a) false := by
  apply List.ext_getElem
  · simp; omega
  · intro k h1 h2
    rw [getElem_wordBits, List.getElem_append]
    split
    · rw [getElem_wordBits]
    · rename_i hk
      rw [length_wordBits] at hk
      rw [List.getElem_replicate, getLsbD_of_lt_two_pow ha (by omega)]

/-- The first `m` bits of a word of `a` bits with others put above them. -/
theorem wordBits_or_shift_cut {a m : Nat} (acc x : Word) (ham : a ≤ m) (hm : m ≤ 32) (ha : acc.toNat < 2 ^ a) :
    wordBits m (acc ||| (x <<< a)) = wordBits a acc ++ wordBits (m - a) x := by
  have cut : wordBits m (acc ||| (x <<< a)) = wordBits m (acc ||| ((x &&& mask (m - a)) <<< a)) := by
    apply wordBits_congr
    intro k hk
    rw [BitVec.getLsbD_or, BitVec.getLsbD_or, BitVec.getLsbD_shiftLeft, BitVec.getLsbD_shiftLeft,
      getLsbD_and_mask _ (by omega)]
    by_cases low : k < a
    · simp [low]
    · rw [decide_eq_true (show k - a < m - a by omega), Bool.and_true]
  calc wordBits m (acc ||| (x <<< a))
      = wordBits (a + (m - a)) (acc ||| ((x &&& mask (m - a)) <<< a)) := by rw [cut, Nat.add_sub_cancel' ham]
    _ = wordBits a acc ++ wordBits (m - a) x := wordBits_or_shift acc x (by omega) ha

/-- A word's first bits in two pieces. -/
theorem wordBits_add (a b : Nat) (w : Word) : wordBits (a + b) w = wordBits a w ++ wordBits b (w >>> a) := by
  rw [wordBits_ushiftRight, ← Nat.min_eq_left (Nat.le_add_right a b), ← take_wordBits, Nat.min_eq_left (Nat.le_add_right a b),
    List.take_append_drop]

/-! ## A packer that may go on -/

/-- A packing command or walk ends in a state with `post`, or it is refused FULL, and then there was no `room`. -/
def PacksIf (room : Prop) (post : State → Prop) : Except Status State → Prop
  | .ok t => post t
  | .error e => e = .full ∧ ¬ room

theorem PacksIf.ok_of_room {room : Prop} {post : State → Prop} {x : Except Status State} (h : PacksIf room post x)
    (hroom : room) : ∃ t, x = .ok t ∧ post t := by
  cases x with
  | ok t => exact ⟨t, rfl, h⟩
  | error e => exact absurd hroom h.2

theorem PacksIf.full_of_not_post {room : Prop} {post : State → Prop} {x : Except Status State} (h : PacksIf room post x)
    (hpost : ∀ t, ¬ post t) : x = .error .full := by
  cases x with
  | ok t => exact absurd h (hpost t)
  | error e => exact congrArg Except.error h.1

/-- One packing after another: the room of both is room for the first. -/
theorem PacksIf.bind {room room' : Prop} {post post' : State → Prop} {x : Except Status State}
    {f : State → Except Status State} (hx : PacksIf room post x) (hroom : room' → room)
    (hf : ∀ t, post t → PacksIf room' post' (f t)) : PacksIf room' post' (x.bind f) := by
  cases x with
  | ok t => exact hf t hx
  | error e => exact ⟨hx.1, fun h => hx.2 (hroom h)⟩

theorem PacksIf.imp {room room' : Prop} {post post' : State → Prop} {x : Except Status State} (hx : PacksIf room post x)
    (hroom : room' → room) (hpost : ∀ t, post t → post' t) : PacksIf room' post' x := by
  cases x with
  | ok t => exact hpost t hx
  | error e => exact ⟨hx.1, fun h => hx.2 (hroom h)⟩

/-- What the serial packing commands ask of the state, and keep (10_state.md R40). -/
structure PackReady (s : State) : Prop where
  pass_eq : s.pass = .pack
  pmode_ne : s.pmode ≠ .neutral
  wcur_lt : s.wcur < maxbits s.streamed
  acc_lt : s.acc.toNat < 2 ^ s.wcur
  fits_max : fits s.cfg s.payload.length = true

/-- The number of bits packed so far. -/
def packPosition (s : State) : Nat := s.payload.length * maxbits s.streamed + s.wcur

theorem length_packedBits (s : State) : (packedBits s).length = packPosition s := by
  rw [packedBits, List.length_append, length_bitstream, length_wordBits, packPosition]

/-- `t` is `s` with `bits` appended to what is packed (40_bitstream.md R146). -/
structure PackedAfter (s : State) (bits : List Bool) (t : State) : Prop where
  ready : PackReady t
  frame : t = { s with payload := t.payload, acc := t.acc, wcur := t.wcur, pmode := t.pmode }
  packed : packedBits t = packedBits s ++ bits

theorem PackedAfter.nil {s : State} (h : PackReady s) : PackedAfter s [] s := ⟨h, rfl, (List.append_nil _).symm⟩

theorem PackedAfter.trans {s t u : State} {a b : List Bool} (h : PackedAfter s a t) (h' : PackedAfter t b u) :
    PackedAfter s (a ++ b) u where
  ready := h'.ready
  frame := by rw [h'.frame, h.frame]
  packed := by rw [h'.packed, h.packed, List.append_assoc]

section

variable {s t : State} {bits : List Bool} (h : PackedAfter s bits t)

include h

theorem PackedAfter.cfg_eq : t.cfg = s.cfg := by rw [h.frame]
theorem PackedAfter.streamed_eq : t.streamed = s.streamed := by rw [h.frame]
theorem PackedAfter.fields_eq : t.fields = s.fields := by rw [h.frame]

theorem PackedAfter.position : packPosition t = packPosition s + bits.length := by
  rw [← length_packedBits, h.packed, List.length_append, length_packedBits]

end

/-! ## PACK -/

section

variable {s : State} {nbits : Nat} (ready : PackReady s) (value : Word) (hn : nbits ≤ maxbits s.streamed)

include ready hn

/-- PACK within the word. -/
theorem packedAfter_packStep_within (hc : s.wcur + nbits < maxbits s.streamed) :
    PackedAfter s (lowBits value nbits)
      { s with acc := s.acc ||| ((value &&& mask nbits) <<< s.wcur), wcur := s.wcur + nbits, pmode := .serial } where
  ready :=
    { pass_eq := ready.pass_eq
      pmode_ne := nofun
      wcur_lt := hc
      acc_lt := by
        have hm := maxbits_le s.streamed
        apply toNat_lt_two_pow_of_getLsbD
        intro k (hk : s.wcur + nbits ≤ k)
        rw [BitVec.getLsbD_or, getLsbD_of_lt_two_pow ready.acc_lt (by omega), BitVec.getLsbD_shiftLeft,
          getLsbD_and_mask _ (by omega), decide_eq_false (show ¬ k - s.wcur < nbits by omega), Bool.and_false,
          Bool.and_false, Bool.or_false]
      fits_max := ready.fits_max }
  frame := rfl
  packed := by
    have hm := maxbits_le s.streamed
    rw [packedBits, packedBits, wordBits_or_shift s.acc value (by omega) ready.acc_lt, ← List.append_assoc]
    rfl

/-- PACK over a word's end. -/
theorem packedAfter_packStep_over (hc : maxbits s.streamed ≤ s.wcur + nbits)
    (room : fits s.cfg (s.payload.length + 1) = true) :
    PackedAfter s (lowBits value nbits)
      { s with payload := s.payload ++ [emittedWord s (s.acc ||| ((value &&& mask nbits) <<< s.wcur))],
               acc := (value &&& mask nbits) >>> (nbits - (s.wcur + nbits - maxbits s.streamed)),
               wcur := s.wcur + nbits - maxbits s.streamed, pmode := .serial } := by
  have hm := maxbits_le s.streamed
  have hw := ready.wcur_lt
  obtain ⟨left, hleft⟩ : ∃ left, s.wcur + nbits = maxbits s.streamed + left := ⟨_, (Nat.add_sub_of_le hc).symm⟩
  have taken : nbits - left = maxbits s.streamed - s.wcur := by omega
  have parts : nbits = maxbits s.streamed - s.wcur + left := by omega
  rw [hleft, Nat.add_sub_cancel_left, taken]
  generalize hx : value &&& mask nbits = x
  have emitted : wordBits (maxbits s.streamed) (emittedWord s (s.acc ||| (x <<< s.wcur))) =
      wordBits s.wcur s.acc ++ wordBits (maxbits s.streamed - s.wcur) x :=
    (wordBits_congr fun k hk => getLsbD_emittedWord s _ hk).trans
      (wordBits_or_shift_cut s.acc x hw.le hm ready.acc_lt)
  have field : lowBits value nbits =
      wordBits (maxbits s.streamed - s.wcur) x ++ wordBits left (x >>> (maxbits s.streamed - s.wcur)) := by
    rw [← wordBits_add, ← parts, ← hx, wordBits_and_mask value (by omega), lowBits_eq_wordBits]
  refine ⟨⟨ready.pass_eq, nofun, ?wcur, ?acc, ?fits⟩, rfl, ?packed⟩
  case wcur => exact show left < maxbits s.streamed by omega
  case acc =>
    apply toNat_lt_two_pow_of_getLsbD
    intro k (hk : left ≤ k)
    rw [BitVec.getLsbD_ushiftRight, ← hx, getLsbD_and_mask _ (by omega), Bool.and_eq_false_iff]
    exact .inr (decide_eq_false (by omega))
  case fits => simpa using room
  case packed =>
    rw [packedBits, packedBits, bitstream_append, bitstream_cons, emitted, field]
    simp [bitstream]

/-- PACK appends the low bits of its value; the room it needs is that of the words completed then. -/
theorem packBody_packs :
    PacksIf (fits s.cfg ((packPosition s + nbits) / maxbits s.streamed) = true) (PackedAfter s (lowBits value nbits))
      (packBody value nbits s) := by
  have hpos := maxbits_pos s.streamed
  have hw := ready.wcur_lt
  rw [packBody_eq value hn ready.pass_eq ready.pmode_ne]
  by_cases hc : s.wcur + nbits < maxbits s.streamed
  · rw [packStep_within value hc]
    exact packedAfter_packStep_within ready value hn hc
  · have hc := Nat.le_of_not_lt hc
    have words : (packPosition s + nbits) / maxbits s.streamed = s.payload.length + 1 := by
      rw [packPosition, Nat.add_assoc, Nat.mul_comm, Nat.mul_add_div hpos, Nat.div_eq_of_lt_le (k := 1) (by omega) (by omega)]
    rw [words]
    cases room : fits s.cfg (s.payload.length + 1) with
    | false => rw [packStep_full value hc room]; exact ⟨rfl, nofun⟩
    | true => rw [packStep_over value hc room]; exact packedAfter_packStep_over ready value hn hc room

end

/-! ## PACK_FLUSH -/

/-- The words for `len` whole words' bits and fewer than a word's more. -/
theorem wordsFor_of_lt {len w m : Nat} (hw : w < m) : wordsFor (len * m + w) m = if w = 0 then len else len + 1 := by
  have hm : 0 < m := by omega
  rw [wordsFor, Nat.add_assoc, Nat.add_sub_assoc (by omega), Nat.mul_comm, Nat.mul_add_div hm]
  split
  · rw [Nat.div_eq_of_lt (by omega)]; rfl
  · rw [Nat.div_eq_of_lt_le (k := 1) (by omega) (by omega)]

/-- `t` is `s` flushed: the bits packed, and zeros up to a word boundary (40_bitstream.md R136). -/
structure FlushedAfter (s t : State) : Prop where
  frame : t = { s with payload := t.payload, acc := 0, wcur := 0, pmode := .serial }
  fits_max : fits s.cfg t.payload.length = true
  length : t.payload.length = wordsFor (packPosition s) (maxbits s.streamed)
  stream : bitstream t.payload (maxbits s.streamed) =
    packedBits s ++ List.replicate (t.payload.length * maxbits s.streamed - packPosition s) false

theorem packFlushBody_packs {s : State} (ready : PackReady s) :
    PacksIf (fits s.cfg (wordsFor (packPosition s) (maxbits s.streamed)) = true) (FlushedAfter s) (packFlushBody s) := by
  have hw := ready.wcur_lt
  have words : wordsFor (packPosition s) (maxbits s.streamed) = _ := wordsFor_of_lt hw
  by_cases hz : s.wcur = 0
  · have acc : s.acc = 0 := BitVec.eq_of_toNat_eq (by simpa [hz] using ready.acc_lt)
    rw [packFlushBody_of_wcur_eq_zero ready.pass_eq ready.pmode_ne hz]
    refine ⟨?_, ready.fits_max, ?_, ?_⟩
    · rw [← acc, ← hz]
    · rw [words, if_pos hz]
    · simp [packedBits, packPosition, hz, wordBits]
  · rw [if_neg hz] at words
    rw [words]
    cases room : fits s.cfg (s.payload.length + 1) with
    | false => rw [packFlushBody_full ready.pass_eq ready.pmode_ne (by omega) room]; exact ⟨rfl, nofun⟩
    | true =>
      rw [packFlushBody_emits ready.pass_eq ready.pmode_ne (by omega) room]
      have emitted : wordBits (maxbits s.streamed) (emittedWord s s.acc) =
          wordBits s.wcur s.acc ++ List.replicate (maxbits s.streamed - s.wcur) false :=
        (wordBits_congr fun k hk => getLsbD_emittedWord s _ hk).trans (wordBits_of_lt ready.acc_lt hw.le)
      refine ⟨rfl, by simpa using room, by simpa using words.symm, ?_⟩
      have rest : (s.payload.length + 1) * maxbits s.streamed - packPosition s = maxbits s.streamed - s.wcur := by
        rw [packPosition, Nat.succ_mul, Nat.add_sub_add_left]
      rw [bitstream_append, bitstream_cons, emitted, packedBits, List.length_append, List.length_singleton, rest]
      simp [bitstream]

/-! ## The walk over the items (43_marshaller.md R263) -/

theorem packItems_cons (it : SerialItem) (rest : List SerialItem) (s : State) :
    packItems (it :: rest) s = (packBody (s.field it.fid it.slice it.index) it.width s).bind (packItems rest) := by
  rw [packItems]
  cases packBody (s.field it.fid it.slice it.index) it.width s <;> rfl

/-- The bits of the items' fields, in order. -/
def itemBits (s : State) (items : List SerialItem) : List Bool :=
  items.flatMap fun it => lowBits (s.field it.fid it.slice it.index) it.width

theorem length_lowBits (v : Word) (n : Nat) : (lowBits v n).length = n := length_wordBits n v

theorem length_itemBits (s : State) (items : List SerialItem) : (itemBits s items).length = (items.map (·.width)).sum := by
  simp [itemBits, List.length_flatMap, length_lowBits]

theorem itemBits_congr {s t : State} (h : t.fields = s.fields) (items : List SerialItem) : itemBits t items = itemBits s items := by
  simp only [itemBits, State.field, h]

theorem packItems_packs (items : List SerialItem) {s : State} (ready : PackReady s)
    (widths : ∀ it ∈ items, it.width ≤ maxbits s.streamed) :
    PacksIf (fits s.cfg ((packPosition s + (items.map (·.width)).sum) / maxbits s.streamed) = true)
      (PackedAfter s (itemBits s items)) (packItems items s) := by
  induction items generalizing s with
  | nil => exact .nil ready
  | cons it rest ih =>
    rw [packItems_cons]
    refine (packBody_packs ready _ (widths it List.mem_cons_self)).bind (fits_mono (Nat.div_le_div_right ?_)) fun t ht => ?_
    · simp
    · have goOn := ih ht.ready fun x hx => ht.streamed_eq ▸ widths x (List.mem_cons_of_mem it hx)
      rw [ht.position, ht.cfg_eq, ht.streamed_eq, length_lowBits] at goOn
      refine goOn.imp (by simp [Nat.add_assoc]) fun u hu => ?_
      rw [itemBits_congr ht.fields_eq] at hu
      exact ht.trans hu

/-- `s` in streamed mode or not. -/
def State.inMode (s : State) (streamed : Bool) : State := { s with streamed := streamed }

/-- The mode in which MPACK and MUNPACK walk a serial layout is the layout's (43_marshaller.md R263, R267). -/
theorem inMode_eq {s : State} {streamed : Bool} (h : s.streamed = true → streamed = true) :
    (if streamed = true then { s with streamed := true } else s) = s.inMode streamed := by
  cases streamed with
  | true => rfl
  | false =>
    have plain : s.streamed = false := by simpa using h
    rw [State.inMode, if_neg nofun, ← plain]

/-- `packUncompressed`: the items, then the flush. -/
theorem packUncompressed_eq (L : SerialLayout) {s : State} (h : s.streamed = true → L.streamed = true) :
    packUncompressed L s = (packItems L.items (s.inMode L.streamed)).bind packFlushBody := by
  rw [packUncompressed, inMode_eq h]
  cases packItems L.items (s.inMode L.streamed) <;> rfl

/-! ## MPACK -/

theorem exec_mpack (s : State) : exec .mpack s = finish s (mpackBody s) := rfl

theorem chooseLayout_serial {s : State} {L : SerialLayout} (layout : layoutOf s.cfg s.kind s.hdr = some (.serial L))
    (h : s.streamed = true → L.streamed = true) : chooseLayout s = .ok (.serial L) := by
  have format : (hdrFormat s.hdr).toNat = 1 := by rw [(layoutOf_serial layout).1]; rfl
  have modes : ¬ (s.streamed && !L.streamed) = true := by simpa using h
  simp [chooseLayout, format, layout, modes]

/-- The walk over a layout that MPACK makes (43_marshaller.md R262). -/
def packLayout : Layout → State → Except Status State
  | .serial L => packUncompressed L
  | .neutral L => packNeutralLayout L

/-- MPACK is the walk over its layout, once the checks before it have passed (43_marshaller.md R262). -/
theorem mpackBody_eq {s : State} (header : wordtype s.hdr = .header) (pass : s.pass = .pack) (mode : s.pmode = .none)
    (empty : s.payload = []) {L : Layout} (choice : chooseLayout s = .ok L) :
    mpackBody s = (packLayout L s).map fun t => (t, 1) := by
  rw [mpackBody, if_neg (by simp [header]), if_neg (by simp [pass, mode, empty]), choice]
  cases L with
  | serial L => dsimp only [packLayout]; cases packUncompressed L s <;> rfl
  | neutral L => dsimp only [packLayout]; cases packNeutralLayout L s <;> rfl

/-- How MPACK ends, from how its walk ends. -/
theorem completes_mpack {s t : State} (body : mpackBody s = (Except.ok t).map fun t => (t, 1)) : Completes .mpack s t 1 :=
  completes_of_ok (exec_mpack s) body

theorem refusedWith_mpack {s : State} {e : Status} (body : mpackBody s = (Except.error e).map fun t => (t, 1)) :
    RefusedWith .mpack s e :=
  refusedWith_of_error (exec_mpack s) body

/-- `t` is `s` with the fields of a serial layout in an empty payload, zeros up to a word boundary. -/
structure SerialPacked (s : State) (L : SerialLayout) (t : State) : Prop where
  frame : t = { s with payload := t.payload, streamed := L.streamed, pmode := .serial }
  fits_max : fits s.cfg t.payload.length = true
  length : t.payload.length = wordsFor (serialBits L) (maxbits L.streamed)
  stream : bitstream t.payload (maxbits L.streamed) =
    itemBits s L.items ++ List.replicate (t.payload.length * maxbits L.streamed - serialBits L) false

/-- The room a serial layout needs is that of the words it fills. -/
theorem packUncompressed_packs {s : State} {L : SerialLayout} (hinv : s.Inv) (pass : s.pass = .pack)
    (mode : s.pmode = .none) (empty : s.payload = []) (layout : layoutOf s.cfg s.kind s.hdr = some (.serial L))
    (modes : s.streamed = true → L.streamed = true) :
    PacksIf (fits s.cfg (wordsFor (serialBits L) (maxbits L.streamed)) = true) (SerialPacked s L) (packUncompressed L s) := by
  have wcur : s.wcur = 0 := (hinv.not_serial (by rw [mode]; nofun)).1
  have acc_lt : s.acc.toNat < 2 ^ 0 := wcur ▸ hinv.acc_lt
  have acc : s.acc = 0 := BitVec.eq_of_toNat_eq (by simpa using acc_lt)
  have ready : PackReady (s.inMode L.streamed) :=
    { pass_eq := pass
      pmode_ne := by rw [State.inMode, mode]; nofun
      wcur_lt := by rw [State.inMode, wcur]; exact maxbits_pos _
      acc_lt := hinv.acc_lt
      fits_max := hinv.fits_max }
  have position : packPosition (s.inMode L.streamed) = 0 := by simp [packPosition, State.inMode, empty, wcur]
  have nothing : packedBits (s.inMode L.streamed) = [] := List.length_eq_zero_iff.mp ((length_packedBits _).trans position)
  have widths : ∀ it ∈ L.items, it.width ≤ maxbits L.streamed := fun it hit => ((layoutOf_serial layout).2.1 it hit).1
  rw [packUncompressed_eq L modes]
  refine (packItems_packs L.items ready widths).bind (fits_mono ?_) fun t ht => ?_
  · rw [position, Nat.zero_add]
    exact Nat.div_le_div_right (by have := maxbits_pos L.streamed; rw [serialBits]; omega)
  · have total : packPosition t = serialBits L := by
      rw [ht.position, position, length_itemBits, Nat.zero_add, serialBits]
    have streamed : t.streamed = L.streamed := ht.streamed_eq
    have flush := packFlushBody_packs ht.ready
    rw [ht.cfg_eq, streamed, total] at flush
    refine flush.imp id fun u hu => ?_
    obtain ⟨frame, fits, length, stream⟩ := hu
    rw [streamed, total] at length stream
    rw [ht.packed, nothing, List.nil_append] at stream
    refine ⟨?_, ht.cfg_eq ▸ fits, length, stream⟩
    rw [frame, ht.frame, acc, wcur]
    rfl

/-- Settles O53: the walk appends the fields to an empty bitstream, and the flush pads the last word. -/
theorem mpackPacksASerialLayout : Obligations.MpackPacksASerialLayout := by
  unfold Obligations.MpackPacksASerialLayout
  intro s L hinv header pass mode empty layout modes
  have body := mpackBody_eq header pass mode empty (chooseLayout_serial layout modes)
  have walk := packUncompressed_packs hinv pass mode empty layout modes
  constructor
  · intro noRoom
    have full := walk.full_of_not_post fun t ht => by
      rw [← ht.length, ht.fits_max] at noRoom
      cases noRoom
    rw [packLayout, full] at body
    exact refusedWith_mpack body
  · intro room
    obtain ⟨t, packed, ht⟩ := walk.ok_of_room room
    rw [packLayout, packed] at body
    exact ⟨t, completes_mpack body, ht.frame, ht.length, ht.stream⟩

end Sys2Proof.Machine

/-! MPACK of a neutral layout (43_marshaller.md R262, R264): what each lane holds as a list of bits, then the walk over the
items, the parities and the slices. -/

namespace Sys2Proof.Machine

open Sys2Proof Sys2Proof.Spec

/-! ## Odd counts -/

/-- Whether a list holds an odd number of ones. -/
def oddCount (l : List Bool) : Bool := l.count true % 2 == 1

theorem oddOnes_eq_oddCount (v : Word) (n : Nat) : oddOnes v n = oddCount (lowBits v n) := rfl

theorem oddCount_append (a b : List Bool) : oddCount (a ++ b) = (oddCount a ^^ oddCount b) := by
  rw [oddCount, oddCount, oddCount, List.count_append]
  rcases Nat.mod_two_eq_zero_or_one (a.count true) with ha | ha <;>
    rcases Nat.mod_two_eq_zero_or_one (b.count true) with hb | hb <;> simp [Nat.add_mod, ha, hb]

/-- The odd-parity bit of a list is the one that makes the count odd (41_neutral.md R178). -/
theorem beq_zero_eq_xor_oddCount (l : List Bool) : (l.count true % 2 == 0) = (true ^^ oddCount l) := by
  rw [oddCount]
  rcases Nat.mod_two_eq_zero_or_one (l.count true) with h | h <;> simp [h]

theorem lowBits_boolWord_one (b : Bool) : lowBits (boolWord b) 1 = [b] := by
  cases b <;> rfl

/-- One bit of a list of bits with those of a value after it. -/
theorem getD_append_lowBits (l : List Bool) (v : Word) (n i : Nat) (d : Bool) :
    (l ++ lowBits v n).getD i d =
      if l.length ≤ i ∧ i < l.length + n then v.toNat.testBit (i - l.length) else l.getD i d := by
  rw [List.getD_eq_getElem?_getD, List.getD_eq_getElem?_getD]
  by_cases hi : i < l.length
  · rw [List.getElem?_append_left hi, if_neg (by omega)]
  · rw [List.getElem?_append_right (by omega), List.getElem?_eq_none (l := l) (by omega)]
    by_cases hn : i - l.length < n
    · rw [if_pos (by omega)]
      simp [lowBits, hn]
    · rw [if_neg (by omega), List.getElem?_eq_none (by rw [length_lowBits]; omega)]

/-! ## What the lanes hold -/

/-- From `s`, whose payload was empty, the lanes have been packed with the bits `lanes`, row by row, and stand with the
parities `par`: `t` is `s` but for that, and whatever no lane has written is `NEUTRAL_FILL` (41_neutral.md R172 to R174). -/
structure LanesPacked (s : State) (lanes : Nat → List Bool) (par : Nat → Bool) (t : State) : Prop where
  frame : t = { s with payload := t.payload, pincur := t.pincur, par := t.par, pmode := t.pmode }
  pass_eq : t.pass = .pack
  pmode_ne : t.pmode ≠ .serial
  pmode_eq : t.payload ≠ [] → t.pmode = .neutral
  cursor_eq : ∀ q, t.cursor q = (lanes q).length
  parity_eq : ∀ q, t.parity q = par q
  lane_le : ∀ q, (lanes q).length ≤ t.payload.length
  lane_max : ∃ q, t.payload.length = (lanes q).length
  bit : ∀ row < t.payload.length, ∀ col < 32,
    laneBit t.payload col row = (lanes col).getD row (s.cfg.neutralFill.toNat.testBit col)
  fits_max : fits s.cfg t.payload.length = true

section

variable {s t : State} {lanes : Nat → List Bool} {par : Nat → Bool} (h : LanesPacked s lanes par t)

include h

theorem LanesPacked.cfg_eq : t.cfg = s.cfg := by rw [h.frame]

theorem LanesPacked.field_eq (fid slice index : Slot) : t.field fid slice index = s.field fid slice index := by
  rw [h.frame]; rfl

theorem LanesPacked.congr {lanes' : Nat → List Bool} {par' : Nat → Bool} (hl : ∀ q, lanes q = lanes' q)
    (hp : ∀ q, par q = par' q) : LanesPacked s lanes' par' t := by
  obtain rfl : lanes = lanes' := funext hl
  obtain rfl : par = par' := funext hp
  exact h

/-- One lane goes on: its bits are appended, every other lane stays. -/
theorem LanesPacked.goOn {pin : Nat} (hp : pin < 32) (value : Word) (nbits : Nat) (parity : Bool)
    (room : fits s.cfg ((lanes pin).length + nbits) = true) :
    LanesPacked s (fun q => lanes q ++ if q = pin then lowBits value nbits else [])
      (fun q => if q = pin then parity else par q) (packedLane t pin value nbits parity) := by
  have length : (packedColumn t pin value nbits).length = max t.payload.length ((lanes pin).length + nbits) := by
    rw [length_packedColumn, h.cursor_eq]
  have lane_length : ∀ q, (lanes q ++ if q = pin then lowBits value nbits else []).length =
      if q = pin then (lanes pin).length + nbits else (lanes q).length := by
    intro q
    split
    · rename_i hq; rw [hq, List.length_append, length_lowBits]
    · rw [List.append_nil]
  have le := h.lane_le
  refine ⟨?frame, h.pass_eq, nofun, fun _ => rfl, fun q => ?cursor, fun q => ?parity, fun q => ?lane_le, ?lane_max,
    fun row hrow col hcol => ?bit, ?fits⟩
  case frame => rw [packedLane, State.moveLane, h.frame]; rfl
  case cursor =>
    rw [lane_length]
    refine (State.cursor_moveLane hp t nbits parity q).trans ?_
    split
    · rename_i hq; rw [hq, h.cursor_eq]
    · exact h.cursor_eq q
  case parity => exact (State.parity_moveLane hp t nbits parity q).trans (by rw [h.parity_eq])
  case lane_le =>
    rw [lane_length]
    refine le_of_le_of_eq ?_ length.symm
    split
    · exact Nat.le_max_right _ _
    · exact (le q).trans (Nat.le_max_left _ _)
  case lane_max =>
    obtain ⟨m, hm⟩ := h.lane_max
    by_cases grown : t.payload.length ≤ (lanes pin).length + nbits
    · exact ⟨pin, by rw [lane_length, if_pos rfl]; exact length.trans (Nat.max_eq_right grown)⟩
    · have other : m ≠ pin := by rintro rfl; omega
      refine ⟨m, ?_⟩
      rw [lane_length, if_neg other, ← hm]
      exact length.trans (Nat.max_eq_left (by omega))
  case bit =>
    refine (laneBit_packedColumn hp t value nbits hrow col).trans ?_
    have old : (if row < t.payload.length then laneBit t.payload col row else t.cfg.neutralFill.toNat.testBit col) =
        (lanes col).getD row (s.cfg.neutralFill.toNat.testBit col) := by
      split
      · exact h.bit row ‹_› col hcol
      · have := le col
        rw [h.cfg_eq, List.getD_eq_default _ _ (by omega)]
    rw [old, h.cursor_eq]
    by_cases hc : col = pin
    · simp only [hc, true_and, if_true, getD_append_lowBits]
    · simp only [hc, false_and, if_false, List.append_nil]
  case fits =>
    have fit : fits s.cfg (max t.payload.length ((lanes pin).length + nbits)) = true := by
      rcases Nat.le_total t.payload.length ((lanes pin).length + nbits) with hle | hle
      · rwa [Nat.max_eq_right hle]
      · rw [Nat.max_eq_left hle]; exact h.fits_max
    exact length ▸ fit

/-- PACK_NEUTRAL appends the low bits of its value to its lane and folds them into its parity. -/
theorem LanesPacked.packNeutralBody_packs {pin nbits : Nat} (hpin : pin < maxPins s.cfg) (hn : nbits ≤ 32) (value : Word) :
    PacksIf (fits s.cfg ((lanes pin).length + nbits) = true)
      (LanesPacked s (fun q => lanes q ++ if q = pin then lowBits value nbits else [])
        (fun q => if q = pin then par q ^^ oddOnes value nbits else par q))
      (packNeutralBody pin value nbits t) := by
  have hp : pin < 32 := hpin.trans_le (maxPins_le s.cfg)
  rw [packNeutralBody_eq value (h.cfg_eq ▸ hpin) hn h.pass_eq h.pmode_ne, h.cursor_eq, h.cfg_eq, h.parity_eq]
  by_cases room : fits s.cfg ((lanes pin).length + nbits) = true
  · rw [if_pos room]
    refine (h.goOn hp value nbits _ room).congr (fun q => rfl) fun q => ?_
    refine if_ctx_congr Iff.rfl ?_ (fun _ => rfl)
    rintro rfl
    rfl
  · rw [if_neg room]; exact ⟨rfl, room⟩

/-- PACK_NEUTRAL_PARITY appends its lane's parity and starts it anew. -/
theorem LanesPacked.packNeutralParityBody_packs {pin : Nat} (hpin : pin < maxPins s.cfg) :
    PacksIf (fits s.cfg ((lanes pin).length + 1) = true)
      (LanesPacked s (fun q => lanes q ++ if q = pin then [par pin] else []) (fun q => if q = pin then true else par q))
      (packNeutralParityBody pin t) := by
  have hp : pin < 32 := hpin.trans_le (maxPins_le s.cfg)
  rw [packNeutralParityBody_eq (h.cfg_eq ▸ hpin) h.pass_eq h.pmode_ne, h.cursor_eq, h.cfg_eq, h.parity_eq]
  by_cases room : fits s.cfg ((lanes pin).length + 1) = true
  · rw [if_pos room, ← lowBits_boolWord_one (par pin)]
    exact h.goOn hp _ 1 true room
  · rw [if_neg room]; exact ⟨rfl, room⟩

end

/-! ## One slice (43_marshaller.md R264) -/

/-- The data bits of one lane in one slice. -/
def laneData (s : State) (slice : Slot) (items : List NeutralItem) (pin : Nat) : List Bool :=
  (items.filter (fun it => it.pin == pin)).flatMap fun it => lowBits (s.field it.fid slice it.index) it.width

theorem laneData_cons (s : State) (slice : Slot) (it : NeutralItem) (rest : List NeutralItem) (pin : Nat) :
    laneData s slice (it :: rest) pin =
      (if pin = it.pin then lowBits (s.field it.fid slice it.index) it.width else []) ++ laneData s slice rest pin := by
  rw [laneData, laneData, List.filter_cons]
  by_cases h : pin = it.pin
  · simp [h]
  · simp [h, Ne.symm h]

theorem length_laneData (s : State) (slice : Slot) (L : NeutralLayout) (pin : Nat) :
    (laneData s slice L.items pin).length = laneBits L pin := by
  simp [laneData, laneBits, List.length_flatMap, length_lowBits]

theorem laneSlice_eq (s : State) (L : NeutralLayout) (pin slice : Nat) :
    laneSlice s L pin slice = laneData s (BitVec.ofNat 8 slice) L.items pin ++
      [true ^^ oddCount (laneData s (BitVec.ofNat 8 slice) L.items pin)] := by
  rw [← beq_zero_eq_xor_oddCount]
  rfl

theorem packNeutralItems_cons (slice : Slot) (it : NeutralItem) (rest : List NeutralItem) (s : State) :
    packNeutralItems slice (it :: rest) s =
      (packNeutralBody it.pin (s.field it.fid slice it.index) it.width s).bind (packNeutralItems slice rest) := by
  rw [packNeutralItems]
  cases packNeutralBody it.pin (s.field it.fid slice it.index) it.width s <;> rfl

theorem packParities_cons (pin : Nat) (rest : List Nat) (s : State) :
    packParities (pin :: rest) s = (packNeutralParityBody pin s).bind (packParities rest) := by
  rw [packParities]
  cases packNeutralParityBody pin s <;> rfl

theorem packNeutralItems_packs (slice : Slot) (items : List NeutralItem) {s t : State} {lanes : Nat → List Bool}
    {par : Nat → Bool} (h : LanesPacked s lanes par t)
    (operands : ∀ it ∈ items, it.pin < maxPins s.cfg ∧ it.width ≤ 32) :
    PacksIf (∀ q, fits s.cfg ((lanes q).length + (laneData s slice items q).length) = true)
      (LanesPacked s (fun q => lanes q ++ laneData s slice items q)
        (fun q => par q ^^ oddCount (laneData s slice items q)))
      (packNeutralItems slice items t) := by
  induction items generalizing t lanes par with
  | nil => exact h.congr (fun q => (List.append_nil _).symm) (fun q => (Bool.xor_false _).symm)
  | cons it rest ih =>
    obtain ⟨hpin, hwidth⟩ := operands it List.mem_cons_self
    rw [packNeutralItems_cons, h.field_eq]
    refine (h.packNeutralBody_packs hpin hwidth _).bind (fun room => fits_mono ?_ (room it.pin)) fun u hu => ?_
    · rw [laneData_cons, if_pos rfl, List.length_append, length_lowBits]; omega
    · refine (ih hu fun x hx => operands x (List.mem_cons_of_mem it hx)).imp (fun room q => ?_) fun v hv => hv.congr ?_ ?_
      · have := room q
        rwa [laneData_cons, List.length_append, ← Nat.add_assoc, ← List.length_append] at this
      · intro q
        rw [laneData_cons, List.append_assoc]
      · intro q
        rw [laneData_cons, oddCount_append]
        split
        · rw [oddOnes_eq_oddCount, Bool.xor_assoc]
        · rw [show oddCount [] = false from rfl, Bool.false_xor]

theorem packParities_packs {pins : List Nat} (nodup : pins.Nodup) {s t : State} {lanes : Nat → List Bool}
    {par : Nat → Bool} (h : LanesPacked s lanes par t) (operands : ∀ p ∈ pins, p < maxPins s.cfg) :
    PacksIf (∀ q ∈ pins, fits s.cfg ((lanes q).length + 1) = true)
      (LanesPacked s (fun q => lanes q ++ if q ∈ pins then [par q] else []) (fun q => if q ∈ pins then true else par q))
      (packParities pins t) := by
  induction pins generalizing t lanes par with
  | nil => exact h.congr (fun q => by simp) (fun q => by simp)
  | cons p rest ih =>
    obtain ⟨hp, nodup⟩ := List.nodup_cons.mp nodup
    rw [packParities_cons]
    refine (h.packNeutralParityBody_packs (operands p List.mem_cons_self)).bind (fun room => room p List.mem_cons_self)
      fun u hu => ?_
    refine (ih nodup hu fun x hx => operands x (List.mem_cons_of_mem p hx)).imp (fun room q hq => ?_) fun v hv => hv.congr ?_ ?_
    · have other : q ≠ p := by rintro rfl; exact hp hq
      simpa [other] using room q (List.mem_cons_of_mem p hq)
    · intro q
      by_cases hq : q = p
      · subst hq; simp [hp]
      · simp [hq]
    · intro q
      by_cases hq : q = p
      · subst hq; simp
      · simp [hq]

/-! ## The slices -/

theorem packSlices_succ (L : NeutralLayout) (first count : Nat) (s : State) :
    packSlices L first (count + 1) s =
      ((packNeutralItems (BitVec.ofNat 8 first) L.items s).bind (packParities L.pins)).bind
        (packSlices L (first + 1) count) := by
  rw [packSlices]
  cases packNeutralItems (BitVec.ofNat 8 first) L.items s with
  | error e => rfl
  | ok t =>
    dsimp only [Except.bind]
    cases packParities L.pins t <;> rfl

/-- What the walks over a neutral layout ask of it; all of it holds for a layout of the table. -/
structure NeutralLayoutOk (c : Config) (L : NeutralLayout) : Prop where
  bpspp_pos : 1 ≤ L.bpspp
  nodup : L.pins.Nodup
  pin_lt : ∀ p ∈ L.pins, p < maxPins c
  laneBits_eq : ∀ p ∈ L.pins, laneBits L p + 1 = L.bpspp
  item_pin : ∀ it ∈ L.items, it.pin ∈ L.pins
  item_width : ∀ it ∈ L.items, it.width ≤ 32
  item_fid : ∀ it ∈ L.items, it.fid ≠ parityFid

theorem neutralLayoutOk {c : Config} {k : Kind} {w : Word} {L : NeutralLayout} (h : layoutOf c k w = some (.neutral L)) :
    NeutralLayoutOk c L := by
  obtain ⟨-, pos, nodup, pins, items⟩ := layoutOf_neutral h
  exact ⟨pos, nodup, fun p hp => (pins p hp).1, fun p hp => by rw [(pins p hp).2]; omega, fun it hit => (items it hit).1,
    fun it hit => (items it hit).2.1, fun it hit => (items it hit).2.2⟩

/-- A lane that the layout does not use has no items. -/
theorem NeutralLayoutOk.filter_eq_nil {c : Config} {L : NeutralLayout} (hL : NeutralLayoutOk c L) {pin : Nat} (h : pin ∉ L.pins) :
    L.items.filter (fun it => it.pin == pin) = [] := by
  refine List.filter_eq_nil_iff.mpr fun it hit same => h ?_
  rw [← eq_of_beq same]
  exact hL.item_pin it hit

theorem NeutralLayoutOk.laneData_eq_nil {c : Config} {L : NeutralLayout} (hL : NeutralLayoutOk c L) {pin : Nat} (h : pin ∉ L.pins)
    (s : State) (slice : Slot) : laneData s slice L.items pin = [] := by
  rw [laneData, hL.filter_eq_nil h, List.flatMap_nil]

theorem NeutralLayoutOk.length_laneSlice {c : Config} {L : NeutralLayout} (hL : NeutralLayoutOk c L) {pin : Nat} (h : pin ∈ L.pins)
    (s : State) (slice : Nat) : (laneSlice s L pin slice).length = L.bpspp := by
  rw [laneSlice_eq, List.length_append, length_laneData]
  exact hL.laneBits_eq pin h

/-- The bits of a lane in the slices from `first` on, `count` of them. -/
def laneSlices (s : State) (L : NeutralLayout) (first count pin : Nat) : List Bool :=
  if pin ∈ L.pins then (List.range' first count).flatMap (laneSlice s L pin) else []

section

variable {s t : State} {L : NeutralLayout} {lanes : Nat → List Bool} (hL : NeutralLayoutOk s.cfg L)

include hL

theorem packSlice_packs (slice : Nat) (h : LanesPacked s lanes (fun _ => true) t) :
    PacksIf (∀ q, fits s.cfg ((lanes q).length + L.bpspp) = true)
      (LanesPacked s (fun q => lanes q ++ if q ∈ L.pins then laneSlice s L q slice else []) (fun _ => true))
      ((packNeutralItems (BitVec.ofNat 8 slice) L.items t).bind (packParities L.pins)) := by
  have operands : ∀ it ∈ L.items, it.pin < maxPins s.cfg ∧ it.width ≤ 32 :=
    fun it hit => ⟨hL.pin_lt _ (hL.item_pin it hit), hL.item_width it hit⟩
  refine (packNeutralItems_packs (BitVec.ofNat 8 slice) L.items h operands).bind (fun room q => fits_mono ?_ (room q))
    fun u hu => ?_
  · rw [Nat.add_le_add_iff_left]
    by_cases hq : q ∈ L.pins
    · rw [length_laneData]; have := hL.laneBits_eq q hq; omega
    · rw [hL.laneData_eq_nil hq]; exact Nat.zero_le _
  · refine (packParities_packs hL.nodup hu hL.pin_lt).imp (fun room q hq => ?_) fun v hv => hv.congr (fun q => ?_) fun q => ?_
    · rw [List.length_append, length_laneData, Nat.add_assoc, hL.laneBits_eq q hq]
      exact room q
    · by_cases hq : q ∈ L.pins
      · rw [if_pos hq, if_pos hq, List.append_assoc, laneSlice_eq]
      · rw [if_neg hq, if_neg hq, hL.laneData_eq_nil hq, List.append_nil]
    · by_cases hq : q ∈ L.pins
      · exact if_pos hq
      · rw [if_neg hq, hL.laneData_eq_nil hq]; rfl

theorem packSlices_packs (count first : Nat) (h : LanesPacked s lanes (fun _ => true) t) :
    PacksIf (∀ q, fits s.cfg ((lanes q).length + count * L.bpspp) = true)
      (LanesPacked s (fun q => lanes q ++ laneSlices s L first count q) (fun _ => true)) (packSlices L first count t) := by
  induction count generalizing first t lanes with
  | zero => exact h.congr (fun q => by simp [laneSlices]) (fun _ => rfl)
  | succ count ih =>
    rw [packSlices_succ]
    refine (packSlice_packs hL first h).bind (fun room q => fits_mono ?_ (room q)) fun u hu => ?_
    · rw [Nat.succ_mul]; omega
    · refine (ih (first + 1) hu).imp (fun room q => fits_mono ?_ (room q)) fun v hv => hv.congr (fun q => ?_) (fun _ => rfl)
      · rw [List.length_append, Nat.succ_mul]
        by_cases hq : q ∈ L.pins
        · rw [if_pos hq, hL.length_laneSlice hq]; omega
        · rw [if_neg hq]; simp
      · by_cases hq : q ∈ L.pins <;> simp [laneSlices, hq, List.range'_succ]

end

/-- One bit of blocks of one length side by side. -/
theorem getElem?_flatMap_range' {α : Type} {f : Nat → List α} {b : Nat} (hf : ∀ i, (f i).length = b) {count i k : Nat}
    (first : Nat) (hi : i < count) (hk : k < b) :
    ((List.range' first count).flatMap f)[i * b + k]? = (f (first + i))[k]? := by
  induction count generalizing first i with
  | zero => omega
  | succ count ih =>
    rw [List.range'_succ, List.flatMap_cons]
    cases i with
    | zero => rw [List.getElem?_append_left (by rw [hf]; omega), Nat.zero_mul, Nat.zero_add, Nat.add_zero]
    | succ i =>
      rw [List.getElem?_append_right (by rw [hf, Nat.succ_mul]; omega), hf,
        show (i + 1) * b + k - b = i * b + k by rw [Nat.succ_mul]; omega, ih (first + 1) (by omega),
        Nat.add_right_comm, Nat.add_assoc]

section

variable {s : State} {L : NeutralLayout} (hL : NeutralLayoutOk s.cfg L) {pin : Nat} (hp : pin ∈ L.pins)

include hL hp

theorem NeutralLayoutOk.length_laneSlices (first count : Nat) : (laneSlices s L first count pin).length = count * L.bpspp := by
  rw [laneSlices, if_pos hp, List.length_flatMap, funext (hL.length_laneSlice hp s)]
  simp

theorem NeutralLayoutOk.getD_laneSlices {count slice k : Nat} (hslice : slice < count) (hk : k < L.bpspp) (d : Bool) :
    (laneSlices s L 0 count pin).getD (slice * L.bpspp + k) d = (laneSlice s L pin slice).getD k false := by
  have hlen : k < (laneSlice s L pin slice).length := by rwa [hL.length_laneSlice hp]
  rw [laneSlices, if_pos hp, List.getD_eq_getElem?_getD, List.getD_eq_getElem?_getD,
    getElem?_flatMap_range' (hL.length_laneSlice hp s) 0 hslice hk, Nat.zero_add, List.getElem?_eq_getElem hlen]
  rfl

end

/-! ## MPACK -/

theorem chooseLayout_neutral {s : State} {L : NeutralLayout} (layout : layoutOf s.cfg s.kind s.hdr = some (.neutral L)) :
    chooseLayout s = .ok (.neutral L) := by
  have format : (hdrFormat s.hdr).toNat = 0 := by rw [(layoutOf_neutral layout).1]; rfl
  simp [chooseLayout, format, layout]

/-- With an empty payload the slices are the header's, at least one. -/
theorem timeslicesOf_of_empty {s : State} {L : NeutralLayout} (empty : s.payload = [])
    (layout : layoutOf s.cfg s.kind s.hdr = some (.neutral L)) :
    timeslicesOf s = max 1 (slicesHdr s.cfg s.kind (BitVec.ofNat 4 (bits s.hdr 3 0)) (BitVec.ofNat 4 (bits s.hdr 7 4))) := by
  by_cases hn : slicesHdr s.cfg s.kind (BitVec.ofNat 4 (bits s.hdr 3 0)) (BitVec.ofNat 4 (bits s.hdr 7 4)) = 0
  · have format : bits s.hdr 24 22 = 0 := by
      simpa [(layoutOf_neutral layout).1] using hdrFormat_beq_zero s.hdr
    rw [timeslicesOf_of_neutral rfl hn format layout, empty, hn, List.length_nil, Nat.zero_div]
  · rw [timeslicesOf_of_header rfl hn]; omega

theorem NeutralLayoutOk.items_eq_nil {c : Config} {L : NeutralLayout} (hL : NeutralLayoutOk c L) (nopins : L.pins = []) :
    L.items = [] :=
  List.eq_nil_iff_forall_not_mem.mpr fun it hit => List.not_mem_nil (nopins ▸ hL.item_pin it hit)

/-- Without pins no slice packs anything. -/
theorem packSlices_of_no_pins {c : Config} {L : NeutralLayout} (hL : NeutralLayoutOk c L) (nopins : L.pins = [])
    (count first : Nat) (s : State) : packSlices L first count s = .ok s := by
  induction count generalizing first with
  | zero => rfl
  | succ count ih =>
    rw [packSlices_succ, hL.items_eq_nil nopins, nopins]
    exact ih (first + 1)

/-- Before a neutral pass nothing is in the lanes. -/
theorem lanesPacked_start {s : State} (hinv : s.Inv) (pass : s.pass = .pack) (mode : s.pmode = .none) (empty : s.payload = []) :
    LanesPacked s (fun _ => []) (fun _ => true) s := by
  have lanes := hinv.not_neutral (by rw [mode]; nofun)
  exact
    { frame := rfl
      pass_eq := pass
      pmode_ne := by rw [mode]; nofun
      pmode_eq := fun h => absurd empty h
      cursor_eq := fun q => (lanes q).1
      parity_eq := fun q => (lanes q).2
      lane_le := fun q => Nat.zero_le _
      lane_max := ⟨0, congrArg List.length empty⟩
      bit := fun row hrow => by rw [empty] at hrow; exact absurd hrow (Nat.not_lt_zero row)
      fits_max := hinv.fits_max }

/-- The parity registers are what their accessor reads. -/
theorem State.par_ext {s t : State} (h : ∀ q, t.parity q = s.parity q) : t.par = s.par := by
  apply Vector.ext
  intro q hq
  simpa [State.parity, hq] using h q

section

variable {s t : State} {L : NeutralLayout} {n : Nat} (hL : NeutralLayoutOk s.cfg L)
  (h : LanesPacked s (laneSlices s L 0 n) (fun _ => true) t)

include hL h

theorem LanesPacked.cursor_slices (p : Nat) : t.cursor p = if p ∈ L.pins then n * L.bpspp else 0 := by
  rw [h.cursor_eq]
  split
  · exact hL.length_laneSlices ‹_› 0 n
  · rw [laneSlices, if_neg ‹_›]; rfl

/-- With a pin at all, the payload has the rows of all slices. -/
theorem LanesPacked.length_slices (pins : L.pins ≠ []) : t.payload.length = n * L.bpspp := by
  obtain ⟨p, hp⟩ := List.exists_mem_of_ne_nil _ pins
  obtain ⟨q, hq⟩ := h.lane_max
  have le := h.lane_le p
  rw [← h.cursor_eq, h.cursor_slices hL, if_pos hp] at le
  rw [← h.cursor_eq, h.cursor_slices hL] at hq
  split at hq <;> omega

theorem LanesPacked.bit_slices (pins : L.pins ≠ []) {slice k col : Nat} (hslice : slice < n) (hk : k < L.bpspp) (hcol : col < 32) :
    laneBit t.payload col (slice * L.bpspp + k) =
      if col ∈ L.pins then (laneSlice s L col slice).getD k false else s.cfg.neutralFill.toNat.testBit col := by
  have row : slice * L.bpspp + k < t.payload.length := by
    rw [h.length_slices hL pins]
    calc slice * L.bpspp + k < (slice + 1) * L.bpspp := by rw [Nat.succ_mul]; omega
      _ ≤ n * L.bpspp := Nat.mul_le_mul_right _ hslice
  rw [h.bit _ row col hcol]
  split
  · exact hL.getD_laneSlices ‹_› hslice hk _
  · rw [laneSlices, if_neg ‹_›]; rfl

end

/-- Settles O54: the walk packs every lane's slices one after the other, and every parity ends as it began. -/
theorem mpackPacksANeutralLayout : Obligations.MpackPacksANeutralLayout := by
  unfold Obligations.MpackPacksANeutralLayout
  intro s L n hinv header pass mode empty layout count
  have hL := neutralLayoutOk layout
  have slices : timeslicesOf s = n := (timeslicesOf_of_empty empty layout).trans count.symm
  have few : ¬ n > 256 := by
    have := slicesHdr_lt s.cfg s.kind (BitVec.ofNat 4 (bits s.hdr 3 0)) (BitVec.ofNat 4 (bits s.hdr 7 4))
    omega
  have body : mpackBody s = (packSlices L 0 n s).map fun t => (t, 1) := by
    rw [mpackBody_eq header pass mode empty (chooseLayout_neutral layout), packLayout, packNeutralLayout, slices, if_neg few]
  have walk : PacksIf (fits s.cfg (n * L.bpspp) = true) (LanesPacked s (laneSlices s L 0 n) (fun _ => true))
      (packSlices L 0 n s) := by
    refine (packSlices_packs hL n 0 (lanesPacked_start hinv pass mode empty)).imp (fun room q => ?_) fun t ht => ht
    rwa [List.length_nil, Nat.zero_add]
  refine ⟨fun nopins => ?nopins, fun pins noRoom => ?full, fun pins room => ?packed⟩
  case nopins =>
    rw [packSlices_of_no_pins hL nopins] at body
    exact ⟨s, completes_mpack body, rfl⟩
  case full =>
    have full := walk.full_of_not_post fun t ht => by
      rw [← ht.length_slices hL pins, ht.fits_max] at noRoom
      cases noRoom
    rw [full] at body
    exact refusedWith_mpack body
  case packed =>
    obtain ⟨t, packed, ht⟩ := walk.ok_of_room room
    rw [packed] at body
    have lanes := hinv.not_neutral (by rw [mode]; nofun)
    have length := ht.length_slices hL pins
    have rows : t.payload ≠ [] := by
      have : 1 ≤ n * L.bpspp := Nat.mul_pos (by omega) hL.bpspp_pos
      exact List.ne_nil_of_length_pos (by omega)
    have par : t.par = s.par := State.par_ext fun q => (ht.parity_eq q).trans (lanes q).2.symm
    refine ⟨t, completes_mpack body, ?_, length, fun p => ?_, fun slice hslice k hk col hcol =>
      ht.bit_slices hL pins hslice hk hcol⟩
    · have frame := ht.frame
      rwa [ht.pmode_eq rows, par] at frame
    · rw [ht.cursor_slices hL, (lanes p).1]

end Sys2Proof.Machine

/-! MUNPACK of a serial layout (43_marshaller.md R266, R267): UNPACK as a read of the bitstream that may run out, then the
walk over the items. -/

namespace Sys2Proof.Machine

open Sys2Proof Sys2Proof.Spec

/-! ## UNPACK as a read of the bitstream (40_bitstream.md R142, R143) -/

/-- The number of bits in the payload's bitstream. -/
def streamBits (s : State) : Nat := s.payload.length * maxbits s.streamed

/-- The next `nbits` bits of the bitstream from bit `pos` on. -/
def streamSlice (s : State) (pos nbits : Nat) : List Bool := ((bitstream s.payload (maxbits s.streamed)).drop pos).take nbits

/-- `v` is the field of `nbits` bits that stands in the bitstream from bit `pos` on. -/
def IsStreamField (s : State) (pos nbits : Nat) (v : Word) : Prop :=
  v.toNat < 2 ^ nbits ∧ lowBits v nbits = streamSlice s pos nbits

/-- What the serial unpacking commands ask of the state, and keep (10_state.md R40). -/
structure UnpackReady (s : State) : Prop where
  pass_eq : s.pass = .unpack
  pmode_ne : s.pmode ≠ .neutral
  rbit_lt : s.rbit < maxbits s.streamed
  position_le : readPosition s ≤ streamBits s

theorem availableBits_eq (s : State) : availableBits s = streamBits s - readPosition s := by
  rw [availableBits, streamBits, readPosition, Nat.sub_mul, Nat.sub_sub]

/-- A cursor within a word is at the end of the bitstream only at the end of the payload. -/
theorem eq_length_of_position_eq {s : State} (hlt : s.rbit < maxbits s.streamed) (h : readPosition s = streamBits s) :
    s.rpos = s.payload.length ∧ s.rbit = 0 := by
  have rbit : s.rbit = 0 := by
    calc s.rbit = readPosition s % maxbits s.streamed := by rw [readPosition, Nat.mul_add_mod', Nat.mod_eq_of_lt hlt]
      _ = 0 := by rw [h, streamBits, Nat.mul_mod_left]
  rw [readPosition, streamBits, rbit, Nat.add_zero] at h
  exact ⟨Nat.eq_of_mul_eq_mul_right (maxbits_pos _) h, rbit⟩

/-- What is left in the bitstream when it still holds bits starts in a word of the payload. -/
theorem rpos_lt_of_position_lt {s : State} (h : readPosition s < streamBits s) : s.rpos < s.payload.length := by
  rw [readPosition, streamBits] at h
  exact Nat.lt_of_mul_lt_mul_right (Nat.lt_of_le_of_lt (Nat.le_add_right _ _) h)

/-- `t` is `s` with the cursor moved by `nbits`, and `v` the field passed. -/
structure FieldDrawn (s : State) (nbits : Nat) (t : State) (v : Word) : Prop where
  frame : t = { s with rpos := t.rpos, rbit := t.rbit }
  rbit_lt : t.rbit < maxbits s.streamed
  position : readPosition t = readPosition s + nbits
  value : IsStreamField s (readPosition s) nbits v

section

variable {s : State} {nbits : Nat} (room : readPosition s + nbits ≤ streamBits s)

include room

theorem fieldDrawn_within (hpos : 0 < nbits) (within : s.rbit + nbits ≤ maxbits s.streamed) :
    FieldDrawn s nbits (unpackDraw nbits s).1 (unpackDraw nbits s).2 := by
  have hm := maxbits_le s.streamed
  have word := rpos_lt_of_position_lt (s := s) (by omega)
  have value : IsStreamField s (readPosition s) nbits ((memRead s.payload s.rpos >>> s.rbit) &&& mask nbits) := by
    refine ⟨?_, ?_⟩
    · rw [toNat_and_mask _ (by omega)]
      exact Nat.mod_lt _ (Nat.two_pow_pos _)
    · rw [lowBits_eq_wordBits, wordBits_and_mask _ (by omega)]
      exact (take_drop_bitstream s.payload word within).symm
  rw [unpackDraw_within within]
  refine ⟨?_, ?_, ?_, value⟩
  · dsimp only; split <;> rfl
  · dsimp only; split
    · exact maxbits_pos _
    · show s.rbit + nbits < _; omega
  · dsimp only; split
    · show (s.rpos + 1) * maxbits s.streamed + 0 = s.rpos * maxbits s.streamed + s.rbit + nbits
      rw [Nat.succ_mul]; omega
    · exact (Nat.add_assoc _ _ _).symm

theorem fieldDrawn_over (hlt : s.rbit < maxbits s.streamed) (hn : nbits ≤ maxbits s.streamed) (beyond : maxbits s.streamed < s.rbit + nbits) :
    FieldDrawn s nbits (unpackDraw nbits s).1 (unpackDraw nbits s).2 := by
  have hm := maxbits_le s.streamed
  have word := rpos_lt_of_position_lt (s := s) (by omega)
  have next : s.rpos + 1 < s.payload.length := by
    rw [readPosition, streamBits] at room
    refine Nat.lt_of_mul_lt_mul_right (a := maxbits s.streamed) ?_
    rw [Nat.succ_mul]
    omega
  rw [unpackDraw_over beyond hlt.le]
  obtain ⟨low, hlow⟩ : ∃ low, low = maxbits s.streamed - s.rbit := ⟨_, rfl⟩
  obtain ⟨high, hhigh⟩ : ∃ high, nbits = low + high := ⟨nbits - low, by omega⟩
  have taken : nbits - low = high := by omega
  rw [← hlow, taken]
  have lo_lt : ((memRead s.payload s.rpos >>> s.rbit) &&& mask low).toNat < 2 ^ low := by
    rw [toNat_and_mask _ (by omega)]
    exact Nat.mod_lt _ (Nat.two_pow_pos _)
  have endOfWord : readPosition s + low = (s.rpos + 1) * maxbits s.streamed := by
    rw [readPosition, Nat.succ_mul]; omega
  refine ⟨rfl, ?_, ?_, ?_, ?_⟩
  · show high < _; omega
  · rw [hhigh, ← Nat.add_assoc, endOfWord]; rfl
  · apply toNat_lt_two_pow_of_getLsbD
    intro k hk
    rw [BitVec.getLsbD_or, getLsbD_of_lt_two_pow lo_lt (by omega), BitVec.getLsbD_shiftLeft,
      getLsbD_and_mask _ (by omega), decide_eq_false (show ¬ k - low < high by omega), Bool.and_false, Bool.and_false,
      Bool.or_false]
  · have first : streamSlice s (readPosition s) low = wordBits low (memRead s.payload s.rpos >>> s.rbit) :=
      take_drop_bitstream s.payload word (by omega)
    have second : streamSlice s (readPosition s + low) high = wordBits high (memRead s.payload (s.rpos + 1)) := by
      rw [endOfWord]
      exact (take_drop_bitstream s.payload (j := 0) next (by omega)).trans (by rw [BitVec.ushiftRight_zero])
    have slices : streamSlice s (readPosition s) (low + high) =
        streamSlice s (readPosition s) low ++ streamSlice s (readPosition s + low) high := by
      rw [streamSlice, List.take_add, List.drop_drop, streamSlice, streamSlice]
    rw [hhigh, slices, first, second, lowBits_eq_wordBits, wordBits_or_shift _ _ (by omega) lo_lt,
      wordBits_and_mask _ (by omega)]

end

theorem fieldDrawn {s : State} {nbits : Nat} (hlt : s.rbit < maxbits s.streamed) (hpos : 0 < nbits)
    (hn : nbits ≤ maxbits s.streamed) (room : readPosition s + nbits ≤ streamBits s) :
    FieldDrawn s nbits (unpackDraw nbits s).1 (unpackDraw nbits s).2 := by
  rcases Nat.lt_or_ge (maxbits s.streamed) (s.rbit + nbits) with beyond | within
  · exact fieldDrawn_over room hlt hn beyond
  · exact fieldDrawn_within room hpos within

/-- Where a read of `nbits` bits leaves a cursor at `pos` in a bitstream of `total` bits: after them, or at the end. -/
def endOfRead (total pos nbits : Nat) : Nat := if pos + nbits ≤ total then pos + nbits else total

theorem endOfRead_add {total pos : Nat} (a b : Nat) : endOfRead total (endOfRead total pos a) b = endOfRead total pos (a + b) := by
  unfold endOfRead
  split_ifs <;> omega

/-- What UNPACK does, whether the bitstream holds the field or not. -/
structure FieldRead (s : State) (nbits : Nat) (t : State) (v : Word) : Prop where
  ready : UnpackReady t
  frame : t = { s with rpos := t.rpos, rbit := t.rbit, ok := t.ok, pmode := .serial, free := t.free }
  position : readPosition t = endOfRead (streamBits s) (readPosition s) nbits
  ok_eq : t.ok = (s.ok && decide (readPosition s + nbits ≤ streamBits s))
  value : readPosition s + nbits ≤ streamBits s → IsStreamField s (readPosition s) nbits v

section

variable {s : State} {nbits : Nat} (ready : UnpackReady s)

include ready

theorem fieldRead_zero : FieldRead s 0 { s with pmode := .serial } 0 where
  ready := ⟨ready.pass_eq, nofun, ready.rbit_lt, ready.position_le⟩
  frame := rfl
  position := (if_pos ready.position_le).symm
  ok_eq := by
    rw [Nat.add_zero, decide_eq_true ready.position_le, Bool.and_true]
  value _ := ⟨Nat.one_pos, by rw [streamSlice, List.take_zero]; rfl⟩

theorem fieldRead_truncated (short : ¬ readPosition s + nbits ≤ streamBits s) :
    FieldRead s nbits (unpackTruncated { s with pmode := .serial }).1 (unpackTruncated { s with pmode := .serial }).2 where
  ready := ⟨ready.pass_eq, nofun, maxbits_pos _, le_rfl⟩
  frame := rfl
  position := (if_neg short).symm
  ok_eq := by rw [decide_eq_false short, Bool.and_false]; rfl
  value := fun room => absurd room short

theorem fieldRead_drawn (hpos : 0 < nbits) (hn : nbits ≤ maxbits s.streamed) (room : readPosition s + nbits ≤ streamBits s) :
    FieldRead s nbits (unpackDraw nbits { s with pmode := .serial }).1 (unpackDraw nbits { s with pmode := .serial }).2 := by
  obtain ⟨frame, rbit_lt, position, value⟩ := fieldDrawn (s := { s with pmode := .serial }) ready.rbit_lt hpos hn room
  generalize unpackDraw nbits { s with pmode := .serial } = drawn at *
  obtain ⟨t, v⟩ := drawn
  dsimp only at *
  have streamed : t.streamed = s.streamed := by rw [frame]
  have bits : streamBits t = streamBits s := by rw [frame]; rfl
  refine ⟨⟨?_, ?_, streamed ▸ rbit_lt, ?_⟩, ?_, ?_, ?_, fun _ => value⟩
  · rw [frame]; exact ready.pass_eq
  · rw [frame]; exact nofun
  · rw [position, bits]; exact room
  · rw [frame]
  · rw [position, endOfRead, if_pos room]; rfl
  · rw [decide_eq_true room, Bool.and_true, frame]

/-- UNPACK always answers in an unpack pass of the right mode. -/
theorem unpackBody_reads (hn : nbits ≤ maxbits s.streamed) : ∃ t v, unpackBody nbits s = .ok (t, v) ∧ FieldRead s nbits t v := by
  have unavailable : availableBits s < nbits ↔ ¬ readPosition s + nbits ≤ streamBits s := by
    have := ready.position_le
    rw [availableBits_eq]; omega
  rcases Nat.eq_zero_or_pos nbits with rfl | hpos
  · exact ⟨_, _, unpackBody_zero ready.pass_eq ready.pmode_ne, fieldRead_zero ready⟩
  · by_cases room : readPosition s + nbits ≤ streamBits s
    · have draws : unpackBody nbits s = .ok (unpackDraw nbits { s with pmode := .serial }) := by
        have available : ¬ availableBits { s with pmode := .serial } < nbits := fun h => unavailable.mp h room
        simp [unpackBody, serialWidthOk, hn, maySerialUnpack_iff.mpr ⟨ready.pass_eq, ready.pmode_ne⟩, hpos.ne', available]
      exact ⟨_, _, draws, fieldRead_drawn ready hpos hn room⟩
    · exact ⟨_, _, unpackBody_truncated hn ready.pass_eq ready.pmode_ne (unavailable.mpr room),
        fieldRead_truncated ready room⟩

end

/-! ## The walk over the items (43_marshaller.md R267) -/

/-- The key of a serial item. -/
def serialKey (it : SerialItem) : Slot × Slot × Slot := (it.fid, it.slice, it.index)

/-- The widths of serial items, summed. -/
def itemWidths (items : List SerialItem) : Nat := (items.map (·.width)).sum

theorem itemWidths_cons (it : SerialItem) (rest : List SerialItem) : itemWidths (it :: rest) = it.width + itemWidths rest := by
  simp [itemWidths]

/-- An item that the bitstream of `s` held, after the items before it, has its bits. -/
def ItemHeld (s : State) (before : List SerialItem) (it : SerialItem) (v : Word) : Prop :=
  readPosition s + itemWidths before + it.width ≤ streamBits s →
    IsStreamField s (readPosition s + itemWidths before) it.width v

/-- What the walk over the items does. -/
structure ItemsRead (s : State) (items : List SerialItem) (t : State) : Prop where
  rbit_lt : t.rbit < maxbits s.streamed
  frame : t = { s with rpos := t.rpos, rbit := t.rbit, ok := t.ok, fields := t.fields,
                       pmode := t.pmode, free := t.free }
  pmode_eq : t.pmode = if items = [] then s.pmode else .serial
  position : readPosition t = endOfRead (streamBits s) (readPosition s) (itemWidths items)
  ok_eq : t.ok = (s.ok && decide (readPosition s + itemWidths items ≤ streamBits s))
  stored : StoredInOrder serialKey (ItemHeld s) items s t

section

variable {s t u : State} {it : SerialItem} {rest : List SerialItem} {v : Word}

theorem itemsRead_nil (ready : UnpackReady s) (hwf : s.fields.wf) : ItemsRead s [] s where
  rbit_lt := ready.rbit_lt
  frame := rfl
  pmode_eq := rfl
  position := (if_pos ready.position_le).symm
  ok_eq := by rw [decide_eq_true (show readPosition s + itemWidths [] ≤ _ from ready.position_le), Bool.and_true]
  stored := .nil hwf

/-- One item read and stored, then the others. -/
theorem ItemsRead.cons (hwf : s.fields.wf) (read : FieldRead s it.width t v)
    (hrest : ItemsRead (t.setField it.fid it.slice it.index v) rest u) : ItemsRead s (it :: rest) u := by
  have frame := read.frame
  have streamed : t.streamed = s.streamed := by rw [frame]
  have payload : t.payload = s.payload := by rw [frame]
  have total : streamBits (t.setField it.fid it.slice it.index v) = streamBits s := by
    rw [streamBits, streamBits, State.setField_payload, State.setField_streamed, streamed, payload]
  have position : readPosition (t.setField it.fid it.slice it.index v) =
      endOfRead (streamBits s) (readPosition s) it.width := read.position
  refine ⟨?rbit, ?frame, ?pmode, ?position, ?ok, .cons hwf (by rw [frame]) ?held (hrest.stored.imp ?later)⟩
  case rbit => rw [← streamed]; exact hrest.rbit_lt
  case frame => rw [hrest.frame, frame]; rfl
  case pmode =>
    rw [hrest.pmode_eq, State.setField_pmode, frame, if_neg (List.cons_ne_nil _ _), ite_self]
  case position => rw [hrest.position, total, position, endOfRead_add, itemWidths_cons]
  case ok =>
    rw [hrest.ok_eq, State.setField_ok, read.ok_eq, total, position, itemWidths_cons, endOfRead, Bool.and_assoc]
    congr 1
    rw [← Bool.decide_and, decide_eq_decide]
    split <;> omega
  case held => exact read.value
  case later =>
    intro before x w _ held room
    rw [itemWidths_cons] at room
    have fit : readPosition s + it.width ≤ streamBits s := by omega
    rw [endOfRead, if_pos fit] at position
    rw [ItemHeld, total, position] at held
    rw [itemWidths_cons, ← Nat.add_assoc]
    have here := held (by omega)
    rw [IsStreamField, streamSlice, State.setField_payload, State.setField_streamed, streamed, payload] at here
    exact here

end

/-- The walk over the items always ends. -/
theorem unpackItems_reads (items : List SerialItem) {s : State} (ready : UnpackReady s) (hwf : s.fields.wf)
    (widths : ∀ it ∈ items, it.width ≤ maxbits s.streamed) : ∃ t, unpackItems items s = .ok t ∧ ItemsRead s items t := by
  induction items generalizing s with
  | nil => exact ⟨s, rfl, itemsRead_nil ready hwf⟩
  | cons it rest ih =>
    obtain ⟨t, v, body, read⟩ := unpackBody_reads ready (widths it List.mem_cons_self)
    have streamed : t.streamed = s.streamed := by rw [read.frame]
    have twf : t.fields.wf := by rw [read.frame]; exact hwf
    have next : UnpackReady (t.setField it.fid it.slice it.index v) :=
      ⟨read.ready.pass_eq, read.ready.pmode_ne, read.ready.rbit_lt, read.ready.position_le⟩
    obtain ⟨u, walk, hu⟩ := ih next (State.setField_wf twf _ _ _ _)
      fun x hx => (State.setField_streamed t ..).trans streamed ▸ widths x (List.mem_cons_of_mem it hx)
    exact ⟨u, by rw [unpackItems, body]; exact walk, .cons hwf read hu⟩

/-! ## MUNPACK -/

theorem exec_munpack (s : State) : exec .munpack s = finish s (munpackBody s) := rfl

/-- What UNPACK_INIT makes of `s` (40_bitstream.md R140). -/
def unpackStart (s : State) : State :=
  { s.resetLanes with rpos := 0, rbit := 0, ok := true, pass := .unpack, pmode := .none }

/-- The walk over a layout that MUNPACK makes (43_marshaller.md R266). -/
def unpackLayout : Layout → State → Except Status State
  | .serial L => unpackUncompressed L
  | .neutral L => unpackNeutralLayout L

/-- MUNPACK is the walk over its layout from the start of a pass, once the checks before it have passed (43_marshaller.md
R266). -/
theorem munpackBody_eq {s : State} (header : wordtype s.hdr = .header) (flushed : s.wcur = 0) {L : Layout}
    (choice : chooseLayout s = .ok L) :
    munpackBody s = (unpackLayout L (unpackStart s)).map fun t => (t, boolWord t.ok) := by
  have start : unpackInitBody s = .ok (unpackStart s) := unpackInitBody_ok_iff.mpr ⟨flushed, rfl⟩
  rw [munpackBody, if_neg (by simp [header]), if_neg (by simp [flushed]), choice]
  dsimp only
  rw [start]
  cases L with
  | serial L => dsimp only [unpackLayout]; cases unpackUncompressed L (unpackStart s) <;> rfl
  | neutral L => dsimp only [unpackLayout]; cases unpackNeutralLayout L (unpackStart s) <;> rfl

/-- How MUNPACK ends, from how its walk ends. -/
theorem completes_munpack {s t : State} (body : munpackBody s = (Except.ok t).map fun t => (t, boolWord t.ok)) :
    Completes .munpack s t (boolWord t.ok) :=
  completes_of_ok (exec_munpack s) body

theorem refusedWith_munpack {s : State} {e : Status}
    (body : munpackBody s = (Except.error e).map fun t => (t, boolWord t.ok)) : RefusedWith .munpack s e :=
  refusedWith_of_error (exec_munpack s) body

theorem boolWord_decide (p : Prop) [Decidable p] : boolWord (decide p) = if p then 1 else 0 := by
  simp only [boolWord, decide_eq_true_eq]

/-- Settles O55: the walk reads the items one after the other from bit 0 of the bitstream. -/
theorem munpackReadsASerialLayout : Obligations.MunpackReadsASerialLayout := by
  unfold Obligations.MunpackReadsASerialLayout
  intro s L hwf header flushed layout modes
  have ready : UnpackReady ((unpackStart s).inMode L.streamed) :=
    ⟨rfl, nofun, maxbits_pos _, by simp [readPosition, unpackStart, State.inMode]⟩
  have widths : ∀ it ∈ L.items, it.width ≤ maxbits L.streamed := fun it hit => ((layoutOf_serial layout).2.1 it hit).1
  obtain ⟨t, walk, read⟩ := unpackItems_reads L.items ready hwf widths
  have body : munpackBody s = (Except.ok t).map fun t => (t, boolWord t.ok) := by
    rw [munpackBody_eq header flushed (chooseLayout_serial layout modes), unpackLayout, unpackUncompressed,
      inMode_eq (s := unpackStart s) modes, walk]
  obtain ⟨rbit_lt, frame, pmode, position, ok_eq, stored⟩ := read
  have start : readPosition ((unpackStart s).inMode L.streamed) = 0 := by simp [readPosition, unpackStart, State.inMode]
  have total : streamBits ((unpackStart s).inMode L.streamed) = s.payload.length * maxbits L.streamed := rfl
  have streamed : t.streamed = L.streamed := by rw [frame]; rfl
  have bits : streamBits t = s.payload.length * maxbits L.streamed := by rw [frame]; rfl
  have ok : t.ok = decide (serialBits L ≤ s.payload.length * maxbits L.streamed) := by
    rw [ok_eq, start, total, Nat.zero_add]; rfl
  rw [start, total] at position
  refine ⟨t, ?completes, ?frame, ok, fun room => ⟨?position, rbit_lt⟩, fun short => ?ended, fun p => ?lanes, ?items,
    fun fid slice index unlisted => ?others⟩
  case completes =>
    rw [← boolWord_decide, ← ok]
    exact completes_munpack body
  case frame =>
    have mode : t.pmode = if L.items = [] then .none else .serial := pmode
    rw [← mode, frame]
    rfl
  case position =>
    refine (position.trans (if_pos ?_)).trans (Nat.zero_add _)
    rwa [Nat.zero_add]
  case ended =>
    have noRoom : ¬ 0 + itemWidths L.items ≤ s.payload.length * maxbits L.streamed := by
      rw [Nat.zero_add]; exact Nat.not_le.mpr short
    have ended : readPosition t = streamBits t := by rw [position, bits, endOfRead, if_neg noRoom]
    have := eq_length_of_position_eq (streamed ▸ rbit_lt) ended
    have payload : t.payload = s.payload := by rw [frame]; rfl
    rwa [payload] at this
  case lanes =>
    rw [frame]
    exact ⟨State.cursor_resetLanes s p, State.parity_resetLanes s p⟩
  case items =>
    intro before it after split room later
    have held := stored.written before it after split fun x hx same => later x hx (by simpa [serialKey] using same)
    rw [ItemHeld, start, total, Nat.zero_add] at held
    exact held room
  case others =>
    exact stored.kept (fid, slice, index) fun x hx same => unlisted x hx (by simpa [serialKey] using same)

end Sys2Proof.Machine

/-! MUNPACK of a neutral layout (43_marshaller.md R266, R268): a read of a lane that may run out of rows, then the walk over
the items, the parities and the slices. -/

namespace Sys2Proof.Machine

open Sys2Proof Sys2Proof.Spec

/-! ## Where reads leave a cursor -/

theorem cursorAfter_append (len : Nat) (ws vs : List Nat) (pos : Nat) :
    cursorAfter len (ws ++ vs) pos = cursorAfter len vs (cursorAfter len ws pos) := by
  induction ws generalizing pos with
  | nil => rfl
  | cons w ws ih => exact ih _

theorem cursorAfter_of_le {len : Nat} {ws : List Nat} {pos : Nat} (h : pos + ws.sum ≤ len) :
    cursorAfter len ws pos = pos + ws.sum := by
  induction ws generalizing pos with
  | nil => rfl
  | cons w ws ih =>
    rw [List.sum_cons] at h ⊢
    rw [cursorAfter, if_pos (by omega), ih (by omega), Nat.add_assoc]

theorem cursorAfter_le {len pos : Nat} (h : pos ≤ len) (ws : List Nat) : cursorAfter len ws pos ≤ len := by
  induction ws generalizing pos with
  | nil => exact h
  | cons w ws ih =>
    rw [cursorAfter]
    apply ih
    split <;> omega

/-! ## The rows of a lane -/

/-- The bits of lane `pin` in the `n` rows from `row` on. -/
def laneColumn (payload : List Word) (pin row n : Nat) : List Bool := (List.range n).map fun k => laneBit payload pin (row + k)

theorem laneColumn_add (payload : List Word) (pin row a b : Nat) :
    laneColumn payload pin row (a + b) = laneColumn payload pin row a ++ laneColumn payload pin (row + a) b := by
  simp [laneColumn, List.range_add, Nat.add_assoc]

theorem laneColumn_one (payload : List Word) (pin row : Nat) : laneColumn payload pin row 1 = [laneBit payload pin row] := rfl

/-- The field UNPACK_NEUTRAL gathers, as a list, is the rows of its lane (41_neutral.md R175). -/
theorem lowBits_getBits (payload : List Word) (pin row : Nat) {n : Nat} (hn : n ≤ 32) :
    lowBits (getBits payload pin row n) n = laneColumn payload pin row n := by
  refine List.map_congr_left fun k hk => ?_
  rw [← BitVec.getLsbD, getLsbD_getBits _ _ _ hn, decide_eq_true (List.mem_range.mp hk), Bool.true_and, laneBit]

/-- 1 exactly when the rows hold an even number of ones. -/
theorem boolWord_not_oddCount (payload : List Word) (pin row n : Nat) :
    boolWord (!oddCount (laneColumn payload pin row n)) = if laneOnes payload pin row n % 2 = 0 then 1 else 0 := by
  have ones : (laneColumn payload pin row n).count true = laneOnes payload pin row n := by
    rw [laneColumn, List.count_eq_countP, List.countP_map, List.countP_eq_length_filter, laneOnes]
    congr 2
    funext k
    simp
  rw [oddCount, ones]
  rcases Nat.mod_two_eq_zero_or_one (laneOnes payload pin row n) with h | h <;> simp [h, boolWord]

/-! ## One read of a lane -/

/-- What the neutral unpacking commands ask of the state, and keep (10_state.md R40). -/
structure LaneReady (s : State) : Prop where
  pass_eq : s.pass = .unpack
  pmode_ne : s.pmode ≠ .serial
  cursor_le : ∀ q, s.cursor q ≤ s.payload.length

/-- The read asks for no row past the end. -/
def LaneHolds (s : State) (pin nbits : Nat) : Prop := s.cursor pin + nbits ≤ s.payload.length

/-- `t` is `s` after a read of `nbits` rows of lane `pin`, but for the parities and the values stored. -/
structure LaneMoved (s : State) (pin nbits : Nat) (t : State) : Prop where
  frame : t = { s with ok := t.ok, pincur := t.pincur, par := t.par, pmode := .neutral, free := t.free }
  cursor_eq : ∀ q, t.cursor q = if q = pin then cursorAfter s.payload.length [nbits] (s.cursor q) else s.cursor q
  ok_iff : t.ok = true ↔ s.ok = true ∧ LaneHolds s pin nbits

section

variable {s t : State} {pin nbits : Nat}

theorem LaneMoved.cursor_of_holds (h : LaneMoved s pin nbits t) (hold : LaneHolds s pin nbits) (q : Nat) :
    t.cursor q = s.cursor q + if q = pin then nbits else 0 := by
  rw [h.cursor_eq]
  split
  · rename_i hq
    subst hq
    exact if_pos hold
  · rfl

theorem LaneMoved.payload_eq (h : LaneMoved s pin nbits t) : t.payload = s.payload := by rw [h.frame]

theorem LaneMoved.ready (h : LaneMoved s pin nbits t) (ready : LaneReady s) : LaneReady t where
  pass_eq := by rw [h.frame]; exact ready.pass_eq
  pmode_ne := by rw [h.frame]; nofun
  cursor_le q := by
    rw [h.cursor_eq, h.payload_eq]
    split
    · exact cursorAfter_le (ready.cursor_le q) _
    · exact ready.cursor_le q

/-- A read that finds its rows. -/
theorem laneMoved_moveLane (hp : pin < 32) (hold : LaneHolds s pin nbits) (parity : Bool) :
    LaneMoved s pin nbits ({ s with pmode := .neutral }.moveLane pin nbits parity) where
  frame := rfl
  cursor_eq q := by
    refine (State.cursor_moveLane hp _ nbits parity q).trans ?_
    split
    · rename_i hq
      subst hq
      exact (if_pos hold).symm
    · rfl
  ok_iff := (and_iff_left hold).symm

/-- A read that does not leaves its cursor. -/
theorem laneMoved_truncated (short : ¬ LaneHolds s pin nbits) (par : Vector Bool 32) :
    LaneMoved s pin nbits { s with ok := false, par := par, pmode := .neutral, free := s.free + 1 } where
  frame := rfl
  cursor_eq q := by
    split
    · rename_i hq
      subst hq
      exact (if_neg short).symm
    · rfl
  ok_iff := ⟨nofun, fun h => absurd h.2 short⟩

/-- What UNPACK_NEUTRAL does, whether its lane holds the field or not. -/
structure LaneRead (s : State) (pin nbits : Nat) (t : State) (v : Word) : Prop extends LaneMoved s pin nbits t where
  value : LaneHolds s pin nbits → v = getBits s.payload pin (s.cursor pin) nbits
  parity_eq : ∀ q, (q = pin → LaneHolds s pin nbits) →
    t.parity q = (s.parity q ^^ oddCount (laneColumn s.payload q (s.cursor q) (if q = pin then nbits else 0)))

/-- UNPACK_NEUTRAL always answers in an unpack pass of the right mode. -/
theorem unpackNeutralBody_reads (ready : LaneReady s) (hpin : pin < maxPins s.cfg) (hn : nbits ≤ 32) :
    ∃ t v, unpackNeutralBody pin nbits s = .ok (t, v) ∧ LaneRead s pin nbits t v := by
  have hp : pin < 32 := hpin.trans_le (maxPins_le s.cfg)
  have body := unpackNeutralBody_eq hpin hn ready.pass_eq ready.pmode_ne
  by_cases hz : nbits = 0
  · subst hz
    rw [if_pos rfl] at body
    refine ⟨_, _, body, ⟨rfl, fun q => ?_, ?_⟩, fun _ => rfl, fun q _ => ?_⟩
    · rw [cursorAfter_of_le (ready.cursor_le q)]
      exact (ite_self _).symm
    · exact (and_iff_left (ready.cursor_le pin)).symm
    · rw [ite_self]
      exact (Bool.xor_false _).symm
  · rw [if_neg hz] at body
    by_cases hold : LaneHolds s pin nbits
    · rw [if_neg (Nat.not_lt.mpr hold)] at body
      refine ⟨_, _, body, laneMoved_moveLane hp hold _, fun _ => rfl, fun q _ => ?_⟩
      refine (State.parity_moveLane hp _ nbits _ q).trans ?_
      split
      · rename_i hq
        subst hq
        rw [oddOnes_eq_oddCount, lowBits_getBits _ _ _ hn]
      · exact (Bool.xor_false _).symm
    · rw [if_pos (Nat.not_le.mp hold)] at body
      refine ⟨_, _, body, laneMoved_truncated hold s.par, fun h => absurd h hold, fun q hq => ?_⟩
      have other : q ≠ pin := fun h => hold (hq h)
      rw [if_neg other]
      exact (Bool.xor_false _).symm

/-- After the checks UNPACK_NEUTRAL_PARITY_ERROR is decided by the row that is left. -/
theorem unpackNeutralParityErrorBody_eq (hpin : pin < maxPins s.cfg) (hpass : s.pass = .unpack) (hmode : s.pmode ≠ .serial) :
    unpackNeutralParityErrorBody pin s =
      if s.payload.length ≤ s.cursor pin then
        .ok ({ s with ok := false, par := s.par.setIfInBounds pin true, pmode := .neutral, free := s.free + 1 },
          boolWord (Config.freeBit s.free))
      else
        .ok ({ s with pmode := .neutral }.moveLane pin 1 true,
          boolWord (laneBit s.payload pin (s.cursor pin) != s.parity pin)) := by
  rw [unpackNeutralParityErrorBody, pinOk, decide_eq_true hpin, mayNeutralUnpack_iff.mpr ⟨hpass, hmode⟩]
  rfl

/-- What UNPACK_NEUTRAL_PARITY_ERROR does, whether its lane has a row left or not. -/
structure LaneChecked (s : State) (pin : Nat) (t : State) (v : Word) : Prop extends LaneMoved s pin 1 t where
  value : LaneHolds s pin 1 → v = boolWord (laneBit s.payload pin (s.cursor pin) != s.parity pin)
  parity_eq : ∀ q, t.parity q = if q = pin then true else s.parity q

/-- UNPACK_NEUTRAL_PARITY_ERROR always answers in an unpack pass of the right mode. -/
theorem unpackNeutralParityErrorBody_checks (ready : LaneReady s) (hpin : pin < maxPins s.cfg) :
    ∃ t v, unpackNeutralParityErrorBody pin s = .ok (t, v) ∧ LaneChecked s pin t v := by
  have hp : pin < 32 := hpin.trans_le (maxPins_le s.cfg)
  have body := unpackNeutralParityErrorBody_eq hpin ready.pass_eq ready.pmode_ne
  by_cases hold : LaneHolds s pin 1
  · rw [if_neg (Nat.not_le.mpr hold)] at body
    exact ⟨_, _, body, laneMoved_moveLane hp hold true, fun _ => rfl, State.parity_moveLane hp _ 1 true⟩
  · rw [if_pos (Nat.not_lt.mp hold)] at body
    refine ⟨_, _, body, laneMoved_truncated hold _, fun h => absurd h hold, fun q => ?_⟩
    refine (State.parity_setParity s pin q true hp).trans ?_
    simp only [@eq_comm _ pin q]

end

/-! ## The items of one slice (43_marshaller.md R268) -/

/-- The widths of a lane's items. -/
def laneWidths (items : List NeutralItem) (pin : Nat) : List Nat := (items.filter (fun it => it.pin == pin)).map (·.width)

theorem laneWidths_cons (it : NeutralItem) (rest : List NeutralItem) (pin : Nat) :
    laneWidths (it :: rest) pin = (if pin = it.pin then [it.width] else []) ++ laneWidths rest pin := by
  rw [laneWidths, laneWidths, List.filter_cons]
  by_cases h : pin = it.pin
  · simp [h]
  · simp [h, Ne.symm h]

theorem sum_laneWidths_cons (it : NeutralItem) (rest : List NeutralItem) (pin : Nat) :
    (laneWidths (it :: rest) pin).sum = (if pin = it.pin then it.width else 0) + (laneWidths rest pin).sum := by
  rw [laneWidths_cons, List.sum_append]
  split <;> rfl

/-- The key of a neutral item in one slice. -/
def neutralKey (slice : Slot) (it : NeutralItem) : Slot × Slot × Slot := (it.fid, slice, it.index)

/-- An item that its lane held in `s`, after the lane's items before it, has its bits. -/
def LaneItemHeld (s : State) (before : List NeutralItem) (it : NeutralItem) (v : Word) : Prop :=
  s.cursor it.pin + (laneWidths before it.pin).sum + it.width ≤ s.payload.length →
    v = getBits s.payload it.pin (s.cursor it.pin + (laneWidths before it.pin).sum) it.width

/-- What the walk over the items of one slice does. -/
structure LaneItemsRead (slice : Slot) (s : State) (items : List NeutralItem) (t : State) : Prop where
  ready : LaneReady t
  frame : t = { s with ok := t.ok, pincur := t.pincur, par := t.par, fields := t.fields, pmode := t.pmode, free := t.free }
  cursor_eq : ∀ q, t.cursor q = cursorAfter s.payload.length (laneWidths items q) (s.cursor q)
  ok_iff : t.ok = true ↔ s.ok = true ∧ ∀ q, LaneHolds s q (laneWidths items q).sum
  parity_eq : ∀ q, LaneHolds s q (laneWidths items q).sum →
    t.parity q = (s.parity q ^^ oddCount (laneColumn s.payload q (s.cursor q) (laneWidths items q).sum))
  stored : StoredInOrder (neutralKey slice) (LaneItemHeld s) items s t

theorem laneItemsRead_nil {s : State} (slice : Slot) (ready : LaneReady s) (hwf : s.fields.wf) : LaneItemsRead slice s [] s where
  ready := ready
  frame := rfl
  cursor_eq _ := rfl
  ok_iff := (and_iff_left ready.cursor_le).symm
  parity_eq _ _ := (Bool.xor_false _).symm
  stored := .nil hwf

section

variable {slice : Slot} {s t u : State} {it : NeutralItem} {rest : List NeutralItem} {v : Word}

/-- One item read and stored, then the others. -/
theorem LaneItemsRead.cons (hwf : s.fields.wf) (read : LaneRead s it.pin it.width t v)
    (hrest : LaneItemsRead slice (t.setField it.fid slice it.index v) rest u) : LaneItemsRead slice s (it :: rest) u := by
  have frame := read.frame
  have payload : (t.setField it.fid slice it.index v).payload = s.payload := read.payload_eq
  have cursor : ∀ q, (t.setField it.fid slice it.index v).cursor q = t.cursor q := State.cursor_setField t it.fid slice it.index v
  have moved := read.cursor_of_holds
  -- once the first read finds its rows, a lane holds the others after it exactly when it holds them all
  have holds_iff : LaneHolds s it.pin it.width → ∀ q,
      (LaneHolds (t.setField it.fid slice it.index v) q (laneWidths rest q).sum ↔
        LaneHolds s q (laneWidths (it :: rest) q).sum) := by
    intro hold q
    rw [LaneHolds, LaneHolds, payload, cursor, moved hold, sum_laneWidths_cons, Nat.add_assoc]
  have first : ∀ q, LaneHolds s q (laneWidths (it :: rest) q).sum → q = it.pin → LaneHolds s it.pin it.width := by
    rintro q hold rfl
    rw [LaneHolds, sum_laneWidths_cons, if_pos rfl] at hold
    exact le_trans (by omega) hold
  refine ⟨hrest.ready, ?frame, fun q => ?cursor, ?ok, fun q hold => ?parity, .cons hwf (by rw [frame]) ?held (hrest.stored.imp ?later)⟩
  case frame => rw [hrest.frame, frame]; rfl
  case cursor =>
    rw [hrest.cursor_eq, payload, cursor, read.cursor_eq, laneWidths_cons, cursorAfter_append]
    split <;> rfl
  case ok =>
    rw [hrest.ok_iff, State.setField_ok, read.ok_iff, and_assoc]
    refine and_congr_right fun _ => ⟨fun ⟨hold, all⟩ q => (holds_iff hold q).mp (all q), fun all => ?_⟩
    have hold := first it.pin (all it.pin) rfl
    exact ⟨hold, fun q => (holds_iff hold q).mpr (all q)⟩
  case parity =>
    have stays : q ≠ it.pin → t.cursor q = s.cursor q := fun other => (read.cursor_eq q).trans (if_neg other)
    have at_q : t.cursor q = s.cursor q + if q = it.pin then it.width else 0 := by
      by_cases hq : q = it.pin
      · exact moved (first q hold hq) q
      · rw [stays hq, if_neg hq, Nat.add_zero]
    have later : LaneHolds (t.setField it.fid slice it.index v) q (laneWidths rest q).sum := by
      rw [LaneHolds, payload, cursor, at_q, Nat.add_assoc, ← sum_laneWidths_cons]
      exact hold
    rw [hrest.parity_eq q later, State.parity_setField, payload, cursor, at_q, read.parity_eq q (first q hold),
      sum_laneWidths_cons, laneColumn_add, oddCount_append, Bool.xor_assoc]
  case held => exact read.value
  case later =>
    intro before x w _ held room
    rw [sum_laneWidths_cons] at room ⊢
    have at_x : t.cursor x.pin = s.cursor x.pin + if x.pin = it.pin then it.width else 0 := by
      by_cases hx : x.pin = it.pin
      · rw [if_pos hx] at room
        refine moved ?_ x.pin
        rw [LaneHolds, ← hx]
        omega
      · rw [(read.cursor_eq x.pin).trans (if_neg hx), if_neg hx, Nat.add_zero]
    rw [LaneItemHeld, payload, cursor, at_x] at held
    rw [← Nat.add_assoc] at room ⊢
    exact held room

end

/-- The walk over the items of a slice always ends. -/
theorem unpackNeutralItems_reads (slice : Slot) (items : List NeutralItem) {s : State} (ready : LaneReady s)
    (hwf : s.fields.wf) (operands : ∀ it ∈ items, it.pin < maxPins s.cfg ∧ it.width ≤ 32) :
    ∃ t, unpackNeutralItems slice items s = .ok t ∧ LaneItemsRead slice s items t := by
  induction items generalizing s with
  | nil => exact ⟨s, rfl, laneItemsRead_nil slice ready hwf⟩
  | cons it rest ih =>
    obtain ⟨hpin, hwidth⟩ := operands it List.mem_cons_self
    obtain ⟨t, v, body, read⟩ := unpackNeutralBody_reads ready hpin hwidth
    have cfg : t.cfg = s.cfg := by rw [read.frame]
    have twf : t.fields.wf := by rw [read.frame]; exact hwf
    have moved := read.ready ready
    have next : LaneReady (t.setField it.fid slice it.index v) := ⟨moved.pass_eq, moved.pmode_ne, moved.cursor_le⟩
    obtain ⟨u, walk, hu⟩ := ih next (State.setField_wf twf _ _ _ _)
      fun x hx => (State.setField_cfg t ..).trans cfg ▸ operands x (List.mem_cons_of_mem it hx)
    exact ⟨u, by rw [unpackNeutralItems, body]; exact walk, .cons hwf read hu⟩

/-! ## The parities of one slice (43_marshaller.md R268) -/

/-- The key of a lane's parity result in one slice. -/
def parityKey (slice : Slot) (pin : Nat) : Slot × Slot × Slot := (parityFid, slice, BitVec.ofNat 8 pin)

/-- A lane that had a row left in `s` has its parity compared with that row. -/
def ParityCompared (s : State) (pin : Nat) (v : Word) : Prop :=
  LaneHolds s pin 1 → v = boolWord (laneBit s.payload pin (s.cursor pin) != s.parity pin)

/-- What the walk over the parities of one slice does. -/
structure LaneParitiesRead (slice : Slot) (s : State) (pins : List Nat) (t : State) : Prop where
  ready : LaneReady t
  frame : t = { s with ok := t.ok, pincur := t.pincur, par := t.par, fields := t.fields, pmode := t.pmode, free := t.free }
  pmode_eq : t.pmode = if pins = [] then s.pmode else .neutral
  cursor_eq : ∀ q, t.cursor q = if q ∈ pins then cursorAfter s.payload.length [1] (s.cursor q) else s.cursor q
  ok_iff : t.ok = true ↔ s.ok = true ∧ ∀ q ∈ pins, LaneHolds s q 1
  parity_eq : ∀ q, t.parity q = if q ∈ pins then true else s.parity q
  stored : StoredInOrder (parityKey slice) (fun _ => ParityCompared s) pins s t

theorem laneParitiesRead_nil {s : State} (slice : Slot) (ready : LaneReady s) (hwf : s.fields.wf) :
    LaneParitiesRead slice s [] s where
  ready := ready
  frame := rfl
  pmode_eq := rfl
  cursor_eq _ := by simp
  ok_iff := by simp
  parity_eq _ := by simp
  stored := .nil hwf

section

variable {slice : Slot} {s t u : State} {pin : Nat} {rest : List Nat} {v : Word}

/-- One parity compared and stored, then those of the other lanes, which it leaves alone. -/
theorem LaneParitiesRead.cons (hwf : s.fields.wf) (hpin : pin ∉ rest) (read : LaneChecked s pin t v)
    (hrest : LaneParitiesRead slice (t.setField parityFid slice (BitVec.ofNat 8 pin) v) rest u) :
    LaneParitiesRead slice s (pin :: rest) u := by
  have frame := read.frame
  have payload : (t.setField parityFid slice (BitVec.ofNat 8 pin) v).payload = s.payload := read.payload_eq
  have other : ∀ q ∈ rest, q ≠ pin := by rintro q hq rfl; exact hpin hq
  have cursor : ∀ q, q ≠ pin → (t.setField parityFid slice (BitVec.ofNat 8 pin) v).cursor q = s.cursor q :=
    fun q hq => (State.cursor_setField ..).trans ((read.cursor_eq q).trans (if_neg hq))
  have parity : ∀ q, q ≠ pin → (t.setField parityFid slice (BitVec.ofNat 8 pin) v).parity q = s.parity q :=
    fun q hq => (State.parity_setField ..).trans ((read.parity_eq q).trans (if_neg hq))
  have holds : ∀ q ∈ rest, (LaneHolds (t.setField parityFid slice (BitVec.ofNat 8 pin) v) q 1 ↔ LaneHolds s q 1) := by
    intro q hq
    rw [LaneHolds, LaneHolds, payload, cursor q (other q hq)]
  refine ⟨hrest.ready, ?frame, ?pmode, fun q => ?cursor, ?ok, fun q => ?parity, .cons hwf (by rw [frame]) ?held (hrest.stored.imp ?later)⟩
  case frame => rw [hrest.frame, frame]; rfl
  case pmode =>
    rw [hrest.pmode_eq, State.setField_pmode, frame, if_neg (List.cons_ne_nil _ _), ite_self]
  case cursor =>
    rw [hrest.cursor_eq, payload]
    by_cases hq : q = pin
    · subst hq
      rw [if_neg hpin, if_pos List.mem_cons_self, State.cursor_setField, read.cursor_eq, if_pos rfl]
    · rw [cursor q hq]
      simp only [List.mem_cons, hq, false_or]
  case ok =>
    rw [hrest.ok_iff, State.setField_ok, read.ok_iff, and_assoc, List.forall_mem_cons]
    exact and_congr_right fun _ => and_congr_right fun _ => forall₂_congr holds
  case parity =>
    rw [hrest.parity_eq]
    by_cases hq : q = pin
    · subst hq
      rw [if_neg hpin, if_pos List.mem_cons_self, State.parity_setField, read.parity_eq, if_pos rfl]
    · rw [parity q hq]
      simp only [List.mem_cons, hq, false_or]
  case held => exact read.value
  case later =>
    intro _ q w hq compared hold
    rw [ParityCompared, holds q hq, payload, cursor q (other q hq), parity q (other q hq)] at compared
    exact compared hold

end

/-- The walk over the parities of a slice always ends. -/
theorem unpackParities_reads (slice : Slot) {pins : List Nat} (nodup : pins.Nodup) {s : State} (ready : LaneReady s)
    (hwf : s.fields.wf) (operands : ∀ p ∈ pins, p < maxPins s.cfg) :
    ∃ t, unpackParities slice pins s = .ok t ∧ LaneParitiesRead slice s pins t := by
  induction pins generalizing s with
  | nil => exact ⟨s, rfl, laneParitiesRead_nil slice ready hwf⟩
  | cons p rest ih =>
    obtain ⟨hp, nodup⟩ := List.nodup_cons.mp nodup
    obtain ⟨t, v, body, read⟩ := unpackNeutralParityErrorBody_checks ready (operands p List.mem_cons_self)
    have cfg : t.cfg = s.cfg := by rw [read.frame]
    have twf : t.fields.wf := by rw [read.frame]; exact hwf
    have moved := read.ready ready
    have next : LaneReady (t.setField parityFid slice (BitVec.ofNat 8 p) v) := ⟨moved.pass_eq, moved.pmode_ne, moved.cursor_le⟩
    obtain ⟨u, walk, hu⟩ := ih nodup next (State.setField_wf twf _ _ _ _)
      fun x hx => (State.setField_cfg t ..).trans cfg ▸ operands x (List.mem_cons_of_mem p hx)
    exact ⟨u, by rw [unpackParities, body]; exact walk, .cons hwf hp read hu⟩

end Sys2Proof.Machine

/-! The walk of MUNPACK over the slices of a neutral layout (43_marshaller.md R268), and the statement about it. -/

namespace Sys2Proof.Machine

open Sys2Proof Sys2Proof.Spec

/-! ## What one slice leaves in the field store -/

/-- No item, and no parity result, of the layout has this field id and index. -/
def Unlisted (L : NeutralLayout) (fid index : Slot) : Prop :=
  if fid = 255 then ∀ p ∈ L.pins, BitVec.ofNat 8 p ≠ index else ∀ x ∈ L.items, ¬ (x.fid = fid ∧ x.index = index)

/-- In `t` the fields of one slice are those that the payload holds with the lanes' slice from the rows `pos` on. -/
structure SliceHeld (L : NeutralLayout) (payload : List Word) (slice : Slot) (pos : Nat → Nat) (t : State) : Prop where
  item : ∀ (before : List NeutralItem) (it : NeutralItem) (after : List NeutralItem), L.items = before ++ it :: after →
    pos it.pin + (laneWidths before it.pin).sum + it.width ≤ payload.length →
    (∀ x ∈ after, ¬ (x.fid = it.fid ∧ x.index = it.index)) →
    t.field it.fid slice it.index = getBits payload it.pin (pos it.pin + (laneWidths before it.pin).sum) it.width
  parity : ∀ p ∈ L.pins, pos p + L.bpspp ≤ payload.length →
    t.field 255 slice (BitVec.ofNat 8 p) = if laneOnes payload p (pos p) L.bpspp % 2 = 0 then 1 else 0

/-- What the walk over one slice does. -/
structure SliceRead (L : NeutralLayout) (slice : Slot) (s t : State) : Prop where
  ready : LaneReady t
  frame : t = { s with ok := t.ok, pincur := t.pincur, par := t.par, fields := t.fields, pmode := t.pmode, free := t.free }
  pmode_eq : L.pins ≠ [] → t.pmode = .neutral
  cursor_eq : ∀ q, t.cursor q =
    if q ∈ L.pins then cursorAfter s.payload.length (laneWidths L.items q ++ [1]) (s.cursor q) else s.cursor q
  ok_iff : t.ok = true ↔ s.ok = true ∧ ∀ q ∈ L.pins, LaneHolds s q L.bpspp
  parity_eq : ∀ q, t.parity q = true
  held : SliceHeld L s.payload slice s.cursor t
  kept : ∀ fid slice' index : Slot, slice' ≠ slice ∨ Unlisted L fid index → t.field fid slice' index = s.field fid slice' index
  wf : t.fields.wf

section

variable {c : Config} {L : NeutralLayout} (hL : NeutralLayoutOk c L)

include hL

theorem NeutralLayoutOk.laneWidths_eq_nil {pin : Nat} (h : pin ∉ L.pins) : laneWidths L.items pin = [] := by
  rw [laneWidths, hL.filter_eq_nil h, List.map_nil]

theorem NeutralLayoutOk.sum_laneWidths {pin : Nat} (h : pin ∈ L.pins) : (laneWidths L.items pin).sum + 1 = L.bpspp :=
  hL.laneBits_eq pin h

/-- Pins are few enough for their parity keys to differ. -/
theorem NeutralLayoutOk.pin_inj {p q : Nat} (hp : p ∈ L.pins) (hq : q ∈ L.pins) (h : BitVec.ofNat 8 p = BitVec.ofNat 8 q) :
    p = q := by
  have p_lt := (hL.pin_lt p hp).trans_le (maxPins_le c)
  have q_lt := (hL.pin_lt q hq).trans_le (maxPins_le c)
  have same := congrArg BitVec.toNat h
  rwa [BitVec.toNat_ofNat, BitVec.toNat_ofNat, Nat.mod_eq_of_lt (by omega), Nat.mod_eq_of_lt (by omega)] at same

theorem NeutralLayoutOk.parityKey_ne_neutralKey {it : NeutralItem} (hit : it ∈ L.items) (slice slice' : Slot) (p : Nat) :
    parityKey slice p ≠ neutralKey slice' it := fun same => hL.item_fid it hit (congrArg Prod.fst same).symm

/-- Neither walk of a slice stores a key of another slice, or one the layout does not list. -/
theorem NeutralLayoutOk.key_ne {fid slice slice' index : Slot} (h : slice' ≠ slice ∨ Unlisted L fid index) :
    (∀ it ∈ L.items, neutralKey slice it ≠ (fid, slice', index)) ∧ ∀ p ∈ L.pins, parityKey slice p ≠ (fid, slice', index) := by
  have parts : ∀ {a b : Slot}, (a, slice, b) = (fid, slice', index) → a = fid ∧ slice' = slice ∧ b = index := by
    intro a b same
    obtain ⟨hfid, hkeys⟩ := Prod.mk.inj same
    obtain ⟨hslice, hindex⟩ := Prod.mk.inj hkeys
    exact ⟨hfid, hslice.symm, hindex⟩
  refine ⟨fun it hit same => ?_, fun p hp same => ?_⟩
  · obtain ⟨hfid, hslice, hindex⟩ := parts same
    have unlisted := h.resolve_left (not_not_intro hslice)
    rw [Unlisted, if_neg (hfid ▸ hL.item_fid it hit)] at unlisted
    exact unlisted it hit ⟨hfid, hindex⟩
  · obtain ⟨hfid, hslice, hindex⟩ := parts same
    have unlisted := h.resolve_left (not_not_intro hslice)
    rw [Unlisted, if_pos (show fid = 255 from hfid.symm)] at unlisted
    exact unlisted p hp hindex

end

/-! ## One slice -/

section

variable {L : NeutralLayout} {slice : Slot} {s t u : State} (hL : NeutralLayoutOk s.cfg L)
  (items : LaneItemsRead slice s L.items t) (parities : LaneParitiesRead slice t L.pins u)

include hL items

/-- Where the parity bit of a lane that holds its slice stands after the items. -/
theorem LaneItemsRead.cursor_of_holds {p : Nat} (hp : p ∈ L.pins) (hold : LaneHolds s p L.bpspp) :
    t.cursor p = s.cursor p + (laneWidths L.items p).sum := by
  have := hL.sum_laneWidths hp
  rw [items.cursor_eq, cursorAfter_of_le (by rw [LaneHolds] at hold; omega)]

include parities

/-- The fields that the two walks of a slice leave. -/
theorem sliceHeld (parity : ∀ q, s.parity q = true) : SliceHeld L s.payload slice s.cursor u where
  item before it after split room later := by
    have hit : it ∈ L.items := by simp [split]
    have held := items.stored.written before it after split (fun x hx same => later x hx (by simpa [neutralKey] using same)) room
    exact (parities.stored.kept (neutralKey slice it) fun p _ => hL.parityKey_ne_neutralKey hit slice slice p).trans held
  parity p hp hold := by
    have sum := hL.sum_laneWidths hp
    have payload : t.payload = s.payload := by rw [items.frame]
    have cursor := items.cursor_of_holds hL hp hold
    have dataHold : LaneHolds s p (laneWidths L.items p).sum := le_trans (by omega) hold
    have bitHold : LaneHolds t p 1 := by rw [LaneHolds, cursor, payload, Nat.add_assoc, sum]; exact hold
    obtain ⟨before, after, split⟩ := List.append_of_mem hp
    have last : ∀ q ∈ after, parityKey slice q ≠ parityKey slice p := by
      intro q hq same
      have nodup := hL.nodup
      rw [split] at nodup
      have hqp : q = p := hL.pin_inj (by simp [split, hq]) hp (congrArg (fun k => k.2.2) same)
      exact (List.nodup_cons.mp (List.nodup_append.mp nodup).2.1).1 (hqp ▸ hq)
    have column : laneColumn s.payload p (s.cursor p) L.bpspp =
        laneColumn s.payload p (s.cursor p) (laneWidths L.items p).sum ++
          [laneBit s.payload p (s.cursor p + (laneWidths L.items p).sum)] := by
      rw [← laneColumn_one, ← laneColumn_add, sum]
    calc u.field 255 slice (BitVec.ofNat 8 p)
        = boolWord (laneBit t.payload p (t.cursor p) != t.parity p) := parities.stored.written before p after split last bitHold
      _ = boolWord (!oddCount (laneColumn s.payload p (s.cursor p) L.bpspp)) := by
          rw [payload, cursor, items.parity_eq p dataHold, parity, column, oddCount_append]
          generalize laneBit s.payload p (s.cursor p + (laneWidths L.items p).sum) = b
          generalize oddCount (laneColumn s.payload p (s.cursor p) (laneWidths L.items p).sum) = o
          cases b <;> cases o <;> rfl
      _ = if laneOnes s.payload p (s.cursor p) L.bpspp % 2 = 0 then 1 else 0 := boolWord_not_oddCount ..

/-- The items of a slice, then its parities. -/
theorem sliceRead (ready : LaneReady s) (parity : ∀ q, s.parity q = true) : SliceRead L slice s u := by
  have payload : t.payload = s.payload := by rw [items.frame]
  refine ⟨parities.ready, ?frame, fun pins => ?pmode, fun q => ?cursor, ?ok, fun q => ?parity,
    sliceHeld hL items parities parity, fun fid slice' index h => ?kept, parities.stored.wf⟩
  case frame => rw [parities.frame, items.frame]
  case pmode => rw [parities.pmode_eq, if_neg pins]
  case cursor =>
    rw [parities.cursor_eq, items.cursor_eq, payload, ← cursorAfter_append]
    by_cases hq : q ∈ L.pins
    · rw [if_pos hq, if_pos hq]
    · rw [if_neg hq, if_neg hq, hL.laneWidths_eq_nil hq]; rfl
  case ok =>
    rw [parities.ok_iff, items.ok_iff, and_assoc]
    refine and_congr_right fun _ => ⟨fun ⟨data, bits⟩ q hq => ?_, fun all => ⟨fun q => ?_, fun q hq => ?_⟩⟩
    · have := bits q hq
      rw [LaneHolds, payload, items.cursor_eq, cursorAfter_of_le (data q)] at this
      rwa [LaneHolds, ← hL.sum_laneWidths hq, ← Nat.add_assoc]
    · by_cases hq : q ∈ L.pins
      · have := hL.sum_laneWidths hq
        exact le_trans (by omega) (all q hq)
      · rw [hL.laneWidths_eq_nil hq]
        exact ready.cursor_le q
    · rw [LaneHolds, payload, items.cursor_of_holds hL hq (all q hq), Nat.add_assoc, hL.sum_laneWidths hq]
      exact all q hq
  case parity =>
    rw [parities.parity_eq]
    split
    · rfl
    · rename_i hq
      have none := hL.laneWidths_eq_nil hq
      rw [items.parity_eq q (by rw [none]; exact ready.cursor_le q), none, parity]
      rfl
  case kept =>
    obtain ⟨noItem, noParity⟩ := hL.key_ne h
    exact (parities.stored.kept (fid, slice', index) noParity).trans (items.stored.kept (fid, slice', index) noItem)

end

/-! ## The slices -/

theorem unpackSlices_succ (L : NeutralLayout) (first count : Nat) (s : State) :
    unpackSlices L first (count + 1) s =
      ((unpackNeutralItems (BitVec.ofNat 8 first) L.items s).bind (unpackParities (BitVec.ofNat 8 first) L.pins)).bind
        (unpackSlices L (first + 1) count) := by
  rw [unpackSlices]
  cases unpackNeutralItems (BitVec.ofNat 8 first) L.items s with
  | error e => rfl
  | ok t =>
    dsimp only [Except.bind]
    cases unpackParities (BitVec.ofNat 8 first) L.pins t <;> rfl

theorem laneReads_succ (L : NeutralLayout) (pin n : Nat) :
    laneReads L pin (n + 1) = (laneWidths L.items pin ++ [1]) ++ laneReads L pin n := by
  rw [laneReads, List.replicate_succ, List.flatten_cons]
  rfl

theorem sum_laneReads (L : NeutralLayout) (pin n : Nat) :
    (laneReads L pin n).sum = n * ((laneWidths L.items pin).sum + 1) := by
  induction n with
  | zero => simp [laneReads]
  | succ n ih => rw [laneReads_succ, List.sum_append, List.sum_append, ih, List.sum_singleton, Nat.succ_mul, Nat.add_comm]

/-- The lanes of `s` stand at slice `first`, as far as the payload goes. -/
def AtSlice (L : NeutralLayout) (first : Nat) (s : State) : Prop :=
  ∀ p ∈ L.pins, first * L.bpspp ≤ s.payload.length → s.cursor p = first * L.bpspp

/-- What the walk over the slices from `first` on, `count` of them, does. -/
structure SlicesRead (L : NeutralLayout) (first count : Nat) (s t : State) : Prop where
  frame : t = { s with ok := t.ok, pincur := t.pincur, par := t.par, fields := t.fields, pmode := t.pmode, free := t.free }
  pmode_eq : L.pins ≠ [] → t.pmode = if count = 0 then s.pmode else .neutral
  cursor_eq : ∀ q, t.cursor q = if q ∈ L.pins then cursorAfter s.payload.length (laneReads L q count) (s.cursor q) else s.cursor q
  ok_iff : t.ok = true ↔ s.ok = true ∧ ∀ q ∈ L.pins, LaneHolds s q (count * L.bpspp)
  parity_eq : ∀ q, t.parity q = true
  held : ∀ slice, first ≤ slice → slice < first + count →
    SliceHeld L s.payload (BitVec.ofNat 8 slice) (fun _ => slice * L.bpspp) t
  kept : ∀ fid slice index : Slot, (slice.toNat < first ∨ first + count ≤ slice.toNat) ∨ Unlisted L fid index →
    t.field fid slice index = s.field fid slice index

section

variable {L : NeutralLayout} {s t u : State} {first count : Nat}

/-- A slice's fields stay while others are read. -/
theorem SliceHeld.congr {payload : List Word} {slice : Slot} {pos pos' : Nat → Nat} (h : SliceHeld L payload slice pos t)
    (hitem : ∀ it ∈ L.items, it.pin ∈ L.pins) (hfield : ∀ fid index, u.field fid slice index = t.field fid slice index)
    (hpos : ∀ p ∈ L.pins, pos' p ≤ payload.length → pos p = pos' p) : SliceHeld L payload slice pos' u where
  item before it after split room later := by
    have same := hpos it.pin (hitem it (by simp [split])) (by omega)
    rw [hfield, ← same]
    exact h.item before it after split (by rw [same]; exact room) later
  parity p hp hold := by
    have same := hpos p hp (by omega)
    rw [hfield, ← same]
    exact h.parity p hp (by rw [same]; exact hold)

theorem slicesRead_zero (ready : LaneReady s) (parity : ∀ q, s.parity q = true) : SlicesRead L first 0 s s where
  frame := rfl
  pmode_eq _ := rfl
  cursor_eq q := by simp [laneReads, cursorAfter]
  ok_iff := by
    rw [Nat.zero_mul]
    exact (and_iff_left fun q _ => ready.cursor_le q).symm
  parity_eq := parity
  held slice hle hlt := absurd hle (by omega)
  kept _ _ _ _ := rfl

variable (hL : NeutralLayoutOk s.cfg L)

include hL

/-- After a slice that a lane holds it stands at the next. -/
theorem SliceRead.cursor_of_holds (read : SliceRead L (BitVec.ofNat 8 first) s t) {p : Nat} (hp : p ∈ L.pins)
    (hold : LaneHolds s p L.bpspp) : t.cursor p = s.cursor p + L.bpspp := by
  have sum : (laneWidths L.items p ++ [1]).sum = L.bpspp := by
    rw [List.sum_append]; exact hL.sum_laneWidths hp
  rw [read.cursor_eq, if_pos hp, cursorAfter_of_le (by rw [sum]; exact hold), sum]

theorem AtSlice.next (hat : AtSlice L first s) (read : SliceRead L (BitVec.ofNat 8 first) s t) : AtSlice L (first + 1) t := by
  intro p hp hle
  have payload : t.payload = s.payload := by rw [read.frame]
  rw [payload, Nat.succ_mul] at hle
  have here := hat p hp (by omega)
  rw [read.cursor_of_holds hL hp (by rwa [LaneHolds, here]), here, Nat.succ_mul]

/-- One slice, then the others. -/
theorem SlicesRead.cons (hat : AtSlice L first s) (few : first + (count + 1) ≤ 256)
    (read : SliceRead L (BitVec.ofNat 8 first) s t) (hrest : SlicesRead L (first + 1) count t u) :
    SlicesRead L first (count + 1) s u := by
  have payload : t.payload = s.payload := by rw [read.frame]
  have slot : (BitVec.ofNat 8 first).toNat = first := by
    rw [BitVec.toNat_ofNat]; exact Nat.mod_eq_of_lt (by omega)
  refine ⟨?frame, fun pins => ?pmode, fun q => ?cursor, ?ok, hrest.parity_eq, fun slice hle hlt => ?held,
    fun fid slice index h => ?kept⟩
  case frame => rw [hrest.frame, read.frame]
  case pmode => rw [hrest.pmode_eq pins, read.pmode_eq pins, ite_self, if_neg (Nat.succ_ne_zero count)]
  case cursor =>
    rw [hrest.cursor_eq, payload, read.cursor_eq]
    split
    · rw [laneReads_succ, cursorAfter_append _ (laneWidths L.items q ++ [1])]
    · rfl
  case ok =>
    rw [hrest.ok_iff, read.ok_iff, and_assoc, ← forall₂_and]
    refine and_congr_right fun _ => forall₂_congr fun q hq => ⟨fun ⟨one, others⟩ => ?_, fun all => ?_⟩
    · rw [LaneHolds, payload, read.cursor_of_holds hL hq one] at others
      rw [LaneHolds, Nat.succ_mul]
      omega
    · rw [LaneHolds, Nat.succ_mul] at all
      have one : LaneHolds s q L.bpspp := le_trans (by omega) all
      refine ⟨one, ?_⟩
      rw [LaneHolds, payload, read.cursor_of_holds hL hq one]
      omega
  case held =>
    rcases Nat.eq_or_lt_of_le hle with rfl | later
    · exact read.held.congr hL.item_pin (fun fid index => hrest.kept _ _ _ (.inl (.inl (by omega)))) hat
    · rw [← payload]
      exact hrest.held slice later (by omega)
  case kept =>
    have others : (slice.toNat < first + 1 ∨ first + 1 + count ≤ slice.toNat) ∨ Unlisted L fid index :=
      h.imp_left fun h => h.imp (by omega) (by omega)
    have here : slice ≠ BitVec.ofNat 8 first ∨ Unlisted L fid index :=
      h.imp_left fun h same => by rw [same, slot] at h; omega
    rw [hrest.kept fid slice index others, read.kept fid slice index here]

end

/-- The walk over the slices always ends. -/
theorem unpackSlices_reads {L : NeutralLayout} (count first : Nat) {s : State} (hL : NeutralLayoutOk s.cfg L)
    (ready : LaneReady s) (hwf : s.fields.wf) (parity : ∀ q, s.parity q = true) (hat : AtSlice L first s)
    (few : first + count ≤ 256) : ∃ t, unpackSlices L first count s = .ok t ∧ SlicesRead L first count s t := by
  induction count generalizing first s with
  | zero => exact ⟨s, rfl, slicesRead_zero ready parity⟩
  | succ count ih =>
    obtain ⟨t, itemsWalk, items⟩ := unpackNeutralItems_reads (BitVec.ofNat 8 first) L.items ready hwf
      fun it hit => ⟨hL.pin_lt _ (hL.item_pin it hit), hL.item_width it hit⟩
    have tcfg : t.cfg = s.cfg := by rw [items.frame]
    obtain ⟨u, paritiesWalk, parities⟩ := unpackParities_reads (BitVec.ofNat 8 first) hL.nodup items.ready items.stored.wf
      (tcfg ▸ hL.pin_lt)
    have read := sliceRead hL items parities ready parity
    have ucfg : u.cfg = s.cfg := by rw [read.frame]
    obtain ⟨v, rest, hv⟩ := ih (first + 1) (ucfg ▸ hL) read.ready read.wf read.parity_eq (hat.next hL read) (by omega)
    refine ⟨v, ?_, .cons hL hat few read hv⟩
    rw [unpackSlices_succ, itemsWalk]
    dsimp only [Except.bind]
    rw [paritiesWalk]
    exact rest

/-- Without pins no slice reads anything. -/
theorem unpackSlices_of_no_pins {c : Config} {L : NeutralLayout} (hL : NeutralLayoutOk c L) (nopins : L.pins = [])
    (count first : Nat) (s : State) : unpackSlices L first count s = .ok s := by
  induction count generalizing first with
  | zero => rfl
  | succ count ih =>
    rw [unpackSlices_succ, hL.items_eq_nil nopins, nopins]
    exact ih (first + 1)

/-! ## MUNPACK -/

/-- There is always a slice (43_marshaller.md R260). -/
theorem timeslicesOf_ne_zero (s : State) : timeslicesOf s ≠ 0 := by
  have atLeastOne : ∀ m : Nat, (if m = 0 then 1 else m) ≠ 0 := by
    intro m
    split <;> omega
  exact atLeastOne _

theorem laneReady_unpackStart (s : State) : LaneReady (unpackStart s) :=
  ⟨rfl, nofun, fun q => (State.cursor_resetLanes s q).trans_le (Nat.zero_le _)⟩

/-- Settles O56: the walk reads the slices one after the other from row 0 of every lane. -/
theorem munpackReadsANeutralLayout : Obligations.MunpackReadsANeutralLayout := by
  unfold Obligations.MunpackReadsANeutralLayout
  intro s L n hwf header flushed layout slices
  have body : munpackBody s = (if n > 256 then .error .badState else unpackSlices L 0 n (unpackStart s)).map
      fun t => (t, boolWord t.ok) := by
    have same : timeslicesOf (unpackStart s) = n := slices
    rw [munpackBody_eq header flushed (chooseLayout_neutral layout), unpackLayout, unpackNeutralLayout, same]
  have hL : NeutralLayoutOk (unpackStart s).cfg L := neutralLayoutOk layout
  refine ⟨fun many => ?many, fun few nopins => ?nopins, fun few pins => ?read⟩
  case many => exact refusedWith_munpack (by rw [body, if_pos many])
  case nopins =>
    rw [if_neg (Nat.not_lt.mpr few), unpackSlices_of_no_pins hL nopins] at body
    exact ⟨unpackStart s, unpackStart s, completes_munpack body,
      completes_of_noResult_ok (exec_unpackInit s) (unpackInitBody_ok_iff.mpr ⟨flushed, rfl⟩), rfl⟩
  case read =>
    have cursor : ∀ q, (unpackStart s).cursor q = 0 := State.cursor_resetLanes s
    obtain ⟨t, walk, read⟩ := unpackSlices_reads n 0 hL (laneReady_unpackStart s) hwf (State.parity_resetLanes s)
      (fun p _ _ => by rw [cursor, Nat.zero_mul]) (by omega)
    rw [if_neg (Nat.not_lt.mpr few), walk] at body
    have holds : ∀ q, LaneHolds (unpackStart s) q (n * L.bpspp) ↔ n * L.bpspp ≤ s.payload.length := by
      intro q
      rw [LaneHolds, cursor, Nat.zero_add]
      rfl
    have ok : t.ok = decide (n * L.bpspp ≤ s.payload.length) := by
      obtain ⟨p, hp⟩ := List.exists_mem_of_ne_nil _ pins
      rw [Bool.eq_iff_iff, decide_eq_true_iff, read.ok_iff]
      exact ⟨fun h => (holds p).mp (h.2 p hp), fun h => ⟨rfl, fun q _ => (holds q).mpr h⟩⟩
    have mode : t.pmode = .neutral := by
      have one : n ≠ 0 := slices ▸ timeslicesOf_ne_zero s
      rw [read.pmode_eq pins, if_neg one]
    have ends : ∀ q, t.cursor q = if q ∈ L.pins then cursorAfter s.payload.length (laneReads L q n) 0 else 0 := by
      intro q
      rw [read.cursor_eq, cursor]
      rfl
    refine ⟨t, ?completes, ?frame, fun p => ⟨read.parity_eq p, ends p⟩, fun room p hp => ?whole,
      fun slice hslice => ?slice, fun fid slice index h => ?others⟩
    case completes =>
      rw [← boolWord_decide, ← ok]
      exact completes_munpack body
    case frame =>
      rw [← ok, ← mode]
      exact read.frame
    case whole =>
      have sum : (laneReads L p n).sum = n * L.bpspp := by rw [sum_laneReads, hL.sum_laneWidths hp]
      rw [ends, if_pos hp, cursorAfter_of_le (by rw [sum]; omega), sum, Nat.zero_add]
    case slice =>
      have held := read.held slice (Nat.zero_le _) (by omega)
      exact ⟨held.item, fun p hp room => held.parity p hp (by rwa [Nat.succ_mul] at room)⟩
    case others => exact read.kept fid slice index (h.imp_left fun h => .inr (by omega))

end Sys2Proof.Machine

/-! The reset input against CLEAR (70_reset_and_hazards.md R341), as an equation between the states that the two leave. -/

namespace Sys2Proof.Machine

open Sys2Proof Sys2Proof.Spec

theorem applyReset_resp (s : State) : (applyReset s).resp = none := rfl

/-- Settles O9: the step to `applyReset` and the completion of CLEAR at `clearState` leave the two states that
`applyReset_eq_clearState` compares; reset empties the response. -/
theorem resetIsClearAndThreeMore : Obligations.ResetIsClearAndThreeMore := by
  unfold Obligations.ResetIsClearAndThreeMore
  intro s rest hport
  refine ⟨applyReset { s with port := rest }, clearState { s with port := rest }, completes_clear _,
    step_of_port_reset hport, ?_⟩
  rw [applyReset_resp]
  exact applyReset_eq_clearState _

end Sys2Proof.Machine

/-! Decoding and encoding (30_encoding.md): the two are inverse to each other, and the rows of the operation table are the
command words that decode. -/

namespace Sys2Proof

open Spec

/-! ## Decoding what the encoder writes -/

theorem decode_commandWord (op a b c : Slot) (v : Word) :
    decode (.cmd64 (commandWord op a b c v)) = decodeFields op a b c v := by
  simp only [decode, decodeCommand, opOf_commandWord, aOf_commandWord, bOf_commandWord, cOf_commandWord, vOf_commandWord]

/-- The two pairs of bits that `decodeWire` reads, from the top nibble (30_encoding.md R100). -/
theorem wirePairs_of_nibble {w : Word} {n : BitVec 4} (h : w.extractLsb' 28 4 = n) :
    w.extractLsb' 30 2 = n.extractLsb' 2 2 ∧ w.extractLsb' 28 2 = n.extractLsb' 0 2 := by
  rw [← h, ← extractLsb'_nibble]
  exact ⟨((extractLsb'_append_high _ _ 2 2 le_rfl).trans (extractLsb'_whole _)).symm,
    ((extractLsb'_append_low _ _ 0 2 le_rfl).trans (extractLsb'_whole _)).symm⟩

theorem headerWord_pairs (id : BitVec 4) (version format : BitVec 3) (seqno : BitVec 6) (crate modNo slices2 slices1 : BitVec 4) :
    (headerWord id version format seqno crate modNo slices2 slices1).extractLsb' 30 2 = id.extractLsb' 2 2 ∧
      (headerWord id version format seqno crate modNo slices2 slices1).extractLsb' 28 2 = id.extractLsb' 0 2 :=
  wirePairs_of_nibble (headerWord_wordId ..)

theorem statusWord_pairs (bcn seqno : BitVec 6) (crate modNo : BitVec 4) (b7 b6 b5 b4 b3 b2 b1 b0 : BitVec 1) :
    (statusWord bcn seqno crate modNo b7 b6 b5 b4 b3 b2 b1 b0).extractLsb' 30 2 = 3 ∧
      (statusWord bcn seqno crate modNo b7 b6 b5 b4 b3 b2 b1 b0).extractLsb' 28 2 = 1 :=
  wirePairs_of_nibble (statusWord_status ..)

/-- Decoding gives back every instruction: a command by its five fields, a wire word by its top nibble and its fields. -/
theorem decode_encode (i : Instr) : decode (encode i) = .ok i := by
  cases i
  case wordHeaderC | wordHeaderE | wordHeaderF =>
    simp [encode, decode, decodeWire, headerWord_pairs]
  case wordStatus => simp [encode, decode, decodeWire, statusWord_pairs]
  case wordData00 | wordData01 | wordData10 => simp [encode, decode, decodeWire]
  all_goals exact decode_commandWord ..

/-- Settles O1, by `decode_encode`. -/
theorem decodeInvertsEncode : Obligations.DecodeInvertsEncode := by
  unfold Obligations.DecodeInvertsEncode
  exact decode_encode

/-- Settles O5: each word is the encoding of what it stands for. -/
theorem writtenOutWordsDecode : Obligations.WrittenOutWordsDecode := by
  unfold Obligations.WrittenOutWordsDecode
  exact ⟨decode_encode (.pack 0x1F3 9), decode_encode (.packNeutral 19 1 1), decode_encode (.hdrSet 5 9),
    decode_encode (.readWord 0xABCDEF9D), decode_encode (.fieldSet 2 0 5 3), decode_encode (.setKind 7),
    decode_encode (.wordHeaderC 1 1 5 3 9 5 1), decode_encode (.wordStatus 0x2A 5 3 9 0 0 0 0 0 1 0 1),
    decode_encode (.wordData10 0x36FBBEA5)⟩

/-! ## Encoding what decodes -/

/-- The top nibble is put together from the two pairs of bits. -/
theorem topNibble_of_pairs {w : Word} {a b : Nat} (ha : (w.extractLsb' 30 2).toNat = a) (hb : (w.extractLsb' 28 2).toNat = b) :
    w.extractLsb' 28 4 = (BitVec.ofNat 2 a ++ BitVec.ofNat 2 b : BitVec 4) := by
  rw [← extractLsb'_nibble, ← ha, ← hb, BitVec.ofNat_toNat, BitVec.ofNat_toNat, BitVec.setWidth_eq, BitVec.setWidth_eq]

/-- A wire word is the encoding of what it decodes to (30_encoding.md R100, R104, R108). -/
theorem encode_decodeWire (w : Word) : encode (decodeWire w) = .wire32 w := by
  have data {k : Nat} (h : (w.extractLsb' 30 2).toNat = k) : dataWord (BitVec.ofNat 2 k) (w.extractLsb' 0 30) = w := by
    rw [← h, BitVec.ofNat_toNat, BitVec.setWidth_eq, dataWord_fields]
  have pair_lt : ∀ x : BitVec 2, x.toNat ≠ 0 → x.toNat ≠ 1 → x.toNat ≠ 2 → x.toNat = 3 := by decide
  unfold decodeWire
  split
  case h_1 h | h_2 h | h_3 h => exact congrArg CodeWord.wire32 (data h)
  case h_4 h0 h1 h2 =>
    have top := pair_lt _ h0 h1 h2
    have header {k : Nat} {id : BitVec 4} (h : (w.extractLsb' 28 2).toNat = k) (hid : BitVec.ofNat 2 3 ++ BitVec.ofNat 2 k = id) :
        headerWord id (w.extractLsb' 25 3) (w.extractLsb' 22 3) (w.extractLsb' 16 6) (w.extractLsb' 12 4) (w.extractLsb' 8 4)
          (w.extractLsb' 4 4) (w.extractLsb' 0 4) = w := by
      rw [← hid, ← topNibble_of_pairs top h, headerWord_fields]
    split
    case h_1 h | h_3 h => exact congrArg CodeWord.wire32 (header h rfl)
    case h_2 h => exact congrArg CodeWord.wire32 (statusWord_fields w (topNibble_of_pairs top h))
    case h_4 g0 g1 g2 => exact congrArg CodeWord.wire32 (header (pair_lt _ g0 g1 g2) rfl)

/-- Settles O2, by the two formats of a word. -/
theorem encodeInvertsDecode : Obligations.EncodeInvertsDecode := by
  unfold Obligations.EncodeInvertsDecode
  intro c i h
  cases c with
  | cmd64 w => exact encode_of_decodeCommand h
  | wire32 w =>
    cases h
    exact encode_decodeWire w

/-! ## The rows of the operation table -/

/-- A word in a row has the row's five fields under the fields of the mask. -/
theorem fields_of_and_eq {w mask value : CommandWord} (h : w &&& mask = value) :
    opOf w &&& opOf mask = opOf value ∧ aOf w &&& aOf mask = aOf value ∧ bOf w &&& bOf mask = bOf value ∧
      cOf w &&& cOf mask = cOf value ∧ vOf w &&& vOf mask = vOf value := by
  simp only [← h, opOf, aOf, bOf, cOf, vOf, BitVec.extractLsb'_and, and_self]

/-- The `op` and the unused fields of a word in a row are what the decoder asks for. -/
theorem exists_decodeCommand_of_commandRow {w : CommandWord} {r : CommandWord × CommandWord} (hr : r ∈ commandRows)
    (h : w &&& r.2 = r.1) : ∃ i, decodeCommand w = .ok i := by
  obtain ⟨hop, ha, hb, hc, hv⟩ := fields_of_and_eq h
  have slot (x : Slot) : x &&& 0xFF#8 = x := BitVec.and_allOnes
  have word (x : Word) : x &&& 0xFFFFFFFF#32 = x := BitVec.and_allOnes
  unfold decodeCommand
  generalize opOf w = op at *
  generalize aOf w = a at *
  generalize bOf w = b at *
  generalize cOf w = c at *
  generalize vOf w = v at *
  simp only [commandRows, List.cons_append, List.nil_append, List.mem_cons, List.not_mem_nil, or_false] at hr
  rcases hr with
    rfl | rfl | rfl | rfl | rfl | rfl | rfl | rfl | rfl | rfl | rfl | rfl | rfl | rfl | rfl | rfl | rfl
    | rfl | rfl | rfl | rfl | rfl | rfl | rfl | rfl | rfl | rfl | rfl | rfl | rfl | rfl | rfl | rfl |
    rfl | rfl | rfl
  all_goals
    simp [opOf, aOf, bOf, cOf, vOf, slot, word] at hop ha hb hc hv
    subst_vars
    exact ⟨_, rfl⟩

/-- Settles O3: the rows hold what the encoder writes, and the decoder reads all of it. -/
theorem commandsAreExactlyTheTableRows : Obligations.CommandsAreExactlyTheTableRows := by
  unfold Obligations.CommandsAreExactlyTheTableRows
  intro w
  exact ⟨fun ⟨_, h⟩ => exists_commandRow_of_decodeCommand h, fun ⟨_, hr, h⟩ => exists_decodeCommand_of_commandRow hr h⟩

end Sys2Proof

/-! One step of the block: what the port holds decides which instruction runs, every instruction is answered, and what is
refused is refused before anything changes (60_exceptions.md). -/

namespace Sys2Proof.Machine

open Sys2Proof Sys2Proof.Spec

/-! ## The port -/

theorem step_of_decode_ok {s : State} {c : CodeWord} {i : Instr} {rest : List PortEvent} (hport : s.port = .word c :: rest)
    (hc : decode c = .ok i) : step s = exec i { s with port := rest } := by
  have taken : fetch s = .run i { s with port := rest } := by simp only [fetch, hport, hc]
  simp only [step, taken]

/-- Settles O6, by `step_of_decode_ok`. -/
theorem stepRunsTheDecodedInstruction : Obligations.StepRunsTheDecodedInstruction := by
  unfold Obligations.StepRunsTheDecodedInstruction
  intro s c i rest hport hc
  exact step_of_decode_ok hport hc

theorem step_of_port_nil {s : State} (h : s.port = []) : step s = .next s := by
  have taken : fetch s = .nothing := by simp only [fetch, h]
  simp only [step, taken]

theorem step_of_port_drain {s : State} {n : Nat} {rest : List PortEvent} (h : s.port = .drain n :: rest) :
    step s = .next (drainOut n { s with port := rest }) := by
  have taken : fetch s = .drain n { s with port := rest } := by simp only [fetch, h]
  simp only [step, taken]

/-- Settles O7, by the two events that are no word and no reset. -/
theorem stepWaitsOrDrains : Obligations.StepWaitsOrDrains := by
  unfold Obligations.StepWaitsOrDrains
  exact ⟨fun s h => step_of_port_nil h, fun s n rest h => step_of_port_drain h⟩

/-! ## Every instruction is answered -/

/-- Every instruction ends as a command ends: with its writes, or with none (00_scope.md R13). -/
theorem exec_eq_finish (i : Instr) (s : State) : ∃ body, exec i s = finish s body := by
  cases i
  case clear | unpackSuccess | minBits | dataWords | timeslices | wordType | wordId | wordFormat | wordSeqno | wordModule |
      stSet | stWord | readBegin | fieldSet | fieldGet | roiLoad => exact ⟨.ok (_, _), rfl⟩
  all_goals exact ⟨_, rfl⟩

theorem exec_answers (i : Instr) (s : State) :
    ∃ (t : State) (r : Response), exec i s = .next t ∧ t.resp = some r ∧ (r.status ≠ .ok → t = s.refuse r.status) := by
  obtain ⟨body, h⟩ := exec_eq_finish i s
  rw [h]
  cases body with
  | ok x => exact ⟨_, ⟨.ok, x.2⟩, rfl, rfl, fun ne => absurd rfl ne⟩
  | error c => exact ⟨_, ⟨c, 0⟩, rfl, rfl, fun _ => rfl⟩

theorem exists_step (s : State) : ∃ t, step s = .next t := by
  unfold step
  split
  case h_4 i t _ =>
    obtain ⟨u, _, h, _⟩ := exec_answers i t
    exact ⟨u, h⟩
  all_goals exact ⟨_, rfl⟩

/-- Settles O11: an instruction ends as `finish` says, and everything else at the port is answered at once. -/
theorem refusalChangesNothing : Obligations.RefusalChangesNothing := by
  unfold Obligations.RefusalChangesNothing
  exact ⟨exists_step, exec_answers⟩

/-! ## Operands that no block takes (60_exceptions.md R311) -/

theorem exec_unpackNeutralParityError (pin : Slot) (s : State) :
    exec (.unpackNeutralParityError pin) s = finish s (unpackNeutralParityErrorBody pin.toNat s) := rfl

theorem unpackNeutralParityErrorBody_badOperand {s : State} {pin : Nat} (h : maxPins s.cfg ≤ pin) :
    unpackNeutralParityErrorBody pin s = .error .badOperand := by
  simp [unpackNeutralParityErrorBody, pinOk_eq_false_iff.mpr h]

theorem unpackNeutralParityErrorBody_badState {s : State} {pin : Nat} (hpin : pin < maxPins s.cfg)
    (h : s.pass ≠ .unpack ∨ s.pmode = .serial) : unpackNeutralParityErrorBody pin s = .error .badState := by
  simp [unpackNeutralParityErrorBody, pinOk, hpin, mayNeutralUnpack_eq_false_iff.mpr h]

theorem kindOfCode_eq_none {code : Slot} (h : code.toNat > 7) : kindOfCode code = none := by
  rw [kindOfCode_eq]
  exact List.getElem?_eq_none h

/-- Settles O12: a width above 32 is above `maxbits`, a pin above 31 is above `MAX_PINS`, and the selectors and kinds above
7 are in no table. -/
theorem illFormedIsBadOperand : Obligations.IllFormedIsBadOperand := by
  unfold Obligations.IllFormedIsBadOperand
  intro i s ill
  have pins := maxPins_le s.cfg
  have width := maxbits_le s.streamed
  cases i
  all_goals simp only [Instr.wellFormed, kindKnown, nbitsInWord, pinInWord, selectorKnown, Bool.and_eq_false_iff,
    decide_eq_false_iff_not, Nat.not_le, Nat.not_lt, reduceCtorEq] at ill
  case setKind code =>
    exact refusedWith_of_noResult_error (exec_setKind code s) (by rw [setKindBody, kindOfCode_eq_none ill])
  case pack value nbits =>
    exact refusedWith_of_noResult_error (exec_pack value nbits s) (packBody_badOperand value (by omega))
  case unpack nbits => exact refusedWith_of_error (exec_unpack nbits s) (unpackBody_badOperand (by omega))
  case packNeutral pin value nbits =>
    exact refusedWith_of_noResult_error (exec_packNeutral pin value nbits s) (packNeutralBody_badOperand value (by omega))
  case packNeutralParity pin =>
    exact refusedWith_of_noResult_error (exec_packNeutralParity pin s) (packNeutralParityBody_badOperand (by omega))
  case unpackNeutral pin nbits =>
    exact refusedWith_of_error (exec_unpackNeutral pin nbits s) (unpackNeutralBody_badOperand (by omega))
  case unpackNeutralParityError pin =>
    exact refusedWith_of_error (exec_unpackNeutralParityError pin s) (unpackNeutralParityErrorBody_badOperand (by omega))
  case hdrSet field value =>
    exact refusedWith_of_noResult_error (exec_hdrSet field value s) (hdrSetBody_badOperand value (hdrField_eq_none ill))
  case hdrGet field => exact refusedWith_of_error (exec_hdrGet field s) (hdrGetBody_badOperand (hdrField_eq_none ill))
  case stGet field => exact refusedWith_of_error (exec_stGet field s) (stGetBody_badOperand (stField_eq_none ill))

/-! ## What MPACK and MUNPACK refuse before they walk (43_marshaller.md R262, R265, R266) -/

section

variable {s : State}

theorem mpackBody_badState (h : wordtype s.hdr ≠ .header ∨ s.pass ≠ .pack ∨ s.pmode ≠ .none ∨ s.payload ≠ []) :
    mpackBody s = .error .badState := by
  unfold mpackBody
  split_ifs with header pass
  · rfl
  · rfl
  · simp_all

theorem munpackBody_badState (h : wordtype s.hdr ≠ .header ∨ s.wcur ≠ 0) : munpackBody s = .error .badState := by
  unfold munpackBody
  split_ifs with header flushed
  · rfl
  · rfl
  · simp_all

theorem mpackBody_of_no_choice {e : Status} (header : wordtype s.hdr = .header) (pass : s.pass = .pack)
    (mode : s.pmode = .none) (empty : s.payload = []) (choice : chooseLayout s = .error e) : mpackBody s = .error e := by
  simp [mpackBody, header, pass, mode, empty, choice]

theorem munpackBody_of_no_choice {e : Status} (header : wordtype s.hdr = .header) (flushed : s.wcur = 0)
    (choice : chooseLayout s = .error e) : munpackBody s = .error e := by
  simp [munpackBody, header, flushed, choice]

theorem hdrFormat_toNat (h : Word) : (hdrFormat h).toNat = bits h 24 22 := (bits_eq_toNat_extractLsb' h 24 22).symm

theorem chooseLayout_unsupported (h : bits s.hdr 24 22 ≥ 2 ∨ layoutOf s.cfg s.kind s.hdr = none) :
    chooseLayout s = .error .unsupported := by
  simp only [chooseLayout, hdrFormat_toNat]
  split_ifs with reserved compressed
  · rfl
  · rfl
  · have format : ¬ bits s.hdr 24 22 ≥ 2 := by simpa [hasCompression] using compressed
    rw [h.resolve_left format]

/-- A block in streamed mode cannot walk a serial layout that is not streamed (60_exceptions.md R307). -/
theorem chooseLayout_badState {L : SerialLayout} (layout : layoutOf s.cfg s.kind s.hdr = some (.serial L))
    (streamed : s.streamed = true) (plain : L.streamed = false) : chooseLayout s = .error .badState := by
  have format : (hdrFormat s.hdr).toNat = 1 := by rw [(layoutOf_serial layout).1]; rfl
  simp [chooseLayout, format, layout, streamed, plain]

end

/-- Settles O52, by the checks in their order. -/
theorem marshallerRefusals : Obligations.MarshallerRefusals := by
  unfold Obligations.MarshallerRefusals
  intro s
  refine ⟨fun h => refusedWith_of_error (exec_mpack s) (mpackBody_badState h),
    fun h => refusedWith_of_error (exec_munpack s) (munpackBody_badState h), fun header h => ⟨fun pass mode empty => ?_,
    fun flushed => ?_⟩, fun L header layout streamed plain => ⟨?_, ?_⟩⟩
  · exact refusedWith_of_error (exec_mpack s)
      (mpackBody_of_no_choice header pass mode empty (chooseLayout_unsupported h))
  · exact refusedWith_of_error (exec_munpack s) (munpackBody_of_no_choice header flushed (chooseLayout_unsupported h))
  · have choice := chooseLayout_badState layout streamed plain
    refine refusedWith_of_error (exec_mpack s) ?_
    by_cases h : s.pass = .pack ∧ s.pmode = .none ∧ s.payload = []
    · exact mpackBody_of_no_choice header h.1 h.2.1 h.2.2 choice
    · exact mpackBody_badState (.inr (by tauto))
  · refine refusedWith_of_error (exec_munpack s) ?_
    by_cases flushed : s.wcur = 0
    · exact munpackBody_of_no_choice header flushed (chooseLayout_badState layout streamed plain)
    · exact munpackBody_badState (.inr flushed)

/-! ## The reset state (70_reset_and_hazards.md R342) -/

/-- Settles O10: the reset state is in a pack pass, has no header, and its reader is idle. -/
theorem resetStateRefuses : Obligations.ResetStateRefuses := by
  unfold Obligations.ResetStateRefuses
  rintro c s rfl
  have headless : wordtype (0 : Word) ≠ .header := by decide
  have packing : State.reset.pass ≠ .unpack := nofun
  refine ⟨fun nbits hn => ?_, fun pin nbits hpin hn => ?_, fun pin hpin => ?_, fun w => ?_, ?_, ?_, ?_, ?_⟩
  · exact refusedWith_of_error (exec_unpack ..) (unpackBody_badState hn (.inl packing))
  · exact refusedWith_of_error (exec_unpackNeutral ..) (unpackNeutralBody_badState hpin hn (.inl packing))
  · exact refusedWith_of_error (exec_unpackNeutralParityError ..)
      (unpackNeutralParityErrorBody_badState hpin (.inl packing))
  · exact refusedWith_of_error (exec_readWord ..) (readWordBody_idle rfl)
  · exact refusedWith_of_error (exec_hdrWord _) (hdrWordBody_badState headless)
  · exact refusedWith_of_error (exec_write _) (writeBody_badState (.inl headless))
  · exact refusedWith_of_error (exec_mpack _) (mpackBody_badState (.inl headless))
  · exact refusedWith_of_error (exec_munpack _) (munpackBody_badState (.inl headless))

/-! ## Wire words (30_encoding.md R100) -/

/-- A wire word runs as READ_WORD of the word it is. -/
theorem exec_of_encode_wire32 {i : Instr} {w : Word} (h : encode i = .wire32 w) (s : State) :
    exec i s = exec (.readWord w) s := by
  cases i
  case wordHeaderC | wordHeaderE | wordHeaderF | wordStatus | wordData00 | wordData01 | wordData10 =>
    cases h
    rfl
  all_goals cases h

/-- The top nibble of a word decides its kind, also where it is known as a slice. -/
theorem wordtype_of_nibble {w : Word} {n : BitVec 4} (h : w.extractLsb' 28 4 = n) :
    wordtype w = if n.toNat < 0xC then .data else if n.toNat = 0xD then .status else .header := by
  rw [wordtype_eq_of_topNibble, bits_eq_toNat_extractLsb', show 31 - 28 + 1 = 4 from rfl, h]

theorem wordtype_of_top {w : Word} {p : BitVec 2} (h : w.extractLsb' 30 2 = p) (hp : p ≠ 3) : wordtype w = .data := by
  exact if_neg (h ▸ hp)

/-- Two bit vectors side by side as a number. -/
theorem toNat_append_eq_add {m n : Nat} (x : BitVec m) (y : BitVec n) : (x ++ y).toNat = x.toNat * 2 ^ n + y.toNat := by
  rw [BitVec.toNat_append, ← Nat.shiftLeft_add_eq_or_of_lt y.isLt, Nat.shiftLeft_eq]

/-- A data word as a number: its top two bits and the other thirty (30_encoding.md R102). -/
theorem dataWord_eq_ofNat (top : BitVec 2) (data : BitVec 30) :
    dataWord top data = BitVec.ofNat 32 (data.toNat + top.toNat * 2 ^ 30) :=
  word_eq_ofNat ((toNat_append_eq_add top data).trans (Nat.add_comm ..))

/-- Settles O47: a wire word is READ_WORD of the word that its fields spell. -/
theorem wireWordsReachTheReader : Obligations.WireWordsReachTheReader := by
  unfold Obligations.WireWordsReachTheReader
  intro s
  have taken {i : Instr} {w : Word} {t : State} {r : Word} (hi : encode i = .wire32 w)
      (body : readWordBody w s = .ok (t, r)) : Completes i s t r := by
    rw [Completes, exec_of_encode_wire32 hi, exec_readWord, body, finish_ok]
  refine ⟨fun w => exec_of_encode_wire32 (encode_decodeWire w) s, fun hrd version format seqno crate modNo slices2 slices1 => ?_,
    fun hrd bcn seqno crate modNo b7 b6 b5 b4 b3 b2 b1 b0 => ?_, fun hrd room data => ?_⟩
  · have header {id : BitVec 4} (hid : ¬ id.toNat < 0xC) (hid' : ¬ id.toNat = 0xD) :
        readWordBody (headerWord id version format seqno crate modNo slices2 slices1) s =
          .ok ({ s with hdr := headerWord id version format seqno crate modNo slices2 slices1, rd := .inData }, 1) := by
      refine readWordBody_header hrd ?_
      rw [wordtype_of_nibble (headerWord_wordId ..), if_neg hid, if_neg hid']
    exact ⟨taken rfl (header (by decide) (by decide)), taken rfl (header (by decide) (by decide)),
      taken rfl (header (by decide) (by decide))⟩
  · exact taken rfl (readWordBody_status hrd (wordtype_of_nibble (statusWord_status ..)))
  · have data {top : BitVec 2} (htop : top ≠ 3) :
        readWordBody (dataWord top data) s =
          .ok ({ s with payload := s.payload ++ [BitVec.ofNat 32 (data.toNat + top.toNat * 2 ^ 30)] }, 1) := by
      rw [readWordBody_data hrd (wordtype_of_top (dataWord_top ..) htop) room, dataWord_eq_ofNat]
    exact ⟨taken rfl (data (by decide)), taken rfl (data (by decide)), taken rfl (data (by decide))⟩

end Sys2Proof.Machine

/-! What an instruction can do to the block, said once for all of them; and the invariants of 10_state.md R40, which hold at
reset and which every step keeps. -/

namespace Sys2Proof.Machine

open Sys2Proof Sys2Proof.Spec

/-! ## What an instruction can do -/

/-- What an instruction does to the block, but for the response: nothing (a refusal or a query), or what it does when it is
accepted. -/
inductive Effect (s : State) : Instr → State → Prop where
  | nothing (i : Instr) : Effect s i s
  | clear : Effect s .clear (clearState s)
  | readBegin : Effect s .readBegin { clearState s with rd := .expectHeader }
  | setStreamed (mode : s.pmode = .none) : Effect s .setStreamed { s with streamed := true }
  | unpackInit (flushed : s.wcur = 0) : Effect s .unpackInit (unpackStart s)
  | setKind (code : Slot) (k : Kind) : Effect s (.setKind code) { s with kind := k }
  | pack {value : Word} {n : Slot} {t : State} (body : packBody value n.toNat s = .ok t) : Effect s (.pack value n) t
  | packFlush {t : State} (body : packFlushBody s = .ok t) : Effect s .packFlush t
  | unpack {n : Slot} {t : State} {r : Word} (body : unpackBody n.toNat s = .ok (t, r)) : Effect s (.unpack n) t
  | packNeutral {pin n : Slot} {value : Word} {t : State} (body : packNeutralBody pin.toNat value n.toNat s = .ok t) :
      Effect s (.packNeutral pin value n) t
  | packNeutralParity {pin : Slot} {t : State} (body : packNeutralParityBody pin.toNat s = .ok t) :
      Effect s (.packNeutralParity pin) t
  | unpackNeutral {pin n : Slot} {t : State} {r : Word} (body : unpackNeutralBody pin.toNat n.toNat s = .ok (t, r)) :
      Effect s (.unpackNeutral pin n) t
  | unpackNeutralParityError {pin : Slot} {t : State} {r : Word}
      (body : unpackNeutralParityErrorBody pin.toNat s = .ok (t, r)) : Effect s (.unpackNeutralParityError pin) t
  | hdrSet (field : Slot) (value h : Word) : Effect s (.hdrSet field value) { s with hdr := h }
  | hdrLoad (word : Word) : Effect s (.hdrLoad word) { s with hdr := word }
  | stSet (value : Word) : Effect s (.stSet value) { s with trl := trailerOf s.hdr value }
  | stLoad {word : Word} (status : wordtype word = .status) : Effect s (.stLoad word) { s with trl := word }
  | write : Effect s .write { s with out := s.out ++ subBlockWords s }
  | readWord {i : Instr} {word : Word} {t : State} {r : Word} (reader : i = .readWord word ∨ i = decodeWire word)
      (body : readWordBody word s = .ok (t, r)) : Effect s i t
  | fieldSet (fid slice index : Slot) (value : Word) :
      Effect s (.fieldSet fid slice index value) (s.setField fid slice index value)
  | mpack {t : State} {r : Word} (body : mpackBody s = .ok (t, r)) : Effect s .mpack t
  | munpack {t : State} {r : Word} (body : munpackBody s = .ok (t, r)) : Effect s .munpack t
  | roiLoad (word : Word) : Effect s (.roiLoad word) (roiStore word (roiLayout s.cfg s.kind) s)

/-- An instruction leaves its effect and its response. -/
def LeavesEffect (i : Instr) (s t : State) : Prop := ∃ u c r, Effect s i u ∧ t = u.answer c r

section

variable {i : Instr} {s t : State}

/-- A command leaves its effect when what its body answers is one; refused, it does nothing. -/
theorem leavesEffect_of_finish {body : Except Status (State × Word)} (h : finish s body = .next t)
    (effect : ∀ u r, body = .ok (u, r) → Effect s i u) : LeavesEffect i s t := by
  obtain ⟨u, r, hbody, rfl⟩ | ⟨c, _, rfl⟩ := finish_next_iff.mp h
  · exact ⟨u, .ok, r, effect u r hbody, rfl⟩
  · exact ⟨s, c, 0, .nothing i, rfl⟩

theorem leavesEffect_of_noResult {body : Except Status State} (h : finish s (noResult body) = .next t)
    (effect : ∀ u, body = .ok u → Effect s i u) : LeavesEffect i s t :=
  leavesEffect_of_finish h fun u _ hbody => effect u (noResult_ok_iff.mp hbody).1

theorem leavesEffect_of_complete {u : State} {r : Word} (h : complete u r = .next t) (effect : Effect s i u) :
    LeavesEffect i s t :=
  ⟨u, .ok, r, effect, complete_next_iff.mp h⟩

/-- A command that only answers. -/
theorem leavesEffect_of_query {body : Except Status (State × Word)} (h : finish s body = .next t)
    (same : ∀ u r, body = .ok (u, r) → u = s) : LeavesEffect i s t :=
  leavesEffect_of_finish h fun u r hbody => same u r hbody ▸ .nothing i

/-- A word of the table's WIRE32 rows is taken by the reader (log entry 5). -/
theorem leavesEffect_of_wire {w : Word} (hi : encode i = .wire32 w) (h : exec i s = .next t) : LeavesEffect i s t := by
  have wire : i = decodeWire w := by
    have := decode_encode i
    rw [hi] at this
    exact (Except.ok.inj this).symm
  rw [exec_of_encode_wire32 hi, exec_readWord] at h
  exact leavesEffect_of_finish h fun _ _ hbody => .readWord (.inr wire) hbody

theorem roiLoadBody_fst (word : Word) (s : State) :
    (roiLoadBody word s).1 = s ∨ (roiLoadBody word s).1 = roiStore word (roiLayout s.cfg s.kind) s := by
  unfold roiLoadBody
  split_ifs
  · exact .inl rfl
  · exact .inl rfl
  · exact .inr rfl

/-- What an instruction leaves is its effect and its response. -/
theorem leavesEffect (h : exec i s = .next t) : LeavesEffect i s t := by
  cases i
  case clear => exact leavesEffect_of_complete h .clear
  case readBegin => exact leavesEffect_of_complete h .readBegin
  case setStreamed =>
    refine leavesEffect_of_noResult h fun u hbody => ?_
    obtain ⟨mode, rfl⟩ := setStreamedBody_ok_iff.mp hbody
    exact .setStreamed mode
  case unpackInit =>
    refine leavesEffect_of_noResult h fun u hbody => ?_
    obtain ⟨flushed, rfl⟩ := unpackInitBody_ok_iff.mp hbody
    exact .unpackInit flushed
  case setKind code =>
    refine leavesEffect_of_noResult h fun u hbody => ?_
    unfold setKindBody at hbody
    split at hbody
    · cases hbody
    · cases hbody
      exact .setKind code _
  case pack => exact leavesEffect_of_noResult h fun _ => .pack
  case packFlush => exact leavesEffect_of_noResult h fun _ => .packFlush
  case unpack => exact leavesEffect_of_finish h fun _ _ => .unpack
  case packNeutral => exact leavesEffect_of_noResult h fun _ => .packNeutral
  case packNeutralParity => exact leavesEffect_of_noResult h fun _ => .packNeutralParity
  case unpackNeutral => exact leavesEffect_of_finish h fun _ _ => .unpackNeutral
  case unpackNeutralParityError => exact leavesEffect_of_finish h fun _ _ => .unpackNeutralParityError
  case hdrSet field value =>
    refine leavesEffect_of_noResult h fun u hbody => ?_
    obtain ⟨lo, width, -, rfl⟩ := hdrSetBody_ok_iff.mp hbody
    exact .hdrSet field value _
  case hdrGet => exact leavesEffect_of_query h fun _ _ hbody => (hdrGetBody_ok_iff.mp hbody).1
  case hdrWord => exact leavesEffect_of_query h fun _ _ hbody => (hdrWordBody_ok_iff.mp hbody).2.1
  case hdrLoad word =>
    refine leavesEffect_of_noResult h fun u hbody => ?_
    obtain ⟨-, rfl⟩ := hdrLoadBody_ok_iff.mp hbody
    exact .hdrLoad word
  case stSet value => exact leavesEffect_of_complete h (.stSet value)
  case stGet => exact leavesEffect_of_query h fun _ _ hbody => (stGetBody_ok_iff.mp hbody).1
  case stLoad word =>
    refine leavesEffect_of_noResult h fun u hbody => ?_
    obtain ⟨status, rfl⟩ := stLoadBody_ok_iff.mp hbody
    exact .stLoad status
  case write =>
    refine leavesEffect_of_finish h fun u r hbody => ?_
    obtain ⟨-, -, rfl, -⟩ := writeBody_ok_iff.mp hbody
    exact .write
  case readWord => exact leavesEffect_of_finish h fun _ _ => .readWord (.inl rfl)
  case fieldSet fid slice index value => exact leavesEffect_of_complete h (.fieldSet fid slice index value)
  case mpack => exact leavesEffect_of_finish h fun _ _ => .mpack
  case munpack => exact leavesEffect_of_finish h fun _ _ => .munpack
  case roiLoad word =>
    refine leavesEffect_of_complete h ?_
    obtain same | stored := roiLoadBody_fst word s
    · rw [same]; exact .nothing _
    · rw [stored]; exact .roiLoad word
  case wordHeaderC | wordHeaderE | wordHeaderF | wordStatus | wordData00 | wordData01 | wordData10 =>
    exact leavesEffect_of_wire rfl h
  all_goals exact leavesEffect_of_complete h (.nothing _)

end

/-! ## The invariants, piece by piece (10_state.md R40) -/

section

variable {s t : State} (h : s.Inv)

include h

/-- The registers that no invariant speaks of. -/
theorem State.Inv.of_frame
    (frame : t = { s with ok := t.ok, hdr := t.hdr, kind := t.kind, out := t.out, rd := t.rd, resp := t.resp,
                          port := t.port, free := t.free }) : t.Inv := by
  rw [frame]
  exact { h with }

theorem State.Inv.setField (fid slice index : Slot) (v : Word) : (s.setField fid slice index v).Inv :=
  { h with fields_wf := setField_wf h.fields_wf fid slice index v }

theorem State.Inv.setTrailer {w : Word} (status : w = 0 ∨ wordtype w = .status) : { s with trl := w }.Inv :=
  { h with trl_status := status }

/-- More words in the payload, whatever they are. -/
theorem State.Inv.grow {p : List Word} (long : s.payload.length ≤ p.length) (room : fits s.cfg p.length = true) :
    { s with payload := p }.Inv :=
  { h with
    rpos_le := h.rpos_le.trans long
    rbit_end := fun e => h.rbit_end (by have := h.rpos_le; have e : s.rpos = p.length := e; omega)
    cursor_le := fun q hq => (h.cursor_le q hq).trans long
    fits_max := room }

/-- Outside the serial family the accumulator is empty. -/
theorem State.Inv.setStreamed (mode : s.pmode ≠ .serial) : { s with streamed := true }.Inv := by
  obtain ⟨wcur, rbit⟩ := h.not_serial mode
  exact { h with
    wcur_lt := wcur.trans_lt (maxbits_pos _)
    rbit_lt := rbit.trans_lt (maxbits_pos _) }

theorem State.Inv.unpackStart (flushed : s.wcur = 0) : (unpackStart s).Inv := by
  have acc : s.acc = 0 := by
    have := h.acc_lt
    rw [flushed] at this
    exact BitVec.eq_of_toNat_eq (by simpa using this)
  exact { h with
    rpos_le := Nat.zero_le _
    rbit_lt := maxbits_pos _
    rbit_end := fun _ => rfl
    cursor_le := fun q _ => (State.cursor_resetLanes s q).trans_le (Nat.zero_le _)
    unpack_flushed := fun _ => ⟨flushed, acc⟩
    not_serial := fun _ => ⟨flushed, rfl⟩
    not_neutral := fun _ q => ⟨State.cursor_resetLanes s q, State.parity_resetLanes s q⟩ }

/-- What the serial packing commands leave. -/
theorem State.Inv.packSerial (pass : s.pass = .pack) (mode : s.pmode ≠ .neutral) {p : List Word} {acc : Word} {wcur : Nat}
    (long : s.payload.length ≤ p.length) (room : fits s.cfg p.length = true) (hw : wcur < maxbits s.streamed)
    (hacc : acc.toNat < 2 ^ wcur) : { s with payload := p, acc := acc, wcur := wcur, pmode := .serial }.Inv :=
  { h.grow long room with
    wcur_lt := hw
    acc_lt := hacc
    unpack_flushed := fun e => by cases pass.symm.trans e
    not_serial := fun ne => absurd rfl ne
    not_neutral := fun _ => h.not_neutral mode }

/-- What the serial unpacking command leaves. -/
theorem State.Inv.unpackSerial (mode : s.pmode ≠ .neutral) {rpos rbit : Nat} (hb : rbit < maxbits s.streamed)
    (position : rpos * maxbits s.streamed + rbit ≤ streamBits s) (ok : Bool) (free : Nat) :
    { s with rpos := rpos, rbit := rbit, ok := ok, pmode := .serial, free := free }.Inv := by
  have hpos := maxbits_pos s.streamed
  have le : rpos ≤ s.payload.length := by
    refine Nat.le_of_mul_le_mul_right (?_ : _ ≤ s.payload.length * maxbits s.streamed) hpos
    exact (Nat.le_add_right ..).trans position
  exact { h with
    rpos_le := le
    rbit_lt := hb
    rbit_end := fun e => by
      have e : rpos = s.payload.length := e
      rw [e] at position
      exact Nat.le_zero.mp (Nat.le_of_add_le_add_left (position.trans_eq (Nat.add_zero _).symm))
    not_serial := fun ne => absurd rfl ne
    not_neutral := fun _ => h.not_neutral mode }

/-- What the neutral commands leave. -/
theorem State.Inv.neutral (mode : s.pmode ≠ .serial) {p : List Word} (long : s.payload.length ≤ p.length)
    (room : fits s.cfg p.length = true) (pincur : Vector Nat 32) (par : Vector Bool 32) (ok : Bool) (free : Nat)
    (cursor : ∀ q < maxPins s.cfg, pincur[q]?.getD 0 ≤ p.length) :
    { s with payload := p, pincur := pincur, par := par, ok := ok, pmode := .neutral, free := free }.Inv :=
  { h.grow long room with
    cursor_le := cursor
    not_serial := fun _ => h.not_serial mode
    not_neutral := fun ne => absurd rfl ne }

end

theorem clearState_inv (s : State) : (clearState s).Inv where
  wcur_lt := maxbits_pos _
  acc_lt := Nat.zero_lt_one
  rpos_le := le_rfl
  rbit_lt := maxbits_pos _
  rbit_end _ := rfl
  cursor_le q _ := (clearState_cursor s q).le
  fits_max := by
    show fits s.cfg 0 = true
    cases hmax : s.cfg.payloadMax <;> simp [fits, hmax]
  unpack_flushed := nofun
  not_serial _ := ⟨rfl, rfl⟩
  not_neutral _ q := ⟨clearState_cursor s q, clearState_parity s q⟩
  trl_status := .inl rfl
  fields_wf := reset_fields_wf

end Sys2Proof.Machine

/-! Every body keeps the invariants of 10_state.md R40, and so does every step. -/

namespace Sys2Proof.Machine

open Sys2Proof Sys2Proof.Spec

/-! ## The serial bodies keep the invariants -/

section

variable {s t : State} (h : s.Inv)

include h

theorem State.Inv.packReady (pass : s.pass = .pack) (mode : s.pmode ≠ .neutral) : PackReady s :=
  ⟨pass, mode, h.wcur_lt, h.acc_lt, h.fits_max⟩

/-- The read position lies within the bitstream (10_state.md R40 (c)). -/
theorem State.Inv.position_le : readPosition s ≤ streamBits s := by
  have lt := h.rbit_lt
  obtain inside | ended := Nat.lt_or_eq_of_le h.rpos_le
  · have : (s.rpos + 1) * maxbits s.streamed ≤ streamBits s := Nat.mul_le_mul_right _ inside
    rw [Nat.succ_mul] at this
    rw [readPosition]
    omega
  · rw [readPosition, ended, h.rbit_end ended]
    exact le_rfl

theorem State.Inv.unpackReady (pass : s.pass = .unpack) (mode : s.pmode ≠ .neutral) : UnpackReady s :=
  ⟨pass, mode, h.rbit_lt, h.position_le⟩

theorem State.Inv.packBody {value : Word} {nbits : Nat} (body : packBody value nbits s = .ok t) : t.Inv := by
  obtain ⟨hn, pass, mode, step⟩ := packBody_ok body
  have after := packBody_packs (h.packReady pass mode) value hn
  rw [body] at after
  obtain ⟨frame, grown⟩ := packStep_frame step
  have long : s.payload.length ≤ t.payload.length := by
    obtain ⟨same, _⟩ | ⟨_, _, more⟩ := grown
    · rw [same]
    · rw [more, List.length_append]
      exact Nat.le_add_right ..
  have room : fits s.cfg t.payload.length = true := after.cfg_eq ▸ after.ready.fits_max
  rw [frame]
  exact h.packSerial pass mode long room (after.streamed_eq ▸ after.ready.wcur_lt) after.ready.acc_lt

theorem State.Inv.packFlushBody (body : packFlushBody s = .ok t) : t.Inv := by
  obtain ⟨pass, mode, ⟨_, rfl⟩ | ⟨_, room, rfl⟩⟩ := packFlushBody_ok body
  · exact h.packSerial pass mode le_rfl h.fits_max h.wcur_lt h.acc_lt
  · exact h.packSerial pass mode (by simp) (by simpa using room) (maxbits_pos _) Nat.zero_lt_one

theorem State.Inv.unpackBody {nbits : Nat} {r : Word} (body : unpackBody nbits s = .ok (t, r)) : t.Inv := by
  obtain ⟨hn, pass, mode, _⟩ := unpackBody_ok body
  obtain ⟨t', r', body', read⟩ := unpackBody_reads (h.unpackReady pass mode) hn
  cases body.symm.trans body'
  have streamed : t.streamed = s.streamed := by rw [read.frame]
  have payload : t.payload = s.payload := by rw [read.frame]
  have position := read.ready.position_le
  rw [readPosition, streamBits, streamed, payload] at position
  rw [read.frame]
  exact h.unpackSerial mode (streamed ▸ read.ready.rbit_lt) position _ _

end

/-! ## The neutral bodies keep the invariants -/

section

variable {s t : State} (h : s.Inv)

include h

/-- A pack of a lane within the room that there is. -/
theorem State.Inv.packedLane {pin nbits : Nat} (mode : s.pmode ≠ .serial) (hpin : pin < maxPins s.cfg)
    (room : fits s.cfg (s.cursor pin + nbits) = true) (value : Word) (parity : Bool) :
    (packedLane s pin value nbits parity).Inv := by
  have length := length_packedColumn s pin value nbits
  refine h.neutral mode (by omega) ?_ _ _ s.ok s.free fun q hq => ?_
  · rw [length]
    obtain e | e := max_choice s.payload.length (s.cursor pin + nbits) <;> rw [e]
    · exact h.fits_max
    · exact room
  · have le := h.cursor_le q hq
    refine (State.cursor_moveLane (hpin.trans_le (maxPins_le _)) s nbits parity q).trans_le ?_
    rw [length]
    split_ifs with same
    · subst same; omega
    · omega

theorem State.Inv.packNeutralBody {pin nbits : Nat} {value : Word} (body : packNeutralBody pin value nbits s = .ok t) :
    t.Inv := by
  obtain ⟨hpin, hn, pass, mode, room, _⟩ := packNeutralBody_ok body
  rw [packNeutralBody_eq value hpin hn pass mode, if_pos room] at body
  cases body
  exact h.packedLane mode hpin room _ _

theorem State.Inv.packNeutralParityBody {pin : Nat} (body : packNeutralParityBody pin s = .ok t) : t.Inv := by
  obtain ⟨hpin, pass, mode, room, _⟩ := packNeutralParityBody_ok body
  rw [packNeutralParityBody_eq hpin pass mode, if_pos room] at body
  cases body
  exact h.packedLane mode hpin room _ _

/-- A read of a lane within the rows that there are. -/
theorem State.Inv.movedLane {pin nbits : Nat} (mode : s.pmode ≠ .serial) (hpin : pin < maxPins s.cfg)
    (hold : s.cursor pin + nbits ≤ s.payload.length) (parity : Bool) :
    ({ s with pmode := .neutral }.moveLane pin nbits parity).Inv := by
  refine h.neutral mode le_rfl h.fits_max _ _ s.ok s.free fun q hq => ?_
  have le := h.cursor_le q hq
  refine (State.cursor_moveLane (hpin.trans_le (maxPins_le _)) s nbits parity q).trans_le ?_
  split_ifs with same
  · subst same; exact hold
  · exact le

theorem State.Inv.unpackNeutralBody {pin nbits : Nat} {r : Word} (body : unpackNeutralBody pin nbits s = .ok (t, r)) :
    t.Inv := by
  obtain ⟨hpin, _, _, mode, ⟨_, rfl, _⟩ | ⟨_, _, _, rfl⟩ | ⟨_, hold, _, rfl⟩⟩ := unpackNeutralBody_ok body
  · exact h.neutral mode le_rfl h.fits_max _ _ _ _ h.cursor_le
  · exact h.neutral mode le_rfl h.fits_max _ _ _ _ h.cursor_le
  · exact h.movedLane mode hpin hold _

theorem State.Inv.unpackNeutralParityErrorBody {pin : Nat} {r : Word}
    (body : unpackNeutralParityErrorBody pin s = .ok (t, r)) : t.Inv := by
  obtain ⟨hpin, _, mode, ⟨_, _, rfl⟩ | ⟨hold, _, rfl⟩⟩ := unpackNeutralParityErrorBody_ok body
  · exact h.neutral mode le_rfl h.fits_max _ _ _ _ h.cursor_le
  · exact h.movedLane mode hpin hold _

end

/-! ## The trailer, the reader and the marshaller keep the invariants -/

/-- The trailer that ST_SET makes is 0 or a Status word (10_state.md R31). -/
theorem trailerOf_status (hdr value : Word) : trailerOf hdr value = 0 ∨ wordtype (trailerOf hdr value) = .status := by
  by_cases present : value &&& 0x0FC000DF = 0
  · exact .inl (trailerOf_of_no_error hdr present)
  · have nibble := bits_trailerOf_pattern hdr present (hi := 31) (lo := 28) (by decide) (by decide)
    right
    rw [wordtype_eq_of_topNibble, nibble]
    decide

section

variable {s t : State} (h : s.Inv)

include h

theorem State.Inv.readWordBody {word : Word} {r : Word} (body : readWordBody word s = .ok (t, r)) : t.Inv := by
  obtain ⟨_, _, rfl, _⟩ | ⟨_, _, room, rfl, _⟩ | ⟨_, status, rfl, _⟩ | ⟨_, _, rfl, _⟩ | ⟨_, rfl, _⟩ := readWordBody_ok body
  · exact h.of_frame rfl
  · exact h.grow (by simp) (by simpa using room)
  · exact (h.setTrailer (.inr status)).of_frame rfl
  · exact h.of_frame rfl
  · exact h

theorem State.Inv.roiStore (word : Word) (l : List RoiField) : (roiStore word l s).Inv := by
  induction l generalizing s with
  | nil => exact h
  | cons f rest ih => exact ih (h.setField ..)

/-- MPACK and MUNPACK of a serial layout walk it in the layout's mode, from a pass that has not begun. -/
theorem State.Inv.walkMode (mode : s.pmode = .none) (streamed : Bool) :
    (if streamed = true then { s with streamed := true } else s).Inv := by
  split
  · exact h.setStreamed (by rw [mode]; nofun)
  · exact h

theorem State.Inv.mpackBody {r : Word} (body : mpackBody s = .ok (t, r)) : t.Inv := by
  obtain ⟨_, _, mode, _, _, ⟨L, _, walk⟩ | ⟨L, _, walk⟩⟩ := mpackBody_ok body
  · unfold packUncompressed at walk
    split at walk
    · rename_i u items
      have hu : u.Inv := packItems_induction (P := State.Inv) (fun _ _ _ _ h => h.packBody) (h.walkMode mode _) items
      exact hu.packFlushBody walk
    · cases walk
  · unfold packNeutralLayout at walk
    split at walk
    · cases walk
    · exact packSlices_induction (P := State.Inv) (fun _ _ _ _ _ h => h.packNeutralBody)
        (fun _ _ _ h => h.packNeutralParityBody) h walk

theorem State.Inv.munpackBody {r : Word} (body : munpackBody s = .ok (t, r)) : t.Inv := by
  obtain ⟨_, flushed, _, u, start, walk⟩ := munpackBody_ok body
  obtain ⟨_, rfl⟩ := unpackInitBody_ok_iff.mp start
  have hu := h.unpackStart flushed
  obtain ⟨L, _, walk⟩ | ⟨L, _, walk⟩ := walk
  · exact unpackItems_induction (P := State.Inv) (fun _ _ _ _ h => h.unpackBody)
      (fun _ _ _ _ _ h => h.setField ..) (hu.walkMode rfl _) walk
  · unfold unpackNeutralLayout at walk
    split at walk
    · cases walk
    · exact unpackSlices_induction (P := State.Inv) (fun _ _ _ _ _ h => h.unpackNeutralBody)
        (fun _ _ _ _ h => h.unpackNeutralParityErrorBody) (fun _ _ _ _ _ h => h.setField ..) hu walk

/-- Every instruction keeps the invariants, whether it is accepted or refused. -/
theorem State.Inv.effect {i : Instr} (effect : Effect s i t) : t.Inv := by
  cases effect with
  | nothing => exact h
  | clear => exact clearState_inv s
  | readBegin => exact (clearState_inv s).of_frame rfl
  | setStreamed mode => exact h.setStreamed (by rw [mode]; nofun)
  | unpackInit flushed => exact h.unpackStart flushed
  | setKind | hdrSet | hdrLoad | write => exact h.of_frame rfl
  | pack body => exact h.packBody body
  | packFlush body => exact h.packFlushBody body
  | unpack body => exact h.unpackBody body
  | packNeutral body => exact h.packNeutralBody body
  | packNeutralParity body => exact h.packNeutralParityBody body
  | unpackNeutral body => exact h.unpackNeutralBody body
  | unpackNeutralParityError body => exact h.unpackNeutralParityErrorBody body
  | stSet value => exact h.setTrailer (trailerOf_status s.hdr value)
  | stLoad status => exact h.setTrailer (.inr status)
  | readWord _ body => exact h.readWordBody body
  | fieldSet => exact h.setField ..
  | mpack body => exact h.mpackBody body
  | munpack body => exact h.munpackBody body
  | roiLoad word => exact h.roiStore word _

theorem State.Inv.exec {i : Instr} (run : exec i s = .next t) : t.Inv := by
  obtain ⟨u, c, r, effect, rfl⟩ := leavesEffect run
  exact (h.effect effect).of_frame rfl

end

/-! ## Every step keeps the invariants -/

theorem applyReset_inv (s : State) : (applyReset s).Inv :=
  (clearState_inv { s with streamed := false }).of_frame rfl

/-- Settles O14: the reset state is one that the reset input leaves. -/
theorem resetHasTheInvariants : Obligations.ResetHasTheInvariants := by
  unfold Obligations.ResetHasTheInvariants
  intro c
  exact applyReset_inv { State.reset with cfg := c }

/-- Settles O13: reset and CLEAR establish the invariants, and what every other event does keeps them. -/
theorem everyStepKeepsTheInvariants : Obligations.EveryStepKeepsTheInvariants := by
  unfold Obligations.EveryStepKeepsTheInvariants
  intro s t h run
  have taken (rest : List PortEvent) : { s with port := rest }.Inv := h.of_frame rfl
  match hport : s.port with
  | [] =>
    cases (step_of_port_nil hport).symm.trans run
    exact h
  | .reset :: rest =>
    cases (step_of_port_reset hport).symm.trans run
    exact applyReset_inv _
  | .drain n :: rest =>
    cases (step_of_port_drain hport).symm.trans run
    exact h.of_frame rfl
  | .word c :: rest =>
    cases hc : decode c with
    | ok i => exact (taken rest).exec ((step_of_decode_ok hport hc).symm.trans run)
    | error e =>
      cases (step_of_decode_error hport hc).symm.trans run
      exact h.of_frame rfl

end Sys2Proof.Machine

/-! What the instructions leave unchanged: the registers have their writers (10_state.md), the payload only grows, no cursor
moves back inside a pass, and `ok` is sticky. -/

namespace Sys2Proof.Machine

open Sys2Proof Sys2Proof.Spec

/-! ## The registers of packing -/

/-- `t` is `s` but for the registers that packing writes. -/
def PackFrame (s t : State) : Prop :=
  t = { s with payload := t.payload, acc := t.acc, wcur := t.wcur, pincur := t.pincur, par := t.par, pmode := t.pmode }

theorem PackFrame.refl (s : State) : PackFrame s s := (rfl : s = s)

theorem PackFrame.trans {s t u : State} (h : PackFrame s t) (h' : PackFrame t u) : PackFrame s u := by
  unfold PackFrame at *
  rw [h', h]

theorem packBody_frame {s t : State} {value : Word} {n : Nat} (h : packBody value n s = .ok t) : PackFrame s t := by
  obtain ⟨_, _, _, step⟩ := packBody_ok h
  rw [PackFrame, (packStep_frame step).1]

theorem packFlushBody_frame {s t : State} (h : packFlushBody s = .ok t) : PackFrame s t := by
  obtain ⟨_, _, ⟨_, rfl⟩ | ⟨_, _, rfl⟩⟩ := packFlushBody_ok h <;> rfl

theorem packNeutralBody_frame {s t : State} {pin n : Nat} {value : Word} (h : packNeutralBody pin value n s = .ok t) :
    PackFrame s t := by
  obtain ⟨_, _, _, _, _, rfl⟩ := packNeutralBody_ok h
  rfl

theorem packNeutralParityBody_frame {s t : State} {pin : Nat} (h : packNeutralParityBody pin s = .ok t) : PackFrame s t := by
  obtain ⟨_, _, _, _, rfl⟩ := packNeutralParityBody_ok h
  rfl

/-- MPACK packs in a mode that leaves streamed mode to no block. -/
theorem mpackBody_frame {s t : State} {r : Word} (h : mpackBody s = .ok (t, r)) :
    ∃ streamed, (s.streamed = true → streamed = true) ∧ PackFrame (s.inMode streamed) t := by
  obtain ⟨_, _, _, _, _, ⟨L, choice, walk⟩ | ⟨L, _, walk⟩⟩ := mpackBody_ok h
  · have modes := (chooseLayout_ok choice).2.2 L rfl
    refine ⟨L.streamed, modes, ?_⟩
    rw [packUncompressed, inMode_eq modes] at walk
    split at walk
    · rename_i u items
      have hu : PackFrame (s.inMode L.streamed) u :=
        packItems_induction (fun _ _ _ _ hs hb => hs.trans (packBody_frame hb)) (.refl _) items
      exact hu.trans (packFlushBody_frame walk)
    · cases walk
  · refine ⟨s.streamed, id, ?_⟩
    unfold packNeutralLayout at walk
    split at walk
    · cases walk
    · exact packSlices_induction (P := PackFrame s) (fun _ _ _ _ _ hs hb => hs.trans (packNeutralBody_frame hb))
        (fun _ _ _ hs hb => hs.trans (packNeutralParityBody_frame hb)) (.refl s) walk

/-! ## The registers of unpacking -/

/-- `t` is `s` but for the registers that unpacking writes. -/
def UnpackFrame (s t : State) : Prop :=
  t = { s with rpos := t.rpos, rbit := t.rbit, ok := t.ok, pincur := t.pincur, par := t.par, pmode := t.pmode,
               free := t.free }

theorem UnpackFrame.refl (s : State) : UnpackFrame s s := (rfl : s = s)

theorem UnpackFrame.trans {s t u : State} (h : UnpackFrame s t) (h' : UnpackFrame t u) : UnpackFrame s u := by
  unfold UnpackFrame at *
  rw [h', h]

theorem unpackBody_unpackFrame {s t : State} {n : Nat} {r : Word} (h : unpackBody n s = .ok (t, r)) : UnpackFrame s t := by
  rw [UnpackFrame, unpackBody_frame h]

theorem unpackNeutralBody_frame {s t : State} {pin n : Nat} {r : Word} (h : unpackNeutralBody pin n s = .ok (t, r)) :
    UnpackFrame s t := by
  obtain ⟨_, _, _, _, ⟨_, rfl, _⟩ | ⟨_, _, _, rfl⟩ | ⟨_, _, _, rfl⟩⟩ := unpackNeutralBody_ok h <;> rfl

theorem unpackNeutralParityErrorBody_frame {s t : State} {pin : Nat} {r : Word}
    (h : unpackNeutralParityErrorBody pin s = .ok (t, r)) : UnpackFrame s t := by
  obtain ⟨_, _, _, ⟨_, _, rfl⟩ | ⟨_, _, rfl⟩⟩ := unpackNeutralParityErrorBody_ok h <;> rfl

/-- A walk that unpacks also writes the field store. -/
def FieldsUnpacked (s t : State) : Prop := UnpackFrame { s with fields := t.fields } t

theorem FieldsUnpacked.step {s t u : State} (h : FieldsUnpacked s t) (h' : UnpackFrame t u) : FieldsUnpacked s u := by
  unfold FieldsUnpacked UnpackFrame at *
  rw [h', h]

theorem FieldsUnpacked.setField {s t : State} (h : FieldsUnpacked s t) (fid slice index : Slot) (v : Word) :
    FieldsUnpacked s (t.setField fid slice index v) := by
  unfold FieldsUnpacked UnpackFrame at *
  rw [h]
  rfl

/-- MUNPACK unpacks from the start of a pass, in a mode that leaves streamed mode to no block. -/
theorem munpackBody_frame {s t : State} {r : Word} (h : munpackBody s = .ok (t, r)) :
    ∃ streamed, (s.streamed = true → streamed = true) ∧ FieldsUnpacked ((unpackStart s).inMode streamed) t := by
  obtain ⟨_, _, _, u, start, walk⟩ := munpackBody_ok h
  obtain rfl : u = unpackStart s := (unpackInitBody_ok_iff.mp start).2
  obtain ⟨L, choice, walk⟩ | ⟨L, _, walk⟩ := walk
  · have modes := (chooseLayout_ok choice).2.2 L rfl
    refine ⟨L.streamed, modes, ?_⟩
    rw [unpackUncompressed, inMode_eq (s := unpackStart s) modes] at walk
    exact unpackItems_induction (fun _ _ _ _ hs hb => hs.step (unpackBody_unpackFrame hb))
      (fun _ _ _ _ _ hs => hs.setField ..) (UnpackFrame.refl _) walk
  · refine ⟨s.streamed, id, ?_⟩
    unfold unpackNeutralLayout at walk
    split at walk
    · cases walk
    · exact unpackSlices_induction (P := FieldsUnpacked (unpackStart s))
        (fun _ _ _ _ _ hs hb => hs.step (unpackNeutralBody_frame hb))
        (fun _ _ _ _ hs hb => hs.step (unpackNeutralParityErrorBody_frame hb)) (fun _ _ _ _ _ hs => hs.setField ..) (UnpackFrame.refl _) walk

/-! ## The registers outside the payload have their writers -/

/-- Settles O16: the frame of each effect. -/
theorem registersHaveTheirWriters : Obligations.RegistersHaveTheirWriters := by
  unfold Obligations.RegistersHaveTheirWriters
  intro i s t run
  obtain ⟨u, c, r, effect, rfl⟩ := leavesEffect run
  cases effect with
  | nothing | clear | readBegin | setStreamed | unpackInit | setKind | hdrSet | hdrLoad | stSet | stLoad | write |
      fieldSet => simp [clearState, unpackStart, State.setField]
  | pack body => rw [packBody_frame body]; simp
  | packFlush body => rw [packFlushBody_frame body]; simp
  | packNeutral body => rw [packNeutralBody_frame body]; simp
  | packNeutralParity body => rw [packNeutralParityBody_frame body]; simp
  | unpack body => rw [unpackBody_unpackFrame body]; simp
  | unpackNeutral body => rw [unpackNeutralBody_frame body]; simp
  | unpackNeutralParityError body => rw [unpackNeutralParityErrorBody_frame body]; simp
  | roiLoad word => rw [roiStore_frame]; simp
  | mpack body =>
    obtain ⟨streamed, modes, frame⟩ := mpackBody_frame body
    rw [frame]
    simpa [State.inMode] using modes
  | munpack body =>
    obtain ⟨streamed, modes, frame⟩ := munpackBody_frame body
    rw [frame]
    simpa [State.inMode, unpackStart] using modes
  | readWord reader body =>
    have writer : (∃ w, i = .readWord w) ∨ ∃ w, i = decodeWire w := reader.imp (⟨_, ·⟩) (⟨_, ·⟩)
    obtain ⟨_, _, rfl, _⟩ | ⟨_, _, _, rfl, _⟩ | ⟨_, _, rfl, _⟩ | ⟨_, _, rfl, _⟩ | ⟨_, rfl, _⟩ := readWordBody_ok body
    all_goals simp [writer]

end Sys2Proof.Machine

/-! The payload only grows, and no cursor moves back inside a pass (20_memory.md R60, 10_state.md R38). -/

namespace Sys2Proof.Machine

open Sys2Proof Sys2Proof.Spec

/-! ## The payload only grows (20_memory.md R60; 41_neutral.md R170) -/

/-- No row of `p` goes, and no bit of one changes but in column `pin`. -/
def RowsKept (pin : Option Nat) (p q : List Word) : Prop :=
  p.length ≤ q.length ∧ ∀ row < p.length, ∀ col < 32, pin ≠ some col → laneBit q col row = laneBit p col row

theorem RowsKept.refl (pin : Option Nat) (p : List Word) : RowsKept pin p p := ⟨le_rfl, fun _ _ _ _ _ => rfl⟩

theorem RowsKept.of_nil (pin : Option Nat) (q : List Word) : RowsKept pin [] q :=
  ⟨Nat.zero_le _, fun _ h => absurd h (Nat.not_lt_zero _)⟩

theorem RowsKept.append (pin : Option Nat) (p q : List Word) : RowsKept pin p (p ++ q) :=
  ⟨by simp, fun row h col _ _ => laneBit_append p q col row h⟩

theorem rowsKept_packedColumn {pin : Nat} (hp : pin < 32) (s : State) (value : Word) (nbits : Nat) :
    RowsKept (some pin) s.payload (packedColumn s pin value nbits) := by
  have length := length_packedColumn s pin value nbits
  refine ⟨by omega, fun row hrow col _ other => ?_⟩
  rw [laneBit_packedColumn hp s value nbits (by omega), if_neg fun same => other (congrArg some same.1.symm), if_pos hrow]

/-- Settles O17: words are appended, and bits are written in one column. -/
theorem payloadOnlyGrows : Obligations.PayloadOnlyGrows := by
  unfold Obligations.PayloadOnlyGrows
  intro i s t run notClear notBegin
  obtain ⟨u, c, r, effect, rfl⟩ := leavesEffect run
  show RowsKept ((pinOf i).map BitVec.toNat) s.payload u.payload
  have pins {pin : Slot} (h : pin.toNat < maxPins s.cfg) : pin.toNat < 32 := h.trans_le (maxPins_le _)
  cases effect with
  | nothing | setStreamed | unpackInit | setKind | hdrSet | hdrLoad | stSet | stLoad | write | fieldSet => exact .refl ..
  | clear => exact absurd rfl notClear
  | readBegin => exact absurd rfl notBegin
  | pack body =>
    obtain ⟨_, _, _, step⟩ := packBody_ok body
    obtain ⟨same, _⟩ | ⟨_, _, more⟩ := (packStep_frame step).2
    · rw [same]; exact .refl ..
    · rw [more]; exact .append ..
  | packFlush body =>
    obtain ⟨_, _, ⟨_, rfl⟩ | ⟨_, _, rfl⟩⟩ := packFlushBody_ok body
    · exact .refl ..
    · exact .append ..
  | packNeutral body =>
    obtain ⟨hpin, _, _, _, _, rfl⟩ := packNeutralBody_ok body
    exact rowsKept_packedColumn (pins hpin) s _ _
  | packNeutralParity body =>
    obtain ⟨hpin, _, _, _, rfl⟩ := packNeutralParityBody_ok body
    exact rowsKept_packedColumn (pins hpin) s _ _
  | unpack body => rw [unpackBody_unpackFrame body]; exact .refl ..
  | unpackNeutral body => rw [unpackNeutralBody_frame body]; exact .refl ..
  | unpackNeutralParityError body => rw [unpackNeutralParityErrorBody_frame body]; exact .refl ..
  | readWord _ body =>
    obtain ⟨_, _, rfl, _⟩ | ⟨_, _, _, rfl, _⟩ | ⟨_, _, rfl, _⟩ | ⟨_, _, rfl, _⟩ | ⟨_, rfl, _⟩ := readWordBody_ok body
    case inr.inl => exact .append ..
    all_goals exact .refl ..
  | mpack body =>
    obtain ⟨_, _, _, empty, _⟩ := mpackBody_ok body
    rw [empty]
    exact .of_nil ..
  | munpack body =>
    obtain ⟨_, _, frame⟩ := munpackBody_frame body
    rw [frame]
    exact .refl ..
  | roiLoad word => rw [roiStore_frame]; exact .refl ..

/-! ## No cursor moves back (10_state.md R38) -/

/-- Every lane cursor stands at or after where it stood, and so do the read and the write position while the word width
stays. -/
structure CursorsForward (s t : State) : Prop where
  cursor : ∀ p, s.cursor p ≤ t.cursor p
  read : t.streamed = s.streamed → readPosition s ≤ readPosition t
  written : t.streamed = s.streamed → packPosition s ≤ packPosition t

theorem CursorsForward.refl (s : State) : CursorsForward s s := ⟨fun _ => le_rfl, fun _ => le_rfl, fun _ => le_rfl⟩

section

variable {s t : State}

theorem cursorsForward_packBody (h : s.Inv) {value : Word} {n : Nat} (body : packBody value n s = .ok t) :
    CursorsForward s t := by
  obtain ⟨hn, pass, mode, step⟩ := packBody_ok body
  have after := packBody_packs (h.packReady pass mode) value hn
  rw [body] at after
  refine ⟨fun p => ?_, fun _ => ?_, fun _ => ?_⟩
  · rw [after.frame]; exact le_rfl
  · rw [after.frame]; exact le_rfl
  · rw [after.position]; exact Nat.le_add_right ..

theorem cursorsForward_packFlushBody (h : s.Inv) (body : packFlushBody s = .ok t) : CursorsForward s t := by
  obtain ⟨_, _, ⟨_, rfl⟩ | ⟨_, _, rfl⟩⟩ := packFlushBody_ok body
  · exact ⟨fun _ => le_rfl, fun _ => le_rfl, fun _ => le_rfl⟩
  · refine ⟨fun _ => le_rfl, fun _ => le_rfl, fun _ => ?_⟩
    have := h.wcur_lt
    simp only [packPosition, List.length_append, List.length_singleton, Nat.succ_mul]
    omega

theorem cursorsForward_unpackBody (h : s.Inv) {n : Nat} {r : Word} (body : unpackBody n s = .ok (t, r)) :
    CursorsForward s t := by
  obtain ⟨hn, pass, mode, _⟩ := unpackBody_ok body
  obtain ⟨t', r', body', read⟩ := unpackBody_reads (h.unpackReady pass mode) hn
  cases body.symm.trans body'
  have within := h.position_le
  refine ⟨fun p => ?_, fun _ => ?_, fun _ => ?_⟩
  · rw [read.frame]; exact le_rfl
  · rw [read.position, endOfRead]
    split <;> omega
  · rw [read.frame]; exact le_rfl

/-- A step of a lane moves its cursor on and no other. -/
theorem le_cursor_moveLane {pin : Nat} (hpin : pin < maxPins s.cfg) (n : Nat) (parity : Bool) (q : Nat) :
    s.cursor q ≤ (s.moveLane pin n parity).cursor q := by
  rw [State.cursor_moveLane (hpin.trans_le (maxPins_le _))]
  split <;> omega

/-- A pack of a lane makes the payload longer or leaves it. -/
theorem cursorsForward_packedLane {pin : Nat} (hpin : pin < maxPins s.cfg) (value : Word) (n : Nat) (parity : Bool) :
    CursorsForward s (packedLane s pin value n parity) := by
  refine ⟨le_cursor_moveLane hpin n parity, fun _ => le_rfl, fun _ => ?_⟩
  have long : s.payload.length ≤ (packedLane s pin value n parity).payload.length := by
    rw [packedLane, length_packedColumn]
    exact le_max_left ..
  exact Nat.add_le_add_right (Nat.mul_le_mul_right _ long) _

theorem cursorsForward_packNeutralBody {pin n : Nat} {value : Word} (body : packNeutralBody pin value n s = .ok t) :
    CursorsForward s t := by
  obtain ⟨hpin, hn, pass, mode, room, _⟩ := packNeutralBody_ok body
  rw [packNeutralBody_eq value hpin hn pass mode, if_pos room] at body
  cases body
  exact cursorsForward_packedLane hpin ..

theorem cursorsForward_packNeutralParityBody {pin : Nat} (body : packNeutralParityBody pin s = .ok t) :
    CursorsForward s t := by
  obtain ⟨hpin, pass, mode, room, _⟩ := packNeutralParityBody_ok body
  rw [packNeutralParityBody_eq hpin pass mode, if_pos room] at body
  cases body
  exact cursorsForward_packedLane hpin ..

theorem cursorsForward_unpackNeutralBody {pin n : Nat} {r : Word} (body : unpackNeutralBody pin n s = .ok (t, r)) :
    CursorsForward s t := by
  obtain ⟨hpin, _, _, _, ⟨_, rfl, _⟩ | ⟨_, _, _, rfl⟩ | ⟨_, _, _, rfl⟩⟩ := unpackNeutralBody_ok body
  · exact ⟨fun _ => le_rfl, fun _ => le_rfl, fun _ => le_rfl⟩
  · exact ⟨fun _ => le_rfl, fun _ => le_rfl, fun _ => le_rfl⟩
  · exact ⟨le_cursor_moveLane hpin n true, fun _ => le_rfl, fun _ => le_rfl⟩

theorem cursorsForward_unpackNeutralParityErrorBody {pin : Nat} {r : Word}
    (body : unpackNeutralParityErrorBody pin s = .ok (t, r)) : CursorsForward s t := by
  obtain ⟨hpin, _, _, ⟨_, _, rfl⟩ | ⟨_, _, rfl⟩⟩ := unpackNeutralParityErrorBody_ok body
  · exact ⟨fun _ => le_rfl, fun _ => le_rfl, fun _ => le_rfl⟩
  · exact ⟨le_cursor_moveLane hpin 1 true, fun _ => le_rfl, fun _ => le_rfl⟩

/-- MPACK starts with every packing cursor at the beginning. -/
theorem cursorsForward_mpackBody (h : s.Inv) {r : Word} (body : mpackBody s = .ok (t, r)) : CursorsForward s t := by
  obtain ⟨_, _, mode, empty, _⟩ := mpackBody_ok body
  obtain ⟨_, _, frame⟩ := mpackBody_frame body
  have lanes := h.not_neutral (by rw [mode]; nofun)
  have wcur := (h.not_serial (by rw [mode]; nofun)).1
  refine ⟨fun p => by rw [(lanes p).1]; exact Nat.zero_le _, fun same => ?_, fun _ => ?_⟩
  · have rpos : t.rpos = s.rpos := by rw [frame]; rfl
    have rbit : t.rbit = s.rbit := by rw [frame]; rfl
    rw [readPosition, readPosition, rpos, rbit, same]
  · rw [packPosition, empty, wcur, List.length_nil, Nat.zero_mul]
    exact Nat.zero_le _

/-- Whatever does not start a pass moves no cursor back. -/
theorem cursorsForward_effect (h : s.Inv) {i : Instr} (effect : Effect s i t) (clear : i ≠ .clear)
    (readBegin : i ≠ .readBegin) (unpackInit : i ≠ .unpackInit) (munpack : i ≠ .munpack) : CursorsForward s t := by
  cases effect with
  | clear => exact absurd rfl clear
  | readBegin => exact absurd rfl readBegin
  | unpackInit => exact absurd rfl unpackInit
  | munpack => exact absurd rfl munpack
  | nothing | setKind | hdrSet | hdrLoad | stSet | stLoad | write | fieldSet =>
    exact ⟨fun _ => le_rfl, fun _ => le_rfl, fun _ => le_rfl⟩
  | setStreamed =>
    refine ⟨fun _ => le_rfl, fun same => ?_, fun same => ?_⟩
    · rw [readPosition, readPosition, same]
    · rw [packPosition, packPosition, same]
  | pack body => exact cursorsForward_packBody h body
  | packFlush body => exact cursorsForward_packFlushBody h body
  | unpack body => exact cursorsForward_unpackBody h body
  | packNeutral body => exact cursorsForward_packNeutralBody body
  | packNeutralParity body => exact cursorsForward_packNeutralParityBody body
  | unpackNeutral body => exact cursorsForward_unpackNeutralBody body
  | unpackNeutralParityError body => exact cursorsForward_unpackNeutralParityErrorBody body
  | readWord _ body =>
    obtain ⟨_, _, rfl, _⟩ | ⟨_, _, _, rfl, _⟩ | ⟨_, _, rfl, _⟩ | ⟨_, _, rfl, _⟩ | ⟨_, rfl, _⟩ := readWordBody_ok body
    case inr.inl =>
      refine ⟨fun _ => le_rfl, fun _ => le_rfl, fun _ => ?_⟩
      exact Nat.add_le_add_right (Nat.mul_le_mul_right _ (by simp)) _
    all_goals exact ⟨fun _ => le_rfl, fun _ => le_rfl, fun _ => le_rfl⟩
  | mpack body => exact cursorsForward_mpackBody h body
  | roiLoad word => rw [roiStore_frame]; exact ⟨fun _ => le_rfl, fun _ => le_rfl, fun _ => le_rfl⟩

end

/-- Settles O18, effect by effect. -/
theorem cursorsNeverMoveBack : Obligations.CursorsNeverMoveBack := by
  unfold Obligations.CursorsNeverMoveBack
  intro i s t h run clear readBegin unpackInit munpack
  obtain ⟨u, c, r, effect, rfl⟩ := leavesEffect run
  have forward := cursorsForward_effect h effect clear readBegin unpackInit munpack
  exact ⟨forward.cursor, fun same => ⟨forward.read same, forward.written same⟩⟩

end Sys2Proof.Machine

/-! `ok` is sticky: who sets it, and what it takes to clear it (10_state.md R27, 60_exceptions.md R308). -/

namespace Sys2Proof.Machine

open Sys2Proof Sys2Proof.Spec

/-! ## Unpacking does not read the field store -/

/-- `s` with an empty field store. -/
def State.forgetFields (s : State) : State := { s with fields := [] }

theorem unpackBody_forgetFields (n : Nat) (s : State) :
    unpackBody n s.forgetFields = (unpackBody n s).map fun x => (x.1.forgetFields, x.2) := by
  have width : serialWidthOk s.forgetFields n = serialWidthOk s n := rfl
  have may : maySerialUnpack s.forgetFields = maySerialUnpack s := rfl
  have bits : availableBits { s.forgetFields with pmode := .serial } = availableBits { s with pmode := .serial } := rfl
  have draw : unpackDraw n { s.forgetFields with pmode := .serial } =
      ((unpackDraw n { s with pmode := .serial }).1.forgetFields, (unpackDraw n { s with pmode := .serial }).2) := by
    unfold unpackDraw State.forgetFields
    dsimp only
    split_ifs <;> rfl
  simp only [unpackBody, width, may, bits, draw]
  split_ifs <;> rfl

theorem unpackNeutralBody_forgetFields (pin n : Nat) (s : State) :
    unpackNeutralBody pin n s.forgetFields = (unpackNeutralBody pin n s).map fun x => (x.1.forgetFields, x.2) := by
  have operands : pinOk s.forgetFields pin = pinOk s pin := rfl
  have may : mayNeutralUnpack s.forgetFields = mayNeutralUnpack s := rfl
  have cursor : s.forgetFields.cursor pin = s.cursor pin := rfl
  have payload : s.forgetFields.payload = s.payload := rfl
  simp only [unpackNeutralBody, operands, may, cursor, payload]
  split_ifs <;> rfl

theorem unpackNeutralParityErrorBody_forgetFields (pin : Nat) (s : State) :
    unpackNeutralParityErrorBody pin s.forgetFields =
      (unpackNeutralParityErrorBody pin s).map fun x => (x.1.forgetFields, x.2) := by
  have operands : pinOk s.forgetFields pin = pinOk s pin := rfl
  have may : mayNeutralUnpack s.forgetFields = mayNeutralUnpack s := rfl
  have cursor : s.forgetFields.cursor pin = s.cursor pin := rfl
  have payload : s.forgetFields.payload = s.payload := rfl
  simp only [unpackNeutralParityErrorBody, operands, may, cursor, payload]
  split_ifs <;> rfl

/-- Whatever the field store holds, the walk ends in the same way, but for the field store. -/
def BlindToFields (walk : State → Except Status State) : Prop :=
  ∀ s s' : State, s.forgetFields = s'.forgetFields → (walk s).map State.forgetFields = (walk s').map State.forgetFields

theorem BlindToFields.done : BlindToFields .ok := fun _ _ h => congrArg Except.ok h

theorem BlindToFields.bind {walk next : State → Except Status State} (h : BlindToFields walk) (h' : BlindToFields next) :
    BlindToFields fun s => (walk s).bind next := by
  intro s s' same
  have first := h s s' same
  dsimp only
  cases hs : walk s with
  | error e =>
    cases hs' : walk s' with
    | error e' => rw [hs, hs'] at first; cases first; rfl
    | ok t' => rw [hs, hs'] at first; cases first
  | ok t =>
    cases hs' : walk s' with
    | error e' => rw [hs, hs'] at first; cases first
    | ok t' => rw [hs, hs'] at first; exact h' t t' (Except.ok.inj first)

/-- A command whose result is stored. -/
def thenStore (body : State → Except Status (State × Word)) (k : Slot × Slot × Slot) (s : State) : Except Status State :=
  (body s).map fun x => x.1.setField k.1 k.2.1 k.2.2 x.2

theorem blindToFields_thenStore {body : State → Except Status (State × Word)}
    (h : ∀ s, body s.forgetFields = (body s).map fun x => (x.1.forgetFields, x.2)) (k : Slot × Slot × Slot) :
    BlindToFields (thenStore body k) := by
  have forget (s : State) : (thenStore body k s).map State.forgetFields = (body s.forgetFields).map Prod.fst := by
    rw [h, thenStore]
    cases body s <;> rfl
  intro s s' same
  rw [forget, forget, same]

theorem unpackItems_cons (it : SerialItem) (rest : List SerialItem) (s : State) :
    unpackItems (it :: rest) s = (thenStore (unpackBody it.width) (serialKey it) s).bind (unpackItems rest) := by
  simp only [unpackItems, thenStore, serialKey]
  cases unpackBody it.width s <;> rfl

theorem unpackNeutralItems_cons (slice : Slot) (it : NeutralItem) (rest : List NeutralItem) (s : State) :
    unpackNeutralItems slice (it :: rest) s =
      (thenStore (unpackNeutralBody it.pin it.width) (neutralKey slice it) s).bind (unpackNeutralItems slice rest) := by
  simp only [unpackNeutralItems, thenStore, neutralKey]
  cases unpackNeutralBody it.pin it.width s <;> rfl

theorem unpackParities_cons (slice : Slot) (pin : Nat) (rest : List Nat) (s : State) :
    unpackParities slice (pin :: rest) s =
      (thenStore (unpackNeutralParityErrorBody pin) (parityKey slice pin) s).bind (unpackParities slice rest) := by
  simp only [unpackParities, thenStore, parityKey]
  cases unpackNeutralParityErrorBody pin s <;> rfl

theorem blindToFields_unpackItems : ∀ items, BlindToFields (unpackItems items)
  | [] => .done
  | it :: rest => by
    rw [funext (unpackItems_cons it rest)]
    exact (blindToFields_thenStore (unpackBody_forgetFields _) _).bind (blindToFields_unpackItems rest)

theorem blindToFields_unpackNeutralItems (slice : Slot) : ∀ items, BlindToFields (unpackNeutralItems slice items)
  | [] => .done
  | it :: rest => by
    rw [funext (unpackNeutralItems_cons slice it rest)]
    exact (blindToFields_thenStore (unpackNeutralBody_forgetFields _ _) _).bind (blindToFields_unpackNeutralItems slice rest)

theorem blindToFields_unpackParities (slice : Slot) : ∀ pins, BlindToFields (unpackParities slice pins)
  | [] => .done
  | pin :: rest => by
    rw [funext (unpackParities_cons slice pin rest)]
    exact (blindToFields_thenStore (unpackNeutralParityErrorBody_forgetFields _) _).bind (blindToFields_unpackParities slice rest)

theorem blindToFields_unpackSlices (L : NeutralLayout) : ∀ count first, BlindToFields (unpackSlices L first count)
  | 0, _ => .done
  | count + 1, first => by
    rw [funext (unpackSlices_succ L first count)]
    exact ((blindToFields_unpackNeutralItems _ _).bind (blindToFields_unpackParities _ _)).bind
      (blindToFields_unpackSlices L count (first + 1))

/-- MUNPACK's walk over its layout is one walk for all field stores. -/
theorem blindToFields_unpackLayout : ∀ L, BlindToFields (unpackLayout L)
  | .serial L => by
    intro s s' same
    refine blindToFields_unpackItems L.items _ _ ?_
    split
    · exact congrArg (fun t : State => { t with streamed := true }) same
    · exact same
  | .neutral L => by
    intro s s' same
    have slices : timeslicesOf s = timeslicesOf s' := (congrArg timeslicesOf same :)
    simp only [unpackLayout, unpackNeutralLayout, slices]
    split
    · rfl
    · exact blindToFields_unpackSlices L _ 0 s s' same

/-- The result of MUNPACK does not depend on the field store. -/
theorem munpackBody_forgetFields {s t : State} {r : Word} (h : munpackBody s = .ok (t, r)) :
    ∃ u, munpackBody s.forgetFields = .ok (u, r) := by
  obtain ⟨header, flushed, result, _, start, walk⟩ := munpackBody_ok h
  obtain ⟨_, rfl⟩ := unpackInitBody_ok_iff.mp start
  obtain ⟨L, choice, walk⟩ : ∃ L, chooseLayout s = .ok L ∧ unpackLayout L (unpackStart s) = .ok t := by
    obtain ⟨L, choice, walk⟩ | ⟨L, choice, walk⟩ := walk
    · exact ⟨.serial L, choice, walk⟩
    · exact ⟨.neutral L, choice, walk⟩
  have body := munpackBody_eq (s := s.forgetFields) header flushed choice
  have same := blindToFields_unpackLayout L (unpackStart s.forgetFields) (unpackStart s) rfl
  rw [walk] at same
  cases hu : unpackLayout L (unpackStart s.forgetFields) with
  | error e => rw [hu] at same; cases same
  | ok u =>
    rw [hu] at same body
    have ok : u.ok = t.ok := (congrArg State.ok (Except.ok.inj (same : Except.ok u.forgetFields = .ok t.forgetFields)) :)
    exact ⟨u, by rw [body, result, ← ok]; rfl⟩

/-! ## `ok` is sticky (10_state.md R27; 60_exceptions.md R308) -/

theorem not_of_result_zero {p : Prop} [Decidable p] (h : (if p then 1 else 0 : Word) = 0) : ¬ p := fun hp => by
  rw [if_pos hp] at h
  cases h

/-- MUNPACK answers 0 only when the payload does not hold all that the layout asks for; the field store may be in any
form. -/
theorem runsOut_of_munpackBody {s t : State} {r : Word} (h : munpackBody s = .ok (t, r)) (failed : t.ok = false) :
    ∃ L, layoutOf s.cfg s.kind s.hdr = some L ∧ runsOut s L := by
  obtain ⟨header, flushed, result, _, start, walk⟩ := munpackBody_ok h
  obtain ⟨_, rfl⟩ := unpackInitBody_ok_iff.mp start
  obtain ⟨u, body⟩ := munpackBody_forgetFields h
  rw [result, failed] at body
  have answered {t' : State} {r' : Word} (completes : Completes .munpack s.forgetFields t' r') : r' = 0 := by
    rw [Completes, exec_munpack, body, finish_ok] at completes
    injection completes with answer
    have resp := congrArg State.resp answer
    simp only [State.answer_resp, Option.some.injEq, Response.mk.injEq, true_and] at resp
    exact resp.symm
  have wf : s.forgetFields.fields.wf := reset_fields_wf
  obtain ⟨L, choice, _⟩ | ⟨L, choice, walk⟩ := walk
  · obtain ⟨_, layout, modes⟩ := chooseLayout_ok choice
    refine ⟨.serial L, layout, ?_⟩
    obtain ⟨t', completes, _⟩ := munpackReadsASerialLayout s.forgetFields L wf header flushed layout (modes L rfl)
    exact Nat.lt_of_not_le (not_of_result_zero (answered completes))
  · obtain ⟨_, layout, _⟩ := chooseLayout_ok choice
    refine ⟨.neutral L, layout, ?_⟩
    have few : timeslicesOf s.forgetFields ≤ 256 := by
      unfold unpackNeutralLayout at walk
      split at walk
      · cases walk
      · rename_i few
        exact Nat.le_of_not_lt few
    obtain ⟨_, nopins, pins⟩ := munpackReadsANeutralLayout s.forgetFields L _ wf header flushed layout rfl
    by_cases hpins : L.pins = []
    · obtain ⟨t', u', completes, _⟩ := nopins few hpins
      cases answered completes
    · obtain ⟨t', completes, _⟩ := pins few hpins
      exact ⟨hpins, Nat.lt_of_not_le (not_of_result_zero (answered completes))⟩

/-- UNPACK clears `ok` only when the bits run out. -/
theorem unpackBody_ok_eq {s t : State} {n : Nat} {r : Word} (h : unpackBody n s = .ok (t, r)) :
    t.ok = s.ok ∨ t.ok = false ∧ streamBits s < readPosition s + n := by
  obtain ⟨_, _, _, ⟨_, rfl, _⟩ | ⟨_, short, h⟩ | ⟨_, _, h⟩⟩ := unpackBody_ok h
  · exact .inl rfl
  · cases h
    rw [availableBits_eq] at short
    exact .inr ⟨rfl, by omega⟩
  · left
    unfold unpackDraw at h
    dsimp only at h
    split_ifs at h <;> (cases h; rfl)

/-- Settles O15: the frames leave `ok` to CLEAR, READ_BEGIN, UNPACK_INIT and the unpacking commands. -/
theorem okIsSticky : Obligations.OkIsSticky := by
  unfold Obligations.OkIsSticky
  intro i s t run
  obtain ⟨u, c, r, effect, rfl⟩ := leavesEffect run
  rw [State.answer_ok]
  have kept (same : u.ok = s.ok) {P Q : Prop} : (s.ok = false → u.ok = true → P) ∧ (s.ok = true → u.ok = false → Q) := by
    rw [same]
    exact ⟨fun h h' => (nomatch h.symm.trans h'), fun h h' => (nomatch h.symm.trans h')⟩
  cases effect with
  | nothing | setStreamed | setKind | hdrSet | hdrLoad | stSet | stLoad | write | fieldSet => exact kept rfl
  | clear => exact ⟨fun _ _ => .inr (.inl rfl), fun _ h => nomatch h⟩
  | readBegin => exact ⟨fun _ _ => .inr (.inr (.inl rfl)), fun _ h => nomatch h⟩
  | unpackInit => exact ⟨fun _ _ => .inl rfl, fun _ h => nomatch h⟩
  | pack body => exact kept (by rw [packBody_frame body])
  | packFlush body => exact kept (by rw [packFlushBody_frame body])
  | packNeutral body => exact kept (by rw [packNeutralBody_frame body])
  | packNeutralParity body => exact kept (by rw [packNeutralParityBody_frame body])
  | roiLoad word => exact kept (by rw [roiStore_frame])
  | mpack body =>
    obtain ⟨_, _, frame⟩ := mpackBody_frame body
    exact kept (by rw [frame]; rfl)
  | readWord _ body =>
    obtain ⟨_, _, rfl, _⟩ | ⟨_, _, _, rfl, _⟩ | ⟨_, _, rfl, _⟩ | ⟨_, _, rfl, _⟩ | ⟨_, rfl, _⟩ := readWordBody_ok body
    all_goals exact kept rfl
  | unpack body =>
    obtain same | ⟨cleared, short⟩ := unpackBody_ok_eq body
    · exact kept same
    · rw [cleared]
      exact ⟨fun _ h => (nomatch h), fun _ _ => .inl ⟨_, rfl, short⟩⟩
  | unpackNeutral body =>
    obtain ⟨_, _, _, _, ⟨_, rfl, _⟩ | ⟨_, short, _, rfl⟩ | ⟨_, _, _, rfl⟩⟩ := unpackNeutralBody_ok body
    · exact kept rfl
    · exact ⟨fun _ h => (nomatch h), fun _ _ => .inr (.inl ⟨_, _, rfl, short⟩)⟩
    · exact kept rfl
  | unpackNeutralParityError body =>
    obtain ⟨_, _, _, ⟨short, _, rfl⟩ | ⟨_, _, rfl⟩⟩ := unpackNeutralParityErrorBody_ok body
    · exact ⟨fun _ h => (nomatch h), fun _ _ => .inr (.inr (.inl ⟨_, rfl, short⟩))⟩
    · exact kept rfl
  | munpack body =>
    exact ⟨fun _ _ => .inr (.inr (.inr rfl)), fun _ failed => .inr (.inr (.inr ⟨rfl, runsOut_of_munpackBody body failed⟩))⟩

end Sys2Proof.Machine

/-! The laws of the serial bitstream (40_bitstream.md R146, R147): what packing appends, what unpacking reads, and the round
trip. -/

namespace Sys2Proof.Machine

open Sys2Proof Sys2Proof.Spec

/-! ## Packing appends to the bitstream -/

/-- Settles O28: PACK's and PACK_FLUSH's appends, with the room for one word. -/
theorem packingAppendsToTheBitstream : Obligations.PackingAppendsToTheBitstream := by
  unfold Obligations.PackingAppendsToTheBitstream
  intro s h pass mode room
  have ready := h.packReady pass mode
  have hw := ready.wcur_lt
  have hpos := maxbits_pos s.streamed
  refine ⟨fun value nbits hn => ?pack, ?flush⟩
  case pack =>
    have words : (packPosition s + nbits.toNat) / maxbits s.streamed ≤ s.payload.length + 1 := by
      rw [packPosition, Nat.add_assoc, Nat.mul_comm, Nat.mul_add_div hpos]
      exact Nat.add_le_add_left (Nat.lt_succ_iff.mp (Nat.div_lt_of_lt_mul (by omega))) _
    obtain ⟨t, body, after⟩ := (packBody_packs ready value hn).ok_of_room (fits_mono words room)
    refine ⟨t, completes_of_noResult_ok (exec_pack value nbits s) body, ?_, after.packed⟩
    obtain ⟨_, _, _, step⟩ := packBody_ok body
    exact (packStep_frame step).1
  case flush =>
    have words : wordsFor (packPosition s) (maxbits s.streamed) = if s.wcur = 0 then s.payload.length else s.payload.length + 1 :=
      wordsFor_of_lt hw
    have enough : fits s.cfg (wordsFor (packPosition s) (maxbits s.streamed)) = true :=
      fits_mono (by rw [words]; split <;> omega) room
    obtain ⟨t, body, after⟩ := (packFlushBody_packs ready).ok_of_room enough
    refine ⟨t, completes_of_noResult_ok (exec_packFlush s) body, after.frame, ?_⟩
    have padding : t.payload.length * maxbits s.streamed - packPosition s =
        (maxbits s.streamed - s.wcur) % maxbits s.streamed := by
      rw [after.length, words, packPosition]
      split_ifs with zero
      · rw [zero, Nat.sub_zero, Nat.mod_self, Nat.add_zero, Nat.sub_self]
      · rw [Nat.succ_mul, Nat.add_sub_add_left, Nat.mod_eq_of_lt (by omega)]
    have streamed : t.streamed = s.streamed := by rw [after.frame]
    have wcur : t.wcur = 0 := by rw [after.frame]
    rw [packedBits, streamed, wcur, wordBits_zero, List.append_nil, after.stream, padding]

/-! ## Unpacking reads the bitstream -/

/-- Settles O30: with the bits there UNPACK draws the field, or has no bits to draw. -/
theorem unpackReadsTheBitstream : Obligations.UnpackReadsTheBitstream := by
  unfold Obligations.UnpackReadsTheBitstream
  intro s nbits h hn pass mode room
  obtain zero | hpos := Nat.eq_zero_or_pos nbits.toNat
  · have body : unpackBody nbits.toNat s = .ok ({ s with pmode := .serial }, 0) := by rw [zero, unpackBody_zero pass mode]
    refine ⟨_, 0, completes_of_ok (exec_unpack nbits s) body, rfl, h.rbit_lt, ?_, ?_, ?_⟩
    · rw [zero]; rfl
    · rw [zero]; decide
    · rw [zero]; rfl
  · have available : ¬ availableBits s < nbits.toNat := by
      rw [availableBits_eq]
      have : readPosition s + nbits.toNat ≤ streamBits s := room
      omega
    have body : unpackBody nbits.toNat s = .ok (unpackDraw nbits.toNat { s with pmode := .serial }) := by
      have may : maySerialUnpack s = true := maySerialUnpack_iff.mpr ⟨pass, mode⟩
      have width : serialWidthOk s nbits.toNat = true := by simpa [serialWidthOk] using hn
      have bits : availableBits { s with pmode := .serial } = availableBits s := rfl
      simp [unpackBody, may, width, bits, available, hpos.ne']
    have drawn := fieldDrawn (s := { s with pmode := .serial }) h.rbit_lt hpos hn room
    refine ⟨_, _, completes_of_ok (exec_unpack nbits s) body, drawn.frame, drawn.rbit_lt,
      drawn.position, drawn.value⟩

/-! ## Runs of instructions -/

theorem runAll_cons {i : Instr} {rest : List Instr} {s t u : State} {r : Word} {rs : List Response} (h : Completes i s t r)
    (hrest : runAll rest (t.answer .ok r) = some (rs, u)) : runAll (i :: rest) s = some (⟨.ok, r⟩ :: rs, u) := by
  simp only [runAll, show exec i s = _ from h, State.answer_resp, hrest]

theorem runAll_append {a b : List Instr} {s t u : State} {rs rs' : List Response} (ha : runAll a s = some (rs, t))
    (hb : runAll b t = some (rs', u)) : runAll (a ++ b) s = some (rs ++ rs', u) := by
  induction a generalizing s rs with
  | nil =>
    cases ha
    exact hb
  | cons i rest ih =>
    simp only [runAll, List.cons_append] at ha ⊢
    split at ha
    · split at ha
      · rename_i hr hrest
        cases ha
        rw [hr, ih hrest]
        rfl
      · cases ha
    · cases ha
    · cases ha

/-! ## The serial round trip (40_bitstream.md R147) -/

/-- The bits of a list of fields. -/
def fieldListBits (l : List (Word × Slot)) : List Bool := l.flatMap fun x => lowBits x.1 x.2.toNat

theorem fieldListBits_cons (x : Word × Slot) (l : List (Word × Slot)) :
    fieldListBits (x :: l) = lowBits x.1 x.2.toNat ++ fieldListBits l := rfl

theorem widthSum_cons (x : Word × Slot) (l : List (Word × Slot)) : widthSum (x :: l) = x.2.toNat + widthSum l := by
  simp [widthSum]

theorem length_fieldListBits (l : List (Word × Slot)) : (fieldListBits l).length = widthSum l := by
  induction l with
  | nil => rfl
  | cons x l ih => rw [fieldListBits_cons, List.length_append, length_lowBits, ih, widthSum_cons]

/-- The word with the low bits of another and no more is the other cut to its width. -/
theorem eq_cut_of_lowBits_eq {v w : Word} {n : Nat} (hn : n ≤ 32) (hv : v.toNat < 2 ^ n) (h : lowBits v n = lowBits w n) :
    v = BitVec.ofNat 32 (w.toNat % 2 ^ n) := by
  have cut := toNat_and_mask w hn
  have hw : (w &&& mask n).toNat < 2 ^ n := cut ▸ Nat.mod_lt _ (Nat.two_pow_pos n)
  rw [eq_of_wordBits_eq hv hw (h.trans (wordBits_and_mask w hn).symm)]
  exact word_eq_ofNat cut

/-- The answer has no part in what packing asks. -/
theorem PackReady.answer {s : State} (h : PackReady s) (c : Status) (r : Word) : PackReady (s.answer c r) := { h with }

theorem UnpackReady.answer {s : State} (h : UnpackReady s) (c : Status) (r : Word) : UnpackReady (s.answer c r) := { h with }

/-- A run of PACKs appends its fields' bits. -/
theorem runAll_packs (l : List (Word × Slot)) {s : State} (ready : PackReady s) (widths : ∀ x ∈ l, x.2.toNat ≤ maxbits s.streamed)
    (room : fits s.cfg ((packPosition s + widthSum l) / maxbits s.streamed) = true) :
    ∃ t, runAll (l.map fun x => .pack x.1 x.2) s = some (allOk l.length, t) ∧ PackReady t ∧ t.cfg = s.cfg ∧
      t.streamed = s.streamed ∧ packedBits t = packedBits s ++ fieldListBits l := by
  induction l generalizing s with
  | nil => exact ⟨s, rfl, ready, rfl, rfl, (List.append_nil _).symm⟩
  | cons x l ih =>
    have hn := widths x (by simp)
    rw [widthSum_cons, ← Nat.add_assoc] at room
    obtain ⟨t, body, after⟩ := (packBody_packs ready x.1 hn).ok_of_room (fits_mono (Nat.div_le_div_right (by omega)) room)
    have cfg := after.cfg_eq
    have streamed := after.streamed_eq
    have position := after.position
    rw [length_lowBits] at position
    obtain ⟨u, run, ready', cfg', streamed', packed⟩ := ih (s := t.answer .ok 0) (after.ready.answer ..)
      (fun y hy => by rw [State.answer_streamed, streamed]; exact widths y (by simp [hy]))
      (by rw [State.answer_cfg, State.answer_streamed, cfg, streamed]; exact position ▸ room)
    refine ⟨u, runAll_cons (completes_of_noResult_ok (exec_pack x.1 x.2 s) body) run, ready', cfg'.trans cfg,
      streamed'.trans streamed, ?_⟩
    rw [packed, fieldListBits_cons, ← List.append_assoc, ← after.packed]
    rfl

/-- A run of UNPACKs reads the fields whose bits stand in the bitstream from the read position on. -/
theorem runAll_unpacks (l : List (Word × Slot)) {s : State} {tail : List Bool} (ready : UnpackReady s)
    (widths : ∀ x ∈ l, x.2.toNat ≤ maxbits s.streamed)
    (stream : (bitstream s.payload (maxbits s.streamed)).drop (readPosition s) = fieldListBits l ++ tail) :
    ∃ t, runAll (l.map fun x => .unpack x.2) s = some (cutFields l, t) ∧ t.ok = s.ok ∧ t.payload = s.payload := by
  induction l generalizing s with
  | nil => exact ⟨s, rfl, rfl, rfl⟩
  | cons x l ih =>
    have hn := widths x (by simp)
    rw [fieldListBits_cons, List.append_assoc] at stream
    have room : readPosition s + x.2.toNat ≤ streamBits s := by
      have lengths := congrArg List.length stream
      have within := ready.position_le
      rw [List.length_drop, length_bitstream, List.length_append, length_lowBits] at lengths
      rw [streamBits] at *
      omega
    obtain ⟨t, v, body, read⟩ := unpackBody_reads ready hn
    have streamed : t.streamed = s.streamed := by rw [read.frame]
    have payload : t.payload = s.payload := by rw [read.frame]
    have position : readPosition t = readPosition s + x.2.toNat := read.position.trans (if_pos room)
    have value : v = BitVec.ofNat 32 (x.1.toNat % 2 ^ x.2.toNat) := by
      obtain ⟨small, bits⟩ := read.value room
      refine eq_cut_of_lowBits_eq (hn.trans (maxbits_le _)) small ?_
      rw [bits, streamSlice, stream]
      exact List.take_left' (length_lowBits ..)
    have rest : (bitstream t.payload (maxbits t.streamed)).drop (readPosition t) = fieldListBits l ++ tail := by
      rw [position, payload, streamed, ← List.drop_drop, stream]
      exact List.drop_left' (length_lowBits ..)
    obtain ⟨u, run, ok, same⟩ := ih (s := t.answer .ok v) (read.ready.answer ..)
      (fun y hy => by rw [State.answer_streamed, streamed]; exact widths y (by simp [hy])) rest
    refine ⟨u, ?_, ok.trans ?_, same.trans payload⟩
    · have first := runAll_cons (completes_of_ok (exec_unpack x.2 s) body) run
      rw [value] at first
      exact first
    · rw [State.answer_ok, read.ok_eq, decide_eq_true room, Bool.and_true]

theorem completes_unpackInit {s : State} (flushed : s.wcur = 0) : Completes .unpackInit s (unpackStart s) 0 :=
  completes_of_noResult_ok (exec_unpackInit s) (unpackInitBody_ok_iff.mpr ⟨flushed, rfl⟩)

/-- Settles O32: the packs fill the bitstream with the fields' bits, the flush pads them, and the unpacks read them from
bit 0 on. -/
theorem serialRoundTrip : Obligations.SerialRoundTrip := by
  unfold Obligations.SerialRoundTrip
  intro s l widths room
  have cleared : PackReady ((clearState s).answer .ok 0) := ((clearState_inv s).packReady rfl nofun).answer ..
  obtain ⟨t, packs, ready, cfg, streamed, packed⟩ := runAll_packs l cleared widths
    (fits_mono (by
      rw [wordsFor, show packPosition ((clearState s).answer .ok 0) = 0 from Nat.zero_mul _, Nat.zero_add]
      exact Nat.div_le_div_right (Nat.le_sub_one_of_lt (Nat.lt_add_of_pos_right (maxbits_pos _)))) room)
  have streamed : t.streamed = s.streamed := streamed
  have packed : packedBits t = fieldListBits l := packed
  have position : packPosition t = widthSum l := by rw [← length_packedBits, packed, length_fieldListBits]
  obtain ⟨u, flush, after⟩ := (packFlushBody_packs ready).ok_of_room (by rw [position, streamed, cfg]; exact room)
  have wcur : u.wcur = 0 := by rw [after.frame]
  have streamed' : u.streamed = s.streamed := by rw [after.frame]; exact streamed
  have start : readPosition ((unpackStart (u.answer .ok 0)).answer .ok 0) = 0 := by
    simp [readPosition, unpackStart]
  have stream := after.stream
  rw [packed, position, streamed] at stream
  obtain ⟨v, unpacks, ok, payload⟩ := runAll_unpacks l (s := (unpackStart (u.answer .ok 0)).answer .ok 0)
    ⟨rfl, nofun, maxbits_pos _, start ▸ Nat.zero_le _⟩ (fun x hx => streamed'.symm ▸ widths x hx)
    (by rw [start]; exact streamed'.symm ▸ stream)
  have length : v.payload.length = wordsFor (widthSum l) (maxbits s.streamed) := by
    rw [payload]
    exact after.length.trans (by rw [position, streamed])
  refine ⟨v, ?_, ok, length⟩
  have packing : runAll (serialPacking l) s = some (allOk (l.length + 2), u.answer .ok 0) := by
    have flushed : runAll [.packFlush] t = some (allOk 1, u.answer .ok 0) :=
      runAll_cons (completes_of_noResult_ok (exec_packFlush t) flush) rfl
    have all := runAll_cons (completes_clear s) (runAll_append packs flushed)
    rwa [allOk, allOk, List.replicate_append_replicate] at all
  have unpacking : runAll (serialUnpacking l) (u.answer .ok 0) = some (allOk 1 ++ cutFields l, v) :=
    runAll_cons (completes_unpackInit wcur) unpacks
  rw [runAll_append packing unpacking, ← List.append_assoc, allOk, allOk, List.replicate_append_replicate]
  rfl

end Sys2Proof.Machine

/-! The laws of the neutral lanes (41_neutral.md R177 to R181): the parity question, what a run of packs leaves in every lane,
the round trip, and what the parity detects. -/

namespace Sys2Proof.Machine

open Sys2Proof Sys2Proof.Spec

/-! ## The parity question (41_neutral.md R177) -/

theorem boolWord_eq_zero_or_one (b : Bool) : boolWord b = 0 ∨ boolWord b = 1 := by
  cases b
  · exact .inl rfl
  · exact .inr rfl

theorem boolWord_bne (a b : Bool) : boolWord (a != b) = if a = b then 0 else 1 := by
  cases a <;> cases b <;> rfl

/-- Settles O36: after the checks the row that is left decides. -/
theorem parityErrorComparesTheBit : Obligations.ParityErrorComparesTheBit := by
  unfold Obligations.ParityErrorComparesTheBit
  intro s pin
  refine ⟨fun h => refusedWith_of_error (exec_unpackNeutralParityError pin s) (unpackNeutralParityErrorBody_badOperand h),
    fun hpin => ⟨fun h => refusedWith_of_error (exec_unpackNeutralParityError pin s)
      (unpackNeutralParityErrorBody_badState hpin h), fun pass mode => ?_⟩⟩
  have hp : pin.toNat < 32 := hpin.trans_le (maxPins_le _)
  have body := unpackNeutralParityErrorBody_eq hpin pass mode
  by_cases ended : s.payload.length ≤ s.cursor pin.toNat
  · rw [if_pos ended] at body
    refine ⟨_, _, completes_of_ok (exec_unpackNeutralParityError pin s) body, fun q => ?_,
      fun _ => ⟨boolWord_eq_zero_or_one _, rfl⟩, fun row => absurd ended (Nat.not_le.mpr row)⟩
    exact (State.parity_setParity s pin.toNat q true hp).trans (if_congr eq_comm rfl rfl)
  · rw [if_neg ended] at body
    exact ⟨_, _, completes_of_ok (exec_unpackNeutralParityError pin s) body, State.parity_moveLane hp _ 1 true,
      fun short => absurd short ended, fun _ => ⟨boolWord_bne _ _, rfl, State.cursor_moveLane hp _ 1 true⟩⟩

/-! ## Steps of a lane -/

/-- The bits that one step puts down a lane whose parity is `par` (41_neutral.md R172, R174). -/
def stepBits (par : Bool) : Option (Word × Slot) → List Bool
  | some (v, n) => lowBits v n.toNat
  | none => [par]

/-- The parity that a step leaves. -/
def stepParity (par : Bool) : Option (Word × Slot) → Bool
  | some (v, n) => par ^^ oddOnes v n.toNat
  | none => true

/-- The bits that steps of one lane put down it, in order. -/
def stepsBits (par : Bool) : List (Option (Word × Slot)) → List Bool
  | [] => []
  | x :: rest => stepBits par x ++ stepsBits (stepParity par x) rest

/-- The steps of lane `q` among steps of all lanes. -/
def laneSteps (q : Nat) (l : List (Slot × Option (Word × Slot))) : List (Option (Word × Slot)) :=
  (l.filter fun x => x.1.toNat == q).map Prod.snd

theorem length_stepBits (par : Bool) (x : Slot × Option (Word × Slot)) : (stepBits par x.2).length = laneRows x := by
  obtain ⟨pin, _ | ⟨v, n⟩⟩ := x
  · rfl
  · exact length_lowBits v n.toNat

theorem laneSteps_cons (q : Nat) (x : Slot × Option (Word × Slot)) (l : List (Slot × Option (Word × Slot))) :
    laneSteps q (x :: l) = if q = x.1.toNat then x.2 :: laneSteps q l else laneSteps q l := by
  by_cases h : q = x.1.toNat
  · simp [laneSteps, h]
  · simp [laneSteps, h, Ne.symm h]

/-- A lane that no step names has none. -/
theorem laneSteps_eq_nil {q : Nat} {l : List (Slot × Option (Word × Slot))} (h : ∀ x ∈ l, x.1.toNat ≠ q) : laneSteps q l = [] := by
  simpa [laneSteps] using fun a b hx => h (a, b) hx

/-- The steps of every lane are decided by those of every pin. -/
theorem laneSteps_congr {l l' : List (Slot × Option (Word × Slot))}
    (h : ∀ pin : Slot, l.filter (fun x => x.1 == pin) = l'.filter (fun x => x.1 == pin)) (q : Nat) :
    laneSteps q l = laneSteps q l' := by
  by_cases hq : q < 256
  · have same (x : Slot × Option (Word × Slot)) : (x.1.toNat == q) = (x.1 == BitVec.ofNat 8 q) := by
      rw [Bool.eq_iff_iff, beq_iff_eq, beq_iff_eq, ← BitVec.toNat_inj, BitVec.toNat_ofNat, Nat.mod_eq_of_lt hq]
    simp only [laneSteps, same, h]
  · have none (l : List (Slot × Option (Word × Slot))) : laneSteps q l = [] :=
      laneSteps_eq_nil fun x _ e => hq (e ▸ x.1.isLt)
    rw [none, none]

/-! ## A run of packs on the lanes -/

/-- The response has no part in what the lanes hold. -/
theorem LanesPacked.answer {s t : State} {lanes : Nat → List Bool} {par : Nat → Bool} (h : LanesPacked s lanes par t)
    (c : Status) (r : Word) : LanesPacked (s.answer c r) lanes par (t.answer c r) :=
  { h with frame := congrArg (fun u : State => u.answer c r) h.frame }

/-- One packing step of a lane. -/
theorem LanesPacked.packLane {s t : State} {lanes : Nat → List Bool} {par : Nat → Bool} (h : LanesPacked s lanes par t)
    {x : Slot × Option (Word × Slot)} (hpin : x.1.toNat < maxPins s.cfg) (hn : laneRows x ≤ 32)
    (room : fits s.cfg ((lanes x.1.toNat).length + laneRows x) = true) :
    ∃ u, Completes (packLane x) t u 0 ∧
      LanesPacked s (fun q => lanes q ++ if q = x.1.toNat then stepBits (par q) x.2 else [])
        (fun q => if q = x.1.toNat then stepParity (par q) x.2 else par q) u := by
  obtain ⟨pin, _ | ⟨v, n⟩⟩ := x
  · obtain ⟨u, body, hu⟩ := (h.packNeutralParityBody_packs hpin).ok_of_room room
    refine ⟨u, completes_of_noResult_ok (exec_packNeutralParity pin t) body, hu.congr (fun q => ?_) fun q => rfl⟩
    split_ifs with same
    · rw [same]; rfl
    · rfl
  · obtain ⟨u, body, hu⟩ := (h.packNeutralBody_packs hpin hn v).ok_of_room room
    exact ⟨u, completes_of_noResult_ok (exec_packNeutral pin v n t) body, hu⟩

/-- Every lane gets the bits of its own steps, in their order. -/
theorem runAll_packLanes (l : List (Slot × Option (Word × Slot))) {s t : State} {lanes : Nat → List Bool} {par : Nat → Bool}
    (h : LanesPacked (s.answer .ok 0) lanes par t) (operands : ∀ x ∈ l, x.1.toNat < maxPins s.cfg ∧ laneRows x ≤ 32)
    (room : ∀ q, fits s.cfg ((lanes q).length + (l.map laneRows).sum) = true) :
    ∃ u par', runAll (l.map packLane) t = some (allOk l.length, u) ∧
      LanesPacked (s.answer .ok 0) (fun q => lanes q ++ stepsBits (par q) (laneSteps q l)) par' u := by
  induction l generalizing t lanes par with
  | nil => exact ⟨t, par, rfl, h.congr (fun q => (List.append_nil _).symm) fun _ => rfl⟩
  | cons x l ih =>
    obtain ⟨hpin, hn⟩ := operands x (by simp)
    rw [List.map_cons, List.sum_cons] at room
    obtain ⟨u, completes, hu⟩ := h.packLane hpin hn (fits_mono (by omega) (room x.1.toNat))
    obtain ⟨v, par', run, hv⟩ := ih (hu.answer .ok 0) (fun y hy => operands y (by simp [hy])) fun q => by
      refine fits_mono ?_ (room q)
      rw [List.length_append]
      split_ifs
      · rw [length_stepBits]; omega
      · rw [List.length_nil]; omega
    refine ⟨v, par', runAll_cons completes run, hv.congr (fun q => ?_) fun _ => rfl⟩
    rw [laneSteps_cons]
    split_ifs
    · rw [stepsBits, List.append_assoc]
    · rw [List.append_nil]

/-! ## A run of unpacks on the lanes -/

/-- In `t` every lane still holds, from its cursor on, the bits of its steps among `l`. -/
structure LanesHold (t : State) (l : List (Slot × Option (Word × Slot))) : Prop where
  ready : LaneReady t
  rows : ∀ q, LaneHolds t q (stepsBits (t.parity q) (laneSteps q l)).length
  bits : ∀ q, laneColumn t.payload q (t.cursor q) (stepsBits (t.parity q) (laneSteps q l)).length =
    stepsBits (t.parity q) (laneSteps q l)

theorem length_laneColumn (payload : List Word) (pin row n : Nat) : (laneColumn payload pin row n).length = n := by
  simp [laneColumn]

section

variable {t u : State} {x : Slot × Option (Word × Slot)} {l : List (Slot × Option (Word × Slot))} (h : LanesHold t (x :: l))

include h

/-- The lane of the first step holds it, and the others after it. -/
theorem LanesHold.first : LaneHolds t x.1.toNat (laneRows x) ∧
    laneColumn t.payload x.1.toNat (t.cursor x.1.toNat) (laneRows x) = stepBits (t.parity x.1.toNat) x.2 := by
  have rows := h.rows x.1.toNat
  have bits := h.bits x.1.toNat
  rw [laneSteps_cons, if_pos rfl, stepsBits, List.length_append, length_stepBits] at rows bits
  rw [laneColumn_add] at bits
  refine ⟨?_, (List.append_inj bits (by rw [length_laneColumn, length_stepBits])).1⟩
  rw [LaneHolds] at *
  omega

/-- A step of its lane leaves what the other steps ask for. -/
theorem LanesHold.next (moved : LaneMoved t x.1.toNat (laneRows x) u)
    (parity : ∀ q, u.parity q = if q = x.1.toNat then stepParity (t.parity q) x.2 else t.parity q) : LanesHold u l := by
  have cursor := moved.cursor_of_holds h.first.1
  have lane (q : Nat) : LaneHolds u q (stepsBits (u.parity q) (laneSteps q l)).length ∧
      laneColumn u.payload q (u.cursor q) (stepsBits (u.parity q) (laneSteps q l)).length =
        stepsBits (u.parity q) (laneSteps q l) := by
    have rows := h.rows q
    have bits := h.bits q
    rw [laneSteps_cons] at rows bits
    rw [LaneHolds, cursor, parity, moved.payload_eq]
    split_ifs at rows bits ⊢ with same
    · rw [stepsBits, List.length_append, length_stepBits] at rows bits
      rw [laneColumn_add] at bits
      refine ⟨?_, (List.append_inj bits (by rw [length_laneColumn, length_stepBits])).2⟩
      rw [LaneHolds] at rows
      omega
    · exact ⟨rows, bits⟩
  exact ⟨moved.ready h.ready, fun q => (lane q).1, fun q => (lane q).2⟩

/-- One unpacking step of a lane answers what was packed. -/
theorem LanesHold.unpackLane (hpin : x.1.toNat < maxPins t.cfg) (hn : laneRows x ≤ 32) :
    ∃ u r, Completes (unpackLane x) t u r ∧ laneResult x = ⟨.ok, r⟩ ∧ LanesHold u l ∧ u.ok = t.ok ∧ u.cfg = t.cfg := by
  obtain ⟨hold, bits⟩ := h.first
  obtain ⟨pin, _ | ⟨v, n⟩⟩ := x
  · obtain ⟨u, r, body, checked⟩ := unpackNeutralParityErrorBody_checks h.ready hpin
    have same : laneBit t.payload pin.toNat (t.cursor pin.toNat) = t.parity pin.toNat := by
      have bits : [laneBit t.payload pin.toNat (t.cursor pin.toNat)] = [t.parity pin.toNat] := bits
      simpa using bits
    have result : r = 0 := by rw [checked.value hold, same, bne_self_eq_false]; rfl
    refine ⟨u, r, completes_of_ok (exec_unpackNeutralParityError pin t) body, by rw [result]; rfl,
      h.next checked.toLaneMoved checked.parity_eq, ?_, by rw [checked.frame]⟩
    rw [Bool.eq_iff_iff, checked.ok_iff]
    exact and_iff_left hold
  · have hn : n.toNat ≤ 32 := hn
    have hold : LaneHolds t pin.toNat n.toNat := hold
    obtain ⟨u, r, body, read⟩ := unpackNeutralBody_reads h.ready hpin hn
    have bits : laneColumn t.payload pin.toNat (t.cursor pin.toNat) n.toNat = lowBits v n.toNat := bits
    have value := read.value hold
    have result : r = BitVec.ofNat 32 (v.toNat % 2 ^ n.toNat) := by
      refine eq_cut_of_lowBits_eq hn (value ▸ getBits_lt _ _ _ hn) ?_
      rw [value, lowBits_getBits _ _ _ hn, bits]
    have parity (q : Nat) : u.parity q = if q = pin.toNat then t.parity q ^^ oddOnes v n.toNat else t.parity q := by
      rw [read.parity_eq q fun _ => hold]
      split_ifs with same
      · rw [same, bits, oddOnes_eq_oddCount]
      · exact Bool.xor_false _
    refine ⟨u, r, completes_of_ok (exec_unpackNeutral pin n t) body, by rw [result]; rfl,
      h.next read.toLaneMoved parity, ?_, by rw [read.frame]⟩
    rw [Bool.eq_iff_iff, read.ok_iff]
    exact and_iff_left hold

end

theorem LanesHold.answer {t : State} {l : List (Slot × Option (Word × Slot))} (h : LanesHold t l) (c : Status) (r : Word) :
    LanesHold (t.answer c r) l :=
  ⟨{ h.ready with }, h.rows, h.bits⟩

/-- Every step comes back, in whatever order the lanes take turns. -/
theorem runAll_unpackLanes (l : List (Slot × Option (Word × Slot))) {t : State} (h : LanesHold t l)
    (operands : ∀ x ∈ l, x.1.toNat < maxPins t.cfg ∧ laneRows x ≤ 32) :
    ∃ u, runAll (l.map unpackLane) t = some (l.map laneResult, u) ∧ u.ok = t.ok := by
  induction l generalizing t with
  | nil => exact ⟨t, rfl, rfl⟩
  | cons x l ih =>
    obtain ⟨hpin, hn⟩ := operands x (by simp)
    obtain ⟨u, r, completes, result, hold, ok, cfg⟩ := h.unpackLane hpin hn
    obtain ⟨v, run, ok'⟩ := ih (hold.answer .ok r) fun y hy => by
      rw [State.answer_cfg, cfg]
      exact operands y (by simp [hy])
    refine ⟨v, ?_, ok'.trans ok⟩
    rw [List.map_cons, List.map_cons, result]
    exact runAll_cons completes run

/-! ## The neutral round trip (41_neutral.md R181) -/

/-- After CLEAR nothing is in the lanes. -/
theorem lanesPacked_clear (s : State) : LanesPacked ((clearState s).answer .ok 0) (fun _ => []) (fun _ => true) ((clearState s).answer .ok 0) :=
  (lanesPacked_start (clearState_inv s) rfl rfl rfl).answer .ok 0

/-- A column of the payload from row 0 on is what its lane was packed with. -/
theorem LanesPacked.laneColumn_eq {s t : State} {lanes : Nat → List Bool} {par : Nat → Bool} (h : LanesPacked s lanes par t)
    {q : Nat} (hq : q < 32) : laneColumn t.payload q 0 (lanes q).length = lanes q := by
  apply List.ext_getElem (length_laneColumn ..)
  intro row h1 h2
  have bit := h.bit row (h2.trans_le (h.lane_le q)) q hq
  rw [List.getD_eq_getElem _ _ h2] at bit
  simpa [laneColumn] using bit

/-- Settles O39: every lane is packed with the bits of its own steps, and unpacked of them. -/
theorem neutralRoundTrip : Obligations.NeutralRoundTrip := by
  unfold Obligations.NeutralRoundTrip
  intro s packed unpacked operands orders room
  obtain ⟨t, par, packs, lanes⟩ := runAll_packLanes packed (lanesPacked_clear s) operands fun q => by
    rw [List.length_nil, Nat.zero_add]
    exact room
  have flushed : t.wcur = 0 := by rw [lanes.frame]; rfl
  have cfg : t.cfg = s.cfg := lanes.cfg_eq
  have hold : LanesHold ((unpackStart t).answer .ok 0) unpacked := by
    have cursor (q : Nat) : ((unpackStart t).answer .ok 0).cursor q = 0 := State.cursor_resetLanes t q
    have parity (q : Nat) : ((unpackStart t).answer .ok 0).parity q = true := State.parity_resetLanes t q
    refine ⟨{ laneReady_unpackStart t with }, fun q => ?_, fun q => ?_⟩
    · rw [LaneHolds, cursor, parity, Nat.zero_add, ← laneSteps_congr orders]
      exact lanes.lane_le q
    · rw [cursor, parity, ← laneSteps_congr orders]
      by_cases hq : q < 32
      · exact lanes.laneColumn_eq hq
      · rw [laneSteps_eq_nil fun x hx (e : x.1.toNat = q) => hq (e ▸ (operands x hx).1.trans_le (maxPins_le _))]
        rfl
  have operands' : ∀ x ∈ unpacked, x.1.toNat < maxPins t.cfg ∧ laneRows x ≤ 32 := by
    intro x hx
    have mem : x ∈ packed.filter fun y => y.1 == x.1 := by
      rw [orders]
      exact List.mem_filter.mpr ⟨hx, by simp⟩
    rw [cfg]
    exact operands x (List.mem_filter.mp mem).1
  obtain ⟨u, unpacks, ok⟩ := runAll_unpackLanes unpacked hold operands'
  refine ⟨u, ?_, ok⟩
  have all := runAll_append (runAll_cons (completes_clear s) packs) (runAll_cons (completes_unpackInit flushed) unpacks)
  rw [all, allOk, allOk, Nat.add_succ, List.replicate_succ']
  simp [List.replicate_succ]

end Sys2Proof.Machine

/-! What the parity of a lane detects (41_neutral.md R179). -/

namespace Sys2Proof.Machine

open Sys2Proof Sys2Proof.Spec

/-! ## What the parity detects (41_neutral.md R179) -/

theorem odd_add (a b : Nat) : ((a + b) % 2 == 1) = ((a % 2 == 1) ^^ (b % 2 == 1)) := by
  obtain ha | ha := Nat.mod_two_eq_zero_or_one a <;> obtain hb | hb := Nat.mod_two_eq_zero_or_one b <;>
    simp [Nat.add_mod, ha, hb]

/-- The number of places where two columns differ is odd when one of them has an odd count and the other has not. -/
theorem odd_length_filter_bne (f g : Nat → Bool) (n : Nat) :
    (((List.range n).filter fun k => f k != g k).length % 2 == 1) =
      (oddCount ((List.range n).map f) ^^ oddCount ((List.range n).map g)) := by
  induction n with
  | zero => rfl
  | succ n ih =>
    have last : (([n].filter fun k => f k != g k).length % 2 == 1) = (oddCount ([n].map f) ^^ oddCount ([n].map g)) := by
      simp only [List.filter, List.map]
      cases f n <;> cases g n <;> rfl
    rw [List.range_succ, List.filter_append, List.length_append, odd_add, ih, last, List.map_append, List.map_append,
      oddCount_append, oddCount_append, Bool.xor_assoc, Bool.xor_assoc, Bool.xor_left_comm (oddCount ((List.range n).map g))]

theorem laneChanges_odd (old new : List Word) (pin : Nat) :
    (laneChanges old new pin % 2 == 1) =
      (oddCount (laneColumn new pin 0 old.length) ^^ oddCount (laneColumn old pin 0 old.length)) := by
  simp only [laneColumn, Nat.zero_add]
  exact odd_length_filter_bne _ _ _

/-- The steps of fields, then the parity, put down the fields' bits and the bit that makes their count odd. -/
theorem stepsBits_fields (par : Bool) (l : List (Word × Slot)) :
    stepsBits par (l.map some ++ [none]) = fieldListBits l ++ [par ^^ oddCount (fieldListBits l)] := by
  induction l generalizing par with
  | nil => simp [stepsBits, stepBits, fieldListBits, oddCount]
  | cons x l ih =>
    rw [List.map_cons, List.cons_append, stepsBits, ih, fieldListBits_cons, oddCount_append, List.append_assoc, stepParity,
      oddOnes_eq_oddCount, Bool.xor_assoc]
    rfl

/-- The steps of a lane that packs fields and then its parity. -/
def parityLane (pin : Slot) (l : List (Word × Slot)) : List (Slot × Option (Word × Slot)) :=
  l.map (fun x => (pin, some x)) ++ [(pin, none)]

theorem lanePacking_eq (pin : Slot) (l : List (Word × Slot)) : lanePacking pin l = .clear :: (parityLane pin l).map packLane := by
  simp [lanePacking, parityLane, packLane]

theorem laneSteps_parityLane (pin : Slot) (l : List (Word × Slot)) : laneSteps pin.toNat (parityLane pin l) = l.map some ++ [none] := by
  simp [laneSteps, parityLane, List.filter_map, Function.comp_def]

theorem sum_laneRows_parityLane (pin : Slot) (l : List (Word × Slot)) : ((parityLane pin l).map laneRows).sum = widthSum l + 1 := by
  simp [parityLane, laneRows, widthSum, Function.comp_def]

theorem mem_parityLane {pin : Slot} {l : List (Word × Slot)} {x : Slot × Option (Word × Slot)} (hx : x ∈ parityLane pin l) :
    x.1 = pin := by
  obtain h | h := List.mem_append.mp hx
  · obtain ⟨_, _, rfl⟩ := List.mem_map.mp h
    rfl
  · rw [List.mem_singleton.mp h]

/-- After the packs the lane holds its fields and an odd count in all, and no row more. -/
theorem LanesPacked.of_parityLane {s t : State} {pin : Slot} {l : List (Word × Slot)} {par : Nat → Bool} (hp : pin.toNat < 32)
    (h : LanesPacked s (fun q => [] ++ stepsBits true (laneSteps q (parityLane pin l))) par t) :
    t.payload.length = widthSum l + 1 ∧ oddCount (laneColumn t.payload pin.toNat 0 (widthSum l + 1)) = true := by
  have lane : [] ++ stepsBits true (laneSteps pin.toNat (parityLane pin l)) =
      fieldListBits l ++ [true ^^ oddCount (fieldListBits l)] := by
    rw [List.nil_append, laneSteps_parityLane, stepsBits_fields]
  have length : ([] ++ stepsBits true (laneSteps pin.toNat (parityLane pin l))).length = widthSum l + 1 := by
    rw [lane, List.length_append, length_fieldListBits, List.length_singleton]
  constructor
  · have le := h.lane_le pin.toNat
    obtain ⟨q, hq⟩ := h.lane_max
    by_cases same : q = pin.toNat
    · rw [hq, same, length]
    · rw [laneSteps_eq_nil fun x hx => by rw [mem_parityLane hx]; exact Ne.symm same] at hq
      have hq : t.payload.length = 0 := hq
      omega
  · have column := h.laneColumn_eq hp
    rw [length] at column
    rw [column, lane, oddCount_append]
    cases oddCount (fieldListBits l) <;> rfl

/-- Reads of a lane that holds them all fold its rows into its parity. -/
theorem runAll_laneReads (pin : Slot) (l : List (Word × Slot)) {s : State} (ready : LaneReady s) (hpin : pin.toNat < maxPins s.cfg)
    (widths : ∀ x ∈ l, x.2.toNat ≤ 32) (room : LaneHolds s pin.toNat (widthSum l)) :
    ∃ rs t, runAll (l.map fun x => .unpackNeutral pin x.2) s = some (rs, t) ∧ LaneReady t ∧ t.cfg = s.cfg ∧
      t.payload = s.payload ∧ t.cursor pin.toNat = s.cursor pin.toNat + widthSum l ∧
      t.parity pin.toNat = (s.parity pin.toNat ^^ oddCount (laneColumn s.payload pin.toNat (s.cursor pin.toNat) (widthSum l))) := by
  induction l generalizing s with
  | nil => exact ⟨[], s, rfl, ready, rfl, rfl, rfl, (Bool.xor_false _).symm⟩
  | cons x l ih =>
    rw [widthSum_cons] at room ⊢
    have first : LaneHolds s pin.toNat x.2.toNat := by rw [LaneHolds] at *; omega
    obtain ⟨t, r, body, read⟩ := unpackNeutralBody_reads ready hpin (widths x (by simp))
    have cfg : t.cfg = s.cfg := by rw [read.frame]
    have payload := read.payload_eq
    have cursor := read.cursor_of_holds first pin.toNat
    have parity := read.parity_eq pin.toNat fun _ => first
    rw [if_pos rfl] at cursor parity
    have ready' : LaneReady (t.answer .ok r) := { read.ready ready with }
    obtain ⟨rs, u, run, ready'', cfg', payload', cursor', parity'⟩ := ih ready' (by rw [State.answer_cfg, cfg]; exact hpin)
      (fun y hy => widths y (by simp [hy])) (by
        rw [LaneHolds, State.cursor_answer, State.answer_payload, cursor, payload, Nat.add_assoc]
        exact room)
    refine ⟨_, u, runAll_cons (completes_of_ok (exec_unpackNeutral pin x.2 s) body) run, ready'', cfg'.trans cfg,
      payload'.trans payload, ?_, ?_⟩
    · rw [cursor', State.cursor_answer, cursor, Nat.add_assoc]
    · rw [parity', State.parity_answer, State.cursor_answer, State.answer_payload, parity, cursor, payload, laneColumn_add,
        oddCount_append, Bool.xor_assoc]

/-- The parity question after the reads is answered 1 exactly when the lane holds an even count in all. -/
theorem runAll_laneUnpacking (pin : Slot) (l : List (Word × Slot)) {s : State} (flushed : s.wcur = 0)
    (hpin : pin.toNat < maxPins s.cfg) (widths : ∀ x ∈ l, x.2.toNat ≤ 32) (length : s.payload.length = widthSum l + 1) :
    ∃ rs u, runAll (laneUnpacking pin l) s =
      some (rs ++ [⟨.ok, boolWord (!oddCount (laneColumn s.payload pin.toNat 0 (widthSum l + 1)))⟩], u) := by
  have cursor : ((unpackStart s).answer .ok 0).cursor pin.toNat = 0 := State.cursor_resetLanes s pin.toNat
  have parity : ((unpackStart s).answer .ok 0).parity pin.toNat = true := State.parity_resetLanes s pin.toNat
  obtain ⟨rs, t, run, ready, cfg, payload, cursor', parity'⟩ := runAll_laneReads pin l (s := (unpackStart s).answer .ok 0)
    { laneReady_unpackStart s with } hpin widths (by
      rw [LaneHolds, cursor, Nat.zero_add]
      exact (Nat.le_succ _).trans_eq length.symm)
  rw [cursor, Nat.zero_add] at cursor'
  rw [parity, cursor] at parity'
  have payload : t.payload = s.payload := payload
  obtain ⟨u, r, body, checked⟩ := unpackNeutralParityErrorBody_checks (pin := pin.toNat) ready (by rw [cfg]; exact hpin)
  have value := checked.value (by rw [LaneHolds, cursor', payload]; exact length.ge)
  have result : r = boolWord (!oddCount (laneColumn s.payload pin.toNat 0 (widthSum l + 1))) := by
    have last (a b : Bool) : (b != (true ^^ a)) = !(a ^^ oddCount [b]) := by cases a <;> cases b <;> rfl
    rw [value, parity', cursor', payload, laneColumn_add, laneColumn_one, oddCount_append, Nat.zero_add, ← last]
    rfl
  refine ⟨⟨.ok, 0⟩ :: rs, u.answer .ok r, ?_⟩
  rw [← result]
  exact runAll_cons (completes_unpackInit flushed)
    (runAll_append run (runAll_cons (completes_of_ok (exec_unpackNeutralParityError pin t) body) rfl))

/-- Settles O37: the lane was packed with an odd count, so the question asks whether an even number of ones is there now. -/
theorem parityDetectsOddInversions : Obligations.ParityDetectsOddInversions := by
  unfold Obligations.ParityDetectsOddInversions
  intro s pin l changed hpin widths room
  have hp : pin.toNat < 32 := hpin.trans_le (maxPins_le _)
  have operands : ∀ x ∈ parityLane pin l, x.1.toNat < maxPins s.cfg ∧ laneRows x ≤ 32 := by
    intro x hx
    refine ⟨by rwa [mem_parityLane hx], ?_⟩
    obtain h | h := List.mem_append.mp hx
    · obtain ⟨y, hy, rfl⟩ := List.mem_map.mp h
      exact widths y hy
    · rw [List.mem_singleton.mp h]
      exact Nat.le_of_ble_eq_true rfl
  obtain ⟨t, par, packs, lanes⟩ := runAll_packLanes (parityLane pin l) (lanesPacked_clear s) operands fun q => by
    rw [sum_laneRows_parityLane, List.length_nil, Nat.zero_add]
    exact room
  obtain ⟨length, odd⟩ := lanes.of_parityLane hp
  refine ⟨t, ?packed, length, fun same => ?asked⟩
  case packed =>
    rw [lanePacking_eq, runAll_cons (completes_clear s) packs]
    simp [parityLane, allOk, List.replicate_succ]
  case asked =>
    have flushed : t.wcur = 0 := by rw [lanes.frame]; rfl
    have cfg : t.cfg = s.cfg := lanes.cfg_eq
    obtain ⟨rs, u, run⟩ := runAll_laneUnpacking pin l (s := { t with payload := changed }) flushed (cfg.symm ▸ hpin) widths
      (same.trans length)
    refine ⟨rs, _, u, run, ?_⟩
    have columns := laneChanges_odd t.payload changed pin.toNat
    rw [length, odd, Bool.xor_true] at columns
    rw [← columns, ← boolWord_decide]
    rfl

end Sys2Proof.Machine

/-! The neutral commands of different lanes commute (41_neutral.md R180). -/

namespace Sys2Proof.Machine

open Sys2Proof Sys2Proof.Spec

/-! ## Different lanes commute (41_neutral.md R180) -/

/-- The lane registers are what their accessors read. -/
theorem State.lanes_ext {s t : State} (frame : t = { s with pincur := t.pincur, par := t.par })
    (cursor : ∀ q, t.cursor q = s.cursor q) (parity : ∀ q, t.parity q = s.parity q) : t = s := by
  have pincur : t.pincur = s.pincur := by
    apply Vector.ext
    intro i hi
    simpa [State.cursor, hi] using cursor i
  rw [frame, pincur, State.par_ext parity]

/-- No rows of a lane with its own parity left are no move. -/
theorem State.moveLane_zero {p : Nat} (hp : p < 32) (s : State) : s.moveLane p 0 (s.parity p) = s := by
  refine State.lanes_ext rfl (fun q => ?_) fun q => ?_
  · rw [State.cursor_moveLane hp]
    split <;> rfl
  · rw [State.parity_moveLane hp]
    split_ifs with same
    · rw [same]
    · rfl

section

variable {p q : Nat} (hp : p < 32) (hq : q < 32) (ne : p ≠ q) (s : State)

include hp hq ne

theorem State.moveLane_comm (n n' : Nat) (par par' : Bool) :
    (s.moveLane p n par).moveLane q n' par' = (s.moveLane q n' par').moveLane p n par := by
  refine State.lanes_ext rfl (fun x => ?_) fun x => ?_
  · simp only [State.cursor_moveLane hp, State.cursor_moveLane hq]
    split_ifs <;> omega
  · simp only [State.parity_moveLane hp, State.parity_moveLane hq]
    split_ifs with atq atp
    · exact absurd (atp.symm.trans atq) ne
    all_goals rfl

/-- A pack on one lane leaves the rows that a pack on another finds in its own. -/
theorem laneBit_packedColumn_packedLane (v v' : Word) (n n' : Nat) (par : Bool) {row : Nat}
    (hrow : row < (packedColumn (packedLane s p v n par) q v' n').length) (col : Nat) :
    laneBit (packedColumn (packedLane s p v n par) q v' n') col row =
      if col = q ∧ s.cursor q ≤ row ∧ row < s.cursor q + n' then v'.toNat.testBit (row - s.cursor q)
      else if col = p ∧ s.cursor p ≤ row ∧ row < s.cursor p + n then v.toNat.testBit (row - s.cursor p)
      else if row < s.payload.length then laneBit s.payload col row else s.cfg.neutralFill.toNat.testBit col := by
  have cursor : (packedLane s p v n par).cursor q = s.cursor q := (State.cursor_moveLane hp s n par q).trans (if_neg ne.symm)
  have length : (packedLane s p v n par).payload.length = max s.payload.length (s.cursor p + n) := length_packedColumn s p v n
  have own : (col = q ∧ (packedLane s p v n par).cursor col ≤ row ∧ row < (packedLane s p v n par).cursor col + n') ↔
      col = q ∧ s.cursor q ≤ row ∧ row < s.cursor q + n' :=
    and_congr_right fun same => by rw [same, cursor]
  have first : (col = p ∧ s.cursor col ≤ row ∧ row < s.cursor col + n) ↔ col = p ∧ s.cursor p ≤ row ∧ row < s.cursor p + n :=
    and_congr_right fun same => by rw [same]
  rw [laneBit_packedColumn hq _ v' n' hrow]
  by_cases written : col = q ∧ s.cursor q ≤ row ∧ row < s.cursor q + n'
  · rw [if_pos (own.mpr written), if_pos written, written.1, cursor]
  · rw [if_neg (mt own.mp written), if_neg written, length]
    by_cases kept : row < max s.payload.length (s.cursor p + n)
    · rw [if_pos kept]
      refine (laneBit_packedColumn hp s v n (kept.trans_eq (length_packedColumn s p v n).symm) col).trans ?_
      refine if_ctx_congr first (fun h => ?_) fun _ => rfl
      rw [h.1]
    · rw [if_neg kept, if_neg (by omega), if_neg (by omega)]
      rfl

theorem packedColumn_comm (v v' : Word) (n n' : Nat) (par par' : Bool) :
    packedColumn (packedLane s p v n par) q v' n' = packedColumn (packedLane s q v' n' par') p v n := by
  have length : (packedColumn (packedLane s p v n par) q v' n').length = (packedColumn (packedLane s q v' n' par') p v n).length := by
    rw [length_packedColumn, length_packedColumn]
    have first : (packedLane s p v n par).payload.length = max s.payload.length (s.cursor p + n) := length_packedColumn s p v n
    have second : (packedLane s q v' n' par').payload.length = max s.payload.length (s.cursor q + n') := length_packedColumn s q v' n'
    have atq : (packedLane s p v n par).cursor q = s.cursor q := (State.cursor_moveLane hp s n par q).trans (if_neg ne.symm)
    have atp : (packedLane s q v' n' par').cursor p = s.cursor p := (State.cursor_moveLane hq s n' par' p).trans (if_neg ne)
    omega
  refine payload_ext length fun row hrow col _ => ?_
  rw [laneBit_packedColumn_packedLane hp hq ne s v v' n n' par hrow,
    laneBit_packedColumn_packedLane hq hp ne.symm s v' v n' n par' (hrow.trans_eq length)]
  split_ifs <;> try omega
  all_goals rfl

theorem packedLane_comm (v v' : Word) (n n' : Nat) (par par' : Bool) :
    packedLane (packedLane s p v n par) q v' n' par' = packedLane (packedLane s q v' n' par') p v n par := by
  have lanes := State.moveLane_comm hp hq ne s n n' par par'
  calc packedLane (packedLane s p v n par) q v' n' par'
      = { (s.moveLane p n par).moveLane q n' par' with
          payload := packedColumn (packedLane s p v n par) q v' n', pmode := .neutral } := rfl
    _ = { (s.moveLane q n' par').moveLane p n par with
          payload := packedColumn (packedLane s q v' n' par') p v n, pmode := .neutral } := by
        rw [lanes, packedColumn_comm hp hq ne s v v' n n' par par']
    _ = packedLane (packedLane s q v' n' par') p v n par := rfl

end

/-! ## What the neutral commands are to their lane -/

/-- The state that an unpack of lane `p` that finds its rows makes. -/
def unpackedLane (s : State) (p n : Nat) (par : Bool) : State := { s with pmode := .neutral }.moveLane p n par

@[simp] theorem unpackedLane_free (s : State) (p n : Nat) (par : Bool) : (unpackedLane s p n par).free = s.free := rfl
@[simp] theorem unpackedLane_payload (s : State) (p n : Nat) (par : Bool) : (unpackedLane s p n par).payload = s.payload := rfl

section

variable {p q : Nat} (hp : p < 32) (ne : q ≠ p) (s : State) (n : Nat) (par : Bool)

include hp ne

theorem packedLane_parity_other (v : Word) : (packedLane s p v n par).parity q = s.parity q :=
  (State.parity_moveLane hp s n par q).trans (if_neg ne)

theorem unpackedLane_cursor_other : (unpackedLane s p n par).cursor q = s.cursor q :=
  (State.cursor_moveLane hp { s with pmode := .neutral } n par q).trans (if_neg ne)

theorem unpackedLane_parity_other : (unpackedLane s p n par).parity q = s.parity q :=
  (State.parity_moveLane hp { s with pmode := .neutral } n par q).trans (if_neg ne)

end

theorem State.answer_parity (s : State) (c : Status) (r : Word) (q : Nat) : (s.answer c r).parity q = s.parity q := rfl
theorem State.answer_cursor (s : State) (c : Status) (r : Word) (q : Nat) : (s.answer c r).cursor q = s.cursor q := rfl

/-- A response has no part in what the next command of a lane makes, but that it is replaced. -/
theorem packedLane_answer (s : State) (c : Status) (r : Word) (p : Nat) (v : Word) (n : Nat) (par : Bool) :
    packedLane (s.answer c r) p v n par = (packedLane s p v n par).answer c r := rfl

theorem unpackedLane_answer (s : State) (c : Status) (r : Word) (p n : Nat) (par : Bool) :
    unpackedLane (s.answer c r) p n par = (unpackedLane s p n par).answer c r := rfl

theorem unpackedLane_comm {p q : Nat} (hp : p < 32) (hq : q < 32) (ne : p ≠ q) (s : State) (n n' : Nat) (par par' : Bool) :
    unpackedLane (unpackedLane s p n par) q n' par' = unpackedLane (unpackedLane s q n' par') p n par :=
  State.moveLane_comm hp hq ne { s with pmode := .neutral } n n' par par'

/-- The state but for the response. -/
def State.forgetResp (s : State) : State := { s with resp := none }

theorem State.forgetResp_answer (s : State) (c : Status) (r : Word) : (s.answer c r).forgetResp = s.forgetResp := rfl

/-- A neutral command of lane `p`, told by its lane alone: a pack by the parity, an unpack by the parity, the rows and
the cursor. -/
inductive LaneCommand (i : Instr) (p : Nat) : Prop
  | pack (value : Bool → Word) (rows : Nat) (left : Bool → Bool)
      (accepted : ∀ {s t : State} {r : Word}, exec i s = .next t → t.resp = some ⟨.ok, r⟩ → p < 32 ∧ s.pass = .pack ∧
        t = (packedLane s p (value (s.parity p)) rows (left (s.parity p))).answer .ok 0)
  | unpack (rows : Nat) (value : Bool → List Word → Nat → Word) (left : Bool → List Word → Nat → Bool)
      (accepted : ∀ {s t : State} {r : Word}, exec i s = .next t → t.resp = some ⟨.ok, r⟩ → p < 32 ∧ s.pass = .unpack ∧
        ((0 < rows ∧ s.payload.length < s.cursor p + rows) ∧ t.free = s.free + 1 ∨
          ¬ (0 < rows ∧ s.payload.length < s.cursor p + rows) ∧
            t = (unpackedLane s p rows (left (s.parity p) s.payload (s.cursor p))).answer .ok
              (value (s.parity p) s.payload (s.cursor p))))

section

variable (p n : Nat) (v : Word) (s : State)

theorem packNeutralBody_ne_ok : packNeutralBody p v n s ≠ .error .ok := by
  unfold packNeutralBody
  dsimp only
  split_ifs <;> nofun

theorem packNeutralParityBody_ne_ok : packNeutralParityBody p s ≠ .error .ok := by
  unfold packNeutralParityBody
  dsimp only
  split_ifs <;> nofun

theorem unpackNeutralBody_ne_ok : unpackNeutralBody p n s ≠ .error .ok := by
  unfold unpackNeutralBody
  split_ifs <;> nofun

theorem unpackNeutralParityErrorBody_ne_ok : unpackNeutralParityErrorBody p s ≠ .error .ok := by
  unfold unpackNeutralParityErrorBody
  split_ifs <;> nofun

end

/-- An answer that is OK is that of an accepted command. -/
theorem ok_of_finish {s t : State} {x : Except Status (State × Word)} {r : Word} (refused : x ≠ .error .ok)
    (run : finish s x = .next t) (answered : t.resp = some ⟨.ok, r⟩) : ∃ u v, x = .ok (u, v) ∧ t = u.answer .ok v := by
  obtain done | ⟨c, error, rfl⟩ := finish_next_iff.mp run
  · exact done
  · cases answered
    exact absurd error refused

theorem ok_of_finish_noResult {s t : State} {x : Except Status State} {r : Word} (refused : x ≠ .error .ok)
    (run : finish s (noResult x) = .next t) (answered : t.resp = some ⟨.ok, r⟩) : ∃ u, x = .ok u ∧ t = u.answer .ok 0 := by
  obtain ⟨u, v, ok, rfl⟩ := ok_of_finish (mt noResult_error_iff.mp refused) run answered
  obtain ⟨accepted, rfl⟩ := noResult_ok_iff.mp ok
  exact ⟨u, accepted, rfl⟩

theorem laneCommand_packNeutral (pin n : Slot) (v : Word) : LaneCommand (.packNeutral pin v n) pin.toNat := by
  refine .pack (fun _ => v) n.toNat (fun par => par ^^ oddOnes v n.toNat) fun {s t r} run answered => ?_
  obtain ⟨u, body, rfl⟩ := ok_of_finish_noResult (packNeutralBody_ne_ok _ _ _ _) run answered
  obtain ⟨hpin, hn, pass, mode, room, -⟩ := packNeutralBody_ok body
  rw [packNeutralBody_eq v hpin hn pass mode, if_pos room] at body
  exact ⟨hpin.trans_le (maxPins_le _), pass, congrArg (State.answer · .ok 0) (Except.ok.inj body).symm⟩

theorem laneCommand_packNeutralParity (pin : Slot) : LaneCommand (.packNeutralParity pin) pin.toNat := by
  refine .pack boolWord 1 (fun _ => true) fun {s t r} run answered => ?_
  obtain ⟨u, body, rfl⟩ := ok_of_finish_noResult (packNeutralParityBody_ne_ok _ _) run answered
  obtain ⟨hpin, pass, mode, room, -⟩ := packNeutralParityBody_ok body
  rw [packNeutralParityBody_eq hpin pass mode, if_pos room] at body
  exact ⟨hpin.trans_le (maxPins_le _), pass, congrArg (State.answer · .ok 0) (Except.ok.inj body).symm⟩

theorem laneCommand_unpackNeutral (pin n : Slot) : LaneCommand (.unpackNeutral pin n) pin.toNat := by
  refine .unpack n.toNat (fun _ payload row => getBits payload pin.toNat row n.toNat)
    (fun par payload row => par ^^ oddOnes (getBits payload pin.toNat row n.toNat) n.toNat) fun {s t r} run answered => ?_
  obtain ⟨u, v, body, rfl⟩ := ok_of_finish (unpackNeutralBody_ne_ok _ _ _) run answered
  obtain ⟨hpin, hn, pass, mode, read⟩ := unpackNeutralBody_ok body
  have hp : pin.toNat < 32 := hpin.trans_le (maxPins_le _)
  refine ⟨hp, pass, ?_⟩
  obtain ⟨zero, rfl, rfl⟩ | ⟨some, short, rfl, rfl⟩ | ⟨some, rows, rfl, rfl⟩ := read
  · refine .inr ⟨fun h => by omega, ?_⟩
    have value : getBits s.payload pin.toNat (s.cursor pin.toNat) 0 = 0 := rfl
    have left : (s.parity pin.toNat ^^ oddOnes 0 0) = s.parity pin.toNat := Bool.xor_false _
    rw [zero, value, left]
    exact congrArg (State.answer · .ok 0) (State.moveLane_zero hp { s with pmode := .neutral }).symm
  · exact .inl ⟨⟨some, short⟩, rfl⟩
  · refine .inr ⟨fun h => by omega, ?_⟩
    rw [foldParityBits_eq_xor_oddOnes]
    rfl

theorem laneCommand_unpackNeutralParityError (pin : Slot) : LaneCommand (.unpackNeutralParityError pin) pin.toNat := by
  refine .unpack 1 (fun par payload row => boolWord (laneBit payload pin.toNat row != par)) (fun _ _ _ => true)
    fun {s t r} run answered => ?_
  obtain ⟨u, v, body, rfl⟩ := ok_of_finish (unpackNeutralParityErrorBody_ne_ok _ _) run answered
  obtain ⟨hpin, pass, mode, read⟩ := unpackNeutralParityErrorBody_ok body
  refine ⟨hpin.trans_le (maxPins_le _), pass, ?_⟩
  obtain ⟨short, rfl, rfl⟩ | ⟨row, rfl, rfl⟩ := read
  · exact .inl ⟨by omega, rfl⟩
  · exact .inr ⟨fun h => by omega, rfl⟩

theorem laneCommand_of_pinOf {i : Instr} {pin : Slot} (h : pinOf i = some pin) : LaneCommand i pin.toNat := by
  unfold pinOf at h
  split at h <;> cases h
  · exact laneCommand_packNeutral _ _ _
  · exact laneCommand_packNeutralParity _
  · exact laneCommand_unpackNeutral _ _
  · exact laneCommand_unpackNeutralParityError _

section

variable {s a b c d : State} {i j : Instr} {p q : Nat} {ra rb rc rd : Word} (ne : p ≠ q)
  (ha : exec i s = .next a) (hb : exec j a = .next b) (hc : exec j s = .next c) (hd : exec i c = .next d)
  (oka : a.resp = some ⟨.ok, ra⟩) (okb : b.resp = some ⟨.ok, rb⟩) (okc : c.resp = some ⟨.ok, rc⟩) (okd : d.resp = some ⟨.ok, rd⟩)

include ne ha hb hc hd oka okb okc okd

/-- Commands of two lanes that are accepted in either order commute, if no unpack runs out of data. -/
theorem LaneCommand.commute (hi : LaneCommand i p) (hj : LaneCommand j q) (free : b.free = s.free) :
    b.forgetResp = d.forgetResp ∧ b.resp = c.resp ∧ d.resp = a.resp := by
  obtain ⟨v, n, left, packi⟩ | ⟨n, v, left, unpacki⟩ := hi <;>
    obtain ⟨v', n', left', packj⟩ | ⟨n', v', left', unpackj⟩ := hj
  case pack.pack =>
    obtain ⟨hp, pass, rfl⟩ := packi ha oka
    obtain ⟨hq, -, rfl⟩ := packj hb okb
    obtain ⟨-, -, rfl⟩ := packj hc okc
    obtain ⟨-, -, rfl⟩ := packi hd okd
    refine ⟨?_, by rw [State.answer_resp, State.answer_resp], by rw [State.answer_resp, State.answer_resp]⟩
    rw [State.answer_parity, State.answer_parity, packedLane_parity_other hp ne.symm, packedLane_parity_other hq ne,
      packedLane_answer, packedLane_answer, packedLane_comm hp hq ne]
  case pack.unpack => exact nomatch (packi ha oka).2.1.symm.trans (unpackj hc okc).2.1
  case unpack.pack => exact nomatch (unpacki ha oka).2.1.symm.trans (packj hc okc).2.1
  case unpack.unpack =>
    obtain ⟨hp, pass, stepa⟩ := unpacki ha oka
    obtain ⟨hq, -, stepb⟩ := unpackj hb okb
    obtain ⟨-, -, stepc⟩ := unpackj hc okc
    obtain ⟨-, -, stepd⟩ := unpacki hd okd
    have first : ¬ (0 < n ∧ s.payload.length < s.cursor p + n) ∧
        a = (unpackedLane s p n (left (s.parity p) s.payload (s.cursor p))).answer .ok (v (s.parity p) s.payload (s.cursor p)) := by
      obtain ⟨-, taken⟩ | found := stepa
      · obtain ⟨-, taken'⟩ | ⟨-, rfl⟩ := stepb
        · omega
        · have same : a.free = s.free := free
          omega
      · exact found
    obtain ⟨rowsi, rfl⟩ := first
    rw [State.answer_parity, State.answer_cursor, unpackedLane_parity_other hp ne.symm, unpackedLane_cursor_other hp ne.symm,
      State.answer_payload, unpackedLane_payload] at stepb
    obtain ⟨-, taken⟩ | ⟨rowsj, rfl⟩ := stepb
    · rw [free, State.answer_free, unpackedLane_free] at taken
      omega
    obtain ⟨short, -⟩ | ⟨-, rfl⟩ := stepc
    · exact absurd short rowsj
    rw [State.answer_parity, State.answer_cursor, unpackedLane_parity_other hq ne, unpackedLane_cursor_other hq ne,
      State.answer_payload, unpackedLane_payload] at stepd
    obtain ⟨short, -⟩ | ⟨-, rfl⟩ := stepd
    · exact absurd short rowsi
    refine ⟨?_, by rw [State.answer_resp, State.answer_resp], by rw [State.answer_resp, State.answer_resp]⟩
    rw [unpackedLane_answer, unpackedLane_answer, unpackedLane_comm hp hq ne]
    simp only [State.forgetResp_answer]

end

/-- Settles O38: a neutral command is told by its lane, and the lanes commute. -/
theorem lanesCommute : Obligations.LanesCommute := by
  unfold Obligations.LanesCommute
  intro s a b c d i j p q pini pinj ne ha hb hc hd answered free
  obtain ⟨ra, oka⟩ := answered a (by simp)
  obtain ⟨rb, okb⟩ := answered b (by simp)
  obtain ⟨rc, okc⟩ := answered c (by simp)
  obtain ⟨rd, okd⟩ := answered d (by simp)
  exact LaneCommand.commute (fun h => ne (BitVec.eq_of_toNat_eq h)) ha hb hc hd oka okb okc okd (laneCommand_of_pinOf pini)
    (laneCommand_of_pinOf pinj) free

end Sys2Proof.Machine

/-! The header word as a number (30_encoding.md R104, 42_header_trailer.md R210). -/

namespace Sys2Proof.Machine

open Sys2Proof Sys2Proof.Spec

section

variable (wordId : BitVec 4) (version format : BitVec 3) (seqno : BitVec 6) (crate modNo slices2 slices1 : BitVec 4)

/-- `hdr_encode` (30_encoding.md R104). -/
theorem headerWord_toNat : (headerWord wordId version format seqno crate modNo slices2 slices1).toNat =
    wordId.toNat * 2 ^ 28 + version.toNat * 2 ^ 25 + format.toNat * 2 ^ 22 + seqno.toNat * 2 ^ 16 + crate.toNat * 2 ^ 12 +
      modNo.toNat * 2 ^ 8 + slices2.toNat * 2 ^ 4 + slices1.toNat := by
  unfold headerWord
  repeat rw [toNat_append_eq_add]
  ring

/-- Each slice of 30_encoding.md R104 holds its field. -/
theorem headerWord_fieldBits :
    (List.range 8).map (fieldBits headerFields (headerWord wordId version format seqno crate modNo slices2 slices1)) =
      [wordId.toNat, version.toNat, format.toNat, seqno.toNat, crate.toNat, modNo.toNat, slices2.toNat, slices1.toNat] := by
  have slices (w : Word) : (List.range 8).map (fieldBits headerFields w) =
    [bits w 31 28, bits w 27 25, bits w 24 22, bits w 21 16, bits w 15 12, bits w 11 8, bits w 7 4, bits w 3 0] := rfl
  rw [slices]
  simp [bits_eq_toNat_extractLsb']

end

/-- A slice as the field it is. -/
theorem ofNat_bits (w : Word) (hi lo : Nat) : BitVec.ofNat (hi - lo + 1) (bits w hi lo) = w.extractLsb' lo (hi - lo + 1) := by
  rw [bits_eq_toNat_extractLsb', BitVec.ofNat_toNat, BitVec.setWidth_eq]

theorem headerWord_bits (w : Word) :
    headerWord (BitVec.ofNat 4 (bits w 31 28)) (BitVec.ofNat 3 (bits w 27 25)) (BitVec.ofNat 3 (bits w 24 22))
      (BitVec.ofNat 6 (bits w 21 16)) (BitVec.ofNat 4 (bits w 15 12)) (BitVec.ofNat 4 (bits w 11 8))
      (BitVec.ofNat 4 (bits w 7 4)) (BitVec.ofNat 4 (bits w 3 0)) = w := by
  rw [ofNat_bits w 31 28, ofNat_bits w 27 25, ofNat_bits w 24 22, ofNat_bits w 21 16, ofNat_bits w 15 12, ofNat_bits w 11 8,
    ofNat_bits w 7 4, ofNat_bits w 3 0]
  exact headerWord_fields w

/-- Settles O40. -/
theorem headerFieldsTileTheWord : Obligations.HeaderFieldsTileTheWord := by
  unfold Obligations.HeaderFieldsTileTheWord
  refine ⟨?_, headerWord_bits⟩
  rintro wordId version format seqno crate modNo slices2 slices1 w rfl
  exact ⟨headerWord_toNat .., headerWord_fieldBits ..⟩

end Sys2Proof.Machine

/-! The reader over a list of words (42_header_trailer.md R233) and what it makes of the words that WRITE appends (R235). -/

namespace Sys2Proof.Machine

open Sys2Proof Sys2Proof.Spec

/-! ## One word and the list -/

/-- The Data words at the front of a list. -/
def dataRun (ws : List Word) : List Word := ws.takeWhile fun w => wordtype w == .data

/-- The Status word right after them, if there is one. -/
def trailerIn (ws : List Word) : Option Word :=
  (ws.dropWhile fun w => wordtype w == .data).head?.filter fun w => wordtype w == .status

section

variable {w : Word} (ws : List Word)

theorem dataRun_cons_data (h : wordtype w = .data) : dataRun (w :: ws) = w :: dataRun ws :=
  List.takeWhile_cons_of_pos (by rw [h]; rfl)

theorem dataRun_cons_other (h : wordtype w ≠ .data) : dataRun (w :: ws) = [] :=
  List.takeWhile_cons_of_neg (by simpa using h)

theorem trailerIn_cons_data (h : wordtype w = .data) : trailerIn (w :: ws) = trailerIn ws := by
  rw [trailerIn, List.dropWhile_cons_of_pos (by rw [h]; rfl), trailerIn]

theorem trailerIn_cons_status (h : wordtype w = .status) : trailerIn (w :: ws) = some w := by
  rw [trailerIn, List.dropWhile_cons_of_neg (by rw [h]; decide), List.head?_cons, Option.filter_some_pos (by rw [h]; rfl)]

theorem trailerIn_cons_header (h : wordtype w = .header) : trailerIn (w :: ws) = none := by
  rw [trailerIn, List.dropWhile_cons_of_neg (by rw [h]; decide), List.head?_cons, Option.filter_some_neg (by rw [h]; decide)]

variable {s t : State}

/-- A word that is taken, and the list after it. -/
theorem readWords_cons_taken (body : readWordBody w s = .ok (t, 1)) :
    readWords (w :: ws) s = ((readWords ws (t.answer .ok 1)).1 + 1, (readWords ws (t.answer .ok 1)).2) := by
  rw [readWords, exec_readWord, body]
  rfl

/-- A word that is declined ends the reading. -/
theorem readWords_cons_declined (body : readWordBody w s = .ok (t, 0)) : readWords (w :: ws) s = (0, t.answer .ok 0) := by
  rw [readWords, exec_readWord, body]
  rfl

/-- After the sub-block nothing more is taken. -/
theorem readWords_done (h : s.rd = .done) : ∃ resp, readWords ws s = (0, { s with resp := resp }) := by
  cases ws with
  | nil => exact ⟨s.resp, rfl⟩
  | cons w ws => exact ⟨_, readWords_cons_declined ws (readWordBody_done h)⟩

end

/-! ## The sub-block -/

/-- From its Data words on, with room for them: they are appended, and the trailer is taken if it follows. -/
theorem readWords_inData (ws : List Word) {s : State} (hrd : s.rd = .inData)
    (room : fits s.cfg (s.payload.length + (dataRun ws).length) = true) :
    ∃ rd resp, readWords ws s = ((dataRun ws).length + (trailerIn ws).toList.length,
      { s with payload := s.payload ++ dataRun ws, trl := (trailerIn ws).getD s.trl, rd := rd, resp := resp }) := by
  induction ws generalizing s with
  | nil => exact ⟨s.rd, s.resp, by simp [readWords, dataRun, trailerIn]⟩
  | cons w ws ih =>
    cases kind : wordtype w with
    | data =>
      rw [dataRun_cons_data ws kind, List.length_cons] at room
      rw [dataRun_cons_data ws kind, trailerIn_cons_data ws kind,
        readWords_cons_taken ws (readWordBody_data hrd kind (fits_mono (by omega) room))]
      obtain ⟨rd, resp, tail⟩ := ih (s := State.answer { s with payload := s.payload ++ [w] } .ok 1) hrd
        (fits_mono (by simp; omega) room)
      refine ⟨rd, resp, ?_⟩
      rw [tail, List.length_cons]
      simp [State.answer, Nat.add_right_comm]
    | status =>
      obtain ⟨resp, rest⟩ := readWords_done ws (s := State.answer { s with trl := w, rd := .done } .ok 1) rfl
      rw [dataRun_cons_other ws (by rw [kind]; decide), trailerIn_cons_status ws kind,
        readWords_cons_taken ws (readWordBody_status hrd kind), rest]
      exact ⟨.done, resp, by simp [State.answer]⟩
    | header =>
      rw [dataRun_cons_other ws (by rw [kind]; decide), trailerIn_cons_header ws kind,
        readWords_cons_declined ws (readWordBody_nextHeader hrd kind)]
      exact ⟨.done, _, by simp [State.answer]; rfl⟩

/-- The same with the header before it. -/
theorem readWords_expectHeader {s : State} {h : Word} {ws : List Word} (hrd : s.rd = .expectHeader) (header : wordtype h = .header)
    (room : fits s.cfg (s.payload.length + (dataRun ws).length) = true) :
    ∃ rd resp, readWords (h :: ws) s = ((dataRun ws).length + (trailerIn ws).toList.length + 1,
      { s with hdr := h, payload := s.payload ++ dataRun ws, trl := (trailerIn ws).getD s.trl, rd := rd, resp := resp }) := by
  obtain ⟨rd, resp, rest⟩ := readWords_inData ws (s := State.answer { s with hdr := h, rd := .inData } .ok 1) rfl room
  exact ⟨rd, resp, by rw [readWords_cons_taken ws (readWordBody_header hrd header), rest]; rfl⟩

/-- A block that begins to read takes a header and the sub-block after it, with room for its Data words. -/
theorem readWords_readBegin {s b : State} {h : Word} {ws : List Word} (header : wordtype h = .header)
    (room : fits s.cfg (dataRun ws).length = true) (begins : exec .readBegin s = .next b) :
    ∃ rd resp, readWords (h :: ws) b = ((dataRun ws).length + (trailerIn ws).toList.length + 1,
      { clearState s with hdr := h, payload := dataRun ws, trl := (trailerIn ws).getD 0, rd := rd, resp := resp }) := by
  obtain rfl : State.answer { clearState s with rd := .expectHeader } .ok 0 = b :=
    Host.Outcome.next.inj ((completes_readBegin s).symm.trans begins)
  exact readWords_expectHeader (s := State.answer { clearState s with rd := .expectHeader } .ok 0) rfl header
    (fits_mono (Nat.zero_add _).le room)

/-- Settles O48. -/
theorem readTakesOneSubBlock : Obligations.ReadTakesOneSubBlock := by
  unfold Obligations.ReadTakesOneSubBlock
  intro s b h ws header room begins
  obtain ⟨rd, resp, read⟩ := readWords_readBegin (ws := ws) header
    (fits_mono (List.takeWhile_sublist _).length_le room) begins
  rw [read]
  refine ⟨_, rfl, rfl, rfl, fun w next status => ?_, fun other => ?_⟩
  · have found : trailerIn ws = some w := by
      rw [trailerIn, next, Option.filter_some_pos (by rw [status]; rfl)]
    rw [found]
    exact ⟨rfl, rfl⟩
  · have none : trailerIn ws = none := by
      rw [trailerIn, Option.filter_eq_none_iff]
      intro w next status
      exact other w next (by simpa using status)
    rw [none]
    exact ⟨rfl, rfl⟩

/-! ## What WRITE appends -/

/-- Data words, and after them at most a trailer. -/
theorem dataRun_append {payload : List Word} (data : ∀ w ∈ payload, wordtype w = .data) {trailer : Option Word}
    (status : ∀ w ∈ trailer, wordtype w = .status) : dataRun (payload ++ trailer.toList) = payload := by
  rw [dataRun, List.takeWhile_append_of_pos (by simpa using data)]
  cases trailer with
  | none => simp
  | some w => simp [status w rfl]

theorem trailerIn_append {payload : List Word} (data : ∀ w ∈ payload, wordtype w = .data) {trailer : Option Word}
    (status : ∀ w ∈ trailer, wordtype w = .status) : trailerIn (payload ++ trailer.toList) = trailer := by
  rw [trailerIn, List.dropWhile_append_of_pos (by simpa using data)]
  cases trailer with
  | none => simp
  | some w => simp [status w rfl]

/-- The trailer that a sub-block carries (42_header_trailer.md R220). -/
def presentTrailer (trl : Word) : Option Word := if trl &&& 0x0FC000DF ≠ 0 then some trl else none

theorem presentTrailer_status {s : State} (inv : s.Inv) {w : Word} (h : w ∈ presentTrailer s.trl) : wordtype w = .status := by
  rw [presentTrailer] at h
  split at h <;> cases h
  rename_i present
  refine inv.trl_status.resolve_left fun zero => present ?_
  rw [zero]
  rfl

theorem getD_presentTrailer (trl : Word) :
    (presentTrailer trl).getD 0 = if trl &&& 0x0FC000DF ≠ 0 then trl else 0 := by
  rw [presentTrailer]
  split <;> rfl

theorem subBlockWords_eq_cons (s : State) : subBlockWords s = s.hdr :: (s.payload ++ (presentTrailer s.trl).toList) := by
  rw [subBlockWords_eq, presentTrailer]
  split <;> simp

/-- What a block `u` that began to read holds after the sub-block of `s`. -/
def subBlockRead (u s : State) (rd : Reader) (resp : Option Response) : State :=
  { clearState u with hdr := s.hdr, payload := s.payload, trl := (presentTrailer s.trl).getD 0, rd := rd, resp := resp }

/-- Another block with the same capacity takes every word of a sub-block and holds its header, payload and trailer. -/
theorem readWords_subBlockWords {s u b : State} (inv : s.Inv) (header : wordtype s.hdr = .header)
    (data : ∀ w ∈ s.payload, wordtype w = .data) (cfg : u.cfg = s.cfg) (begins : exec .readBegin u = .next b) :
    ∃ rd resp, readWords (subBlockWords s) b = ((subBlockWords s).length, subBlockRead u s rd resp) := by
  have run := dataRun_append data fun w => presentTrailer_status inv (w := w)
  obtain ⟨rd, resp, read⟩ := readWords_readBegin header (cfg ▸ run.symm ▸ inv.fits_max) begins
  refine ⟨rd, resp, ?_⟩
  rw [subBlockWords_eq_cons, read, run, trailerIn_append data fun w => presentTrailer_status inv, List.length_cons,
    List.length_append]
  rfl

/-- Settles O49: WRITE appends the sub-block, and the reader takes it. -/
theorem writeThenReadRestores : Obligations.WriteThenReadRestores := by
  unfold Obligations.WriteThenReadRestores
  intro s u b inv header flushed data cfg begins
  obtain ⟨rd, resp, read⟩ := readWords_subBlockWords inv header data cfg begins
  have written : (s.out ++ subBlockWords s).drop s.out.length = subBlockWords s := List.drop_left
  refine ⟨_, subBlockRead u s rd resp, _, completes_of_ok (exec_write s) (writeBody_ok_iff.mpr ⟨header, flushed, rfl, rfl⟩),
    by rw [written, read], rfl, rfl, ?_, getD_presentTrailer s.trl⟩
  calc (presentTrailer s.trl).getD 0 &&& 0x0FC000DF = (if s.trl &&& 0x0FC000DF ≠ 0 then s.trl else 0) &&& 0x0FC000DF := by
        rw [getD_presentTrailer]
    _ = s.trl &&& 0x0FC000DF := by
        split
        · rfl
        · rename_i absent
          rw [not_not.mp absent]
          rfl

end Sys2Proof.Machine

/-! The marshaller's round trip, serial (43_marshaller.md R271): what MPACK packed MUNPACK reads back, wherever the payload and
the header stand. -/

namespace Sys2Proof.Machine

open Sys2Proof Sys2Proof.Spec

/-! ## Keys listed twice -/

/-- An entry's key has a last entry. -/
theorem exists_last_of_key {α β : Type} [DecidableEq β] (key : α → β) {l : List α} {x : α} (hx : x ∈ l) :
    ∃ before y after, l = before ++ y :: after ∧ key y = key x ∧ ∀ z ∈ after, key z ≠ key x := by
  induction l generalizing x with
  | nil => cases hx
  | cons a l ih =>
    by_cases again : ∃ z ∈ l, key z = key x
    · obtain ⟨z, hz, same⟩ := again
      obtain ⟨before, y, after, rfl, hy, last⟩ := ih hz
      exact ⟨a :: before, y, after, rfl, hy.trans same, fun w hw => same ▸ last w hw⟩
    · obtain rfl | later := List.mem_cons.mp hx
      · exact ⟨[], x, l, rfl, rfl, fun z hz same => again ⟨z, hz, same⟩⟩
      · exact absurd ⟨x, later, rfl⟩ again

/-! ## Items of a bitstream -/

/-- The bits of one item, between those before it and whatever follows. -/
theorem take_drop_itemBits (s : State) (before : List SerialItem) (it : SerialItem) (after : List SerialItem) (rest : List Bool) :
    ((itemBits s (before ++ it :: after) ++ rest).drop (before.map (·.width)).sum).take it.width =
      lowBits (s.field it.fid it.slice it.index) it.width := by
  have split : itemBits s (before ++ it :: after) ++ rest =
      itemBits s before ++ (lowBits (s.field it.fid it.slice it.index) it.width ++ (itemBits s after ++ rest)) := by
    simp [itemBits]
  rw [split, List.drop_left' (length_itemBits s before), List.take_left' (length_lowBits _ _)]

/-- A payload with the items' bits, and a whole number of words. -/
structure HoldsItems (s : State) (L : SerialLayout) (payload : List Word) : Prop where
  room : serialBits L ≤ payload.length * maxbits L.streamed
  stream : ∃ padding, bitstream payload (maxbits L.streamed) = itemBits s L.items ++ padding

theorem holdsItems_of_stream {s : State} {L : SerialLayout} {payload : List Word} {padding : List Bool}
    (h : bitstream payload (maxbits L.streamed) = itemBits s L.items ++ padding) : HoldsItems s L payload where
  room := by
    have length := congrArg List.length h
    rw [length_bitstream, List.length_append, length_itemBits] at length
    rw [length, serialBits]
    exact Nat.le_add_right _ _
  stream := ⟨padding, h⟩

/-- MUNPACK of a payload that holds the fields of `s` brings them back. -/
theorem munpack_of_holdsItems {s v : State} {L : SerialLayout} (hwf : v.fields.wf) (header : wordtype v.hdr = .header)
    (flushed : v.wcur = 0) (layout : layoutOf v.cfg v.kind v.hdr = some (.serial L)) (modes : v.streamed = true → L.streamed = true)
    (holds : HoldsItems s L v.payload) (widths : ∀ it ∈ L.items, (s.field it.fid it.slice it.index).toNat < 2 ^ it.width) :
    ∃ t, Completes .munpack v t 1 ∧ t.payload = v.payload ∧
      ∀ it ∈ L.items, t.field it.fid it.slice it.index = s.field it.fid it.slice it.index := by
  obtain ⟨t, completes, frame, -, -, -, -, items, -⟩ := munpackReadsASerialLayout v L hwf header flushed layout modes
  rw [if_pos holds.room] at completes
  refine ⟨t, completes, by rw [frame], fun it hit => ?_⟩
  obtain ⟨before, y, after, split, same, last⟩ := exists_last_of_key serialKey hit
  have value : t.field y.fid y.slice y.index = s.field y.fid y.slice y.index := by
    have within : (before.map (·.width)).sum + y.width ≤ v.payload.length * maxbits L.streamed := by
      refine le_trans ?_ holds.room
      simp [serialBits, split, ← Nat.add_assoc]
    obtain ⟨lt, bits⟩ := items before y after split within fun x hx again =>
      last x hx (by rw [← same]; simpa [serialKey] using again)
    obtain ⟨padding, stream⟩ := holds.stream
    rw [stream, split, take_drop_itemBits] at bits
    exact eq_of_wordBits_eq lt (widths y (by simp [split])) bits
  obtain ⟨fid, key⟩ := Prod.mk.inj same
  obtain ⟨slice, index⟩ := Prod.mk.inj key
  rwa [fid, slice, index] at value

/-! ## On the same block, and through another -/

/-- Settles O57. -/
theorem serialMarshallerRoundTrip : Obligations.SerialMarshallerRoundTrip := by
  unfold Obligations.SerialMarshallerRoundTrip
  intro s L inv header pass mode empty layout modes room widths
  obtain ⟨q, packs, frame, length, stream⟩ := (mpackPacksASerialLayout s L inv header pass mode empty layout modes).2 room
  have holds : HoldsItems s L q.payload := holdsItems_of_stream stream
  have qfields : q.fields.wf := by rw [frame]; exact inv.fields_wf
  have qheader : wordtype q.hdr = .header := by rw [frame]; exact header
  have qwcur : q.wcur = 0 := by rw [frame]; exact (inv.not_serial (by rw [mode]; nofun)).1
  have qlayout : layoutOf q.cfg q.kind q.hdr = some (.serial L) := by rw [frame]; exact layout
  have qmodes : q.streamed = true → L.streamed = true := by rw [frame]; exact id
  obtain ⟨-, -, slices, channels⟩ := layoutOf_serial layout
  refine ⟨?same, fun p u b packed data cfg kind streamed begins => ?other⟩
  case same =>
    obtain ⟨t, completes, payload, back⟩ := munpack_of_holdsItems (v := q.answer .ok 1) qfields qheader qwcur qlayout qmodes
      holds widths
    refine ⟨t.answer .ok 1, runAll_cons packs (runAll_cons completes rfl), back, fun ppm => ?_, slices⟩
    obtain ⟨n, words⟩ := channels ppm
    refine ⟨n, ?_⟩
    rw [State.answer_payload, payload, State.answer_payload, length, bits_eq_toNat_extractLsb' s.hdr 3 0,
      bits_eq_toNat_extractLsb' s.hdr 7 4]
    exact words
  case other =>
    obtain rfl : q.answer .ok 1 = p := Host.Outcome.next.inj (packs.symm.trans packed)
    have qcfg : (q.answer .ok 1).cfg = s.cfg := by rw [frame]; rfl
    have ulayout : layoutOf u.cfg u.kind q.hdr = some (.serial L) := by rw [cfg, kind, frame]; exact layout
    obtain ⟨rd, resp, read⟩ := readWords_subBlockWords (inv.exec packs) qheader data (cfg.trans qcfg.symm) begins
    obtain ⟨t, completes, -, back⟩ := munpack_of_holdsItems (v := subBlockRead u (q.answer .ok 1) rd resp)
      (clearState_inv u).fields_wf qheader rfl ulayout streamed holds widths
    rw [read]
    exact ⟨t.answer .ok 1, completes, rfl, back⟩

end Sys2Proof.Machine

/-! The marshaller's round trip, neutral (43_marshaller.md R271): in every slice the lanes hold the fields and the odd parity,
and MUNPACK reads both back, wherever the payload and the header stand. -/

namespace Sys2Proof.Machine

open Sys2Proof Sys2Proof.Spec

/-! ## What a slice holds -/

theorem laneData_append (s : State) (slice : Slot) (a b : List NeutralItem) (pin : Nat) :
    laneData s slice (a ++ b) pin = laneData s slice a pin ++ laneData s slice b pin := by
  simp [laneData]

/-- The data of a lane with its parity is an odd number of ones (41_neutral.md R178). -/
theorem oddCount_laneSlice (s : State) (L : NeutralLayout) (pin slice : Nat) : oddCount (laneSlice s L pin slice) = true := by
  rw [laneSlice_eq, oddCount_append]
  generalize oddCount (laneData s (BitVec.ofNat 8 slice) L.items pin) = odd
  cases odd <;> rfl

/-- An item has its rows in its lane's, below those of the items before it and above the parity's. -/
theorem NeutralLayoutOk.item_rows {c : Config} {L : NeutralLayout} (hL : NeutralLayoutOk c L) {before after : List NeutralItem}
    {it : NeutralItem} (split : L.items = before ++ it :: after) :
    laneBits { L with items := before } it.pin + it.width < L.bpspp := by
  have all := hL.laneBits_eq it.pin (hL.item_pin it (by simp [split]))
  have parts : laneBits L it.pin =
      laneBits { L with items := before } it.pin + (it.width + laneBits { L with items := after } it.pin) := by
    simp [laneBits, split]
  omega

/-- A payload with the `n` slices of a layout's lanes. -/
structure HoldsSlices (s : State) (L : NeutralLayout) (n : Nat) (payload : List Word) : Prop where
  empty : L.pins = [] → payload = []
  length : L.pins ≠ [] → payload.length = n * L.bpspp
  column : ∀ slice < n, ∀ p ∈ L.pins, laneColumn payload p (slice * L.bpspp) L.bpspp = laneSlice s L p slice

section

variable {s : State} {L : NeutralLayout} {n : Nat} {payload : List Word} (hL : NeutralLayoutOk s.cfg L)
  (holds : HoldsSlices s L n payload) {slice : Nat} (hslice : slice < n)

include holds hslice

/-- No parity error (41_neutral.md R177). -/
theorem HoldsSlices.parity {p : Nat} (hp : p ∈ L.pins) :
    (if laneOnes payload p (slice * L.bpspp) L.bpspp % 2 = 0 then 1 else 0 : Word) = 0 := by
  rw [← boolWord_not_oddCount, holds.column slice hslice p hp, oddCount_laneSlice]
  rfl

include hL

/-- The rows of an item, after those of the items before it in its lane. -/
theorem HoldsSlices.item {before after : List NeutralItem} {it : NeutralItem} (split : L.items = before ++ it :: after)
    (width : (s.field it.fid (BitVec.ofNat 8 slice) it.index).toNat < 2 ^ it.width) :
    getBits payload it.pin (slice * L.bpspp + laneBits { L with items := before } it.pin) it.width =
      s.field it.fid (BitVec.ofNat 8 slice) it.index := by
  have hit : it ∈ L.items := by simp [split]
  have hn : it.width ≤ 32 := hL.item_width it hit
  have rows := hL.item_rows split
  have first : (laneData s (BitVec.ofNat 8 slice) before it.pin).length = laneBits { L with items := before } it.pin :=
    length_laneData s _ { L with items := before } it.pin
  generalize laneBits { L with items := before } it.pin = above at *
  obtain ⟨below, total⟩ := Nat.exists_eq_add_of_le rows.le
  have column := holds.column slice hslice it.pin (hL.item_pin it hit)
  rw [congrArg (laneColumn payload it.pin (slice * L.bpspp)) total, laneColumn_add, laneColumn_add, laneSlice_eq, split,
    laneData_append, laneData_cons, if_pos rfl] at column
  simp only [List.append_assoc] at column
  obtain ⟨-, tail⟩ := List.append_inj column (by rw [length_laneColumn, first])
  obtain ⟨bits, -⟩ := List.append_inj tail (by rw [length_laneColumn, length_lowBits])
  exact eq_of_wordBits_eq (getBits_lt _ _ _ hn) width ((lowBits_getBits _ _ _ hn).trans bits)

end

/-! ## MPACK and MUNPACK -/

section

variable {s v : State} {L : NeutralLayout} {n : Nat}

/-- MPACK leaves the slices of the fields in the lanes. -/
theorem mpack_holdsSlices (inv : s.Inv) (header : wordtype s.hdr = .header) (pass : s.pass = .pack) (mode : s.pmode = .none)
    (empty : s.payload = []) (layout : layoutOf s.cfg s.kind s.hdr = some (.neutral L))
    (count : n = max 1 (slicesHdr s.cfg s.kind (BitVec.ofNat 4 (bits s.hdr 3 0)) (BitVec.ofNat 4 (bits s.hdr 7 4))))
    (room : fits s.cfg (n * L.bpspp) = true) :
    ∃ t, Completes .mpack s t 1 ∧ t = { s with payload := t.payload, pincur := t.pincur, pmode := t.pmode } ∧
      HoldsSlices s L n t.payload := by
  have hL := neutralLayoutOk layout
  obtain ⟨unpinned, -, pinned⟩ := mpackPacksANeutralLayout s L n inv header pass mode empty layout count
  by_cases pins : L.pins = []
  · obtain ⟨t, completes, frame⟩ := unpinned pins
    refine ⟨t, completes, by rw [frame], fun _ => by rw [frame]; exact empty, fun h => absurd pins h, fun _ _ p hp => ?_⟩
    rw [pins] at hp
    cases hp
  · obtain ⟨t, completes, frame, length, -, bit⟩ := pinned pins room
    refine ⟨t, completes, by rw [frame], fun h => absurd h pins, fun _ => length, fun slice hslice p hp => ?_⟩
    apply List.ext_getElem
    · rw [length_laneColumn, hL.length_laneSlice hp]
    · intro k hk hk'
      rw [length_laneColumn] at hk
      simp only [laneColumn, List.getElem_map, List.getElem_range]
      rw [bit slice hslice k hk p ((hL.pin_lt p hp).trans_le (maxPins_le _)),
        if_pos hp, List.getD_eq_getElem _ _ hk']

/-- The header's count of slices, or that of the payload, is the one packed. -/
theorem timeslicesOf_of_slices (layout : layoutOf v.cfg v.kind v.hdr = some (.neutral L))
    (count : n = max 1 (slicesHdr v.cfg v.kind (BitVec.ofNat 4 (bits v.hdr 3 0)) (BitVec.ofNat 4 (bits v.hdr 7 4))))
    (holds : HoldsSlices s L n v.payload) : timeslicesOf v = n := by
  by_cases pins : L.pins = []
  · rw [timeslicesOf_of_empty (holds.empty pins) layout, count]
  · by_cases counted : slicesHdr v.cfg v.kind (BitVec.ofNat 4 (bits v.hdr 3 0)) (BitVec.ofNat 4 (bits v.hdr 7 4)) = 0
    · have format : bits v.hdr 24 22 = 0 := by simpa [(layoutOf_neutral layout).1] using hdrFormat_beq_zero v.hdr
      have one : n = 1 := by rw [count, counted]; rfl
      rw [timeslicesOf_of_neutral rfl counted format layout, holds.length pins, one, Nat.one_mul,
        Nat.div_self (neutralLayoutOk layout).bpspp_pos, Nat.max_self]
    · rw [timeslicesOf_of_header rfl counted, count]
      omega

/-- MUNPACK of a payload that holds the slices of the fields of `s` brings them back. -/
theorem munpack_of_holdsSlices (hwf : v.fields.wf) (header : wordtype v.hdr = .header) (flushed : v.wcur = 0)
    (layout : layoutOf v.cfg v.kind v.hdr = some (.neutral L)) (cfg : v.cfg = s.cfg)
    (count : n = max 1 (slicesHdr v.cfg v.kind (BitVec.ofNat 4 (bits v.hdr 3 0)) (BitVec.ofNat 4 (bits v.hdr 7 4))))
    (holds : HoldsSlices s L n v.payload)
    (widths : ∀ it ∈ L.items, ∀ slice < n, (s.field it.fid (BitVec.ofNat 8 slice) it.index).toNat < 2 ^ it.width) :
    ∃ t, Completes .munpack v t 1 ∧ slicesCameBack L n s t := by
  have hL : NeutralLayoutOk s.cfg L := cfg ▸ neutralLayoutOk layout
  have few : n ≤ 256 := by
    have := slicesHdr_lt v.cfg v.kind (BitVec.ofNat 4 (bits v.hdr 3 0)) (BitVec.ofNat 4 (bits v.hdr 7 4))
    omega
  obtain ⟨-, unpinned, pinned⟩ :=
    munpackReadsANeutralLayout v L n hwf header flushed layout (timeslicesOf_of_slices layout count holds)
  by_cases pins : L.pins = []
  · obtain ⟨t, -, completes, -, -⟩ := unpinned few pins
    refine ⟨t, completes, fun slice _ => ⟨fun it hit => ?_, fun p hp => ?_⟩⟩
    · rw [hL.items_eq_nil pins] at hit
      cases hit
    · rw [pins] at hp
      cases hp
  · obtain ⟨t, completes, -, -, -, fields, -⟩ := pinned few pins
    have length := holds.length pins
    rw [if_pos length.ge] at completes
    refine ⟨t, completes, fun slice hslice => ?_⟩
    obtain ⟨items, parities⟩ := fields slice hslice
    have within : (slice + 1) * L.bpspp ≤ v.payload.length := length ▸ Nat.mul_le_mul_right _ hslice
    refine ⟨fun it hit => ?_, fun p hp => (parities p hp within).trans (holds.parity hslice hp)⟩
    obtain ⟨before, y, after, split, same, last⟩ := exists_last_of_key (fun it : NeutralItem => (it.fid, it.index)) hit
    obtain ⟨fid, index⟩ := Prod.mk.inj same
    have hy : y ∈ L.items := by simp [split]
    have rows : slice * L.bpspp + laneBits { L with items := before } y.pin + y.width ≤ v.payload.length := by
      refine le_trans ?_ within
      have := hL.item_rows split
      rw [Nat.succ_mul]
      omega
    have value := (items before y after split rows fun x hx again => last x hx (by rw [← same]; simpa using again)).trans
      (holds.item hL hslice split (widths y hy slice hslice))
    rwa [fid, index] at value

end

/-! ## On the same block, and through another -/

/-- Settles O58. -/
theorem neutralMarshallerRoundTrip : Obligations.NeutralMarshallerRoundTrip := by
  unfold Obligations.NeutralMarshallerRoundTrip
  intro s L n inv header pass mode empty layout count room widths
  obtain ⟨q, packs, frame, holds⟩ := mpack_holdsSlices inv header pass mode empty layout count room
  have qfields : q.fields.wf := by rw [frame]; exact inv.fields_wf
  have qheader : wordtype q.hdr = .header := by rw [frame]; exact header
  have qwcur : q.wcur = 0 := by rw [frame]; exact (inv.not_serial (by rw [mode]; nofun)).1
  have qcfg : q.cfg = s.cfg := by rw [frame]
  refine ⟨?same, fun p u b packed data cfg kind begins => ?other⟩
  case same =>
    have qlayout : layoutOf q.cfg q.kind q.hdr = some (.neutral L) := by rw [frame]; exact layout
    have qcount : n = max 1 (slicesHdr q.cfg q.kind (BitVec.ofNat 4 (bits q.hdr 3 0)) (BitVec.ofNat 4 (bits q.hdr 7 4))) := by
      rw [frame]; exact count
    obtain ⟨t, completes, back⟩ := munpack_of_holdsSlices (v := q.answer .ok 1) qfields qheader qwcur qlayout qcfg qcount holds
      widths
    exact ⟨t.answer .ok 1, runAll_cons packs (runAll_cons completes rfl), back⟩
  case other =>
    obtain rfl : q.answer .ok 1 = p := Host.Outcome.next.inj (packs.symm.trans packed)
    have ulayout : layoutOf u.cfg u.kind q.hdr = some (.neutral L) := by rw [cfg, kind, frame]; exact layout
    have ucount : n = max 1 (slicesHdr u.cfg u.kind (BitVec.ofNat 4 (bits q.hdr 3 0)) (BitVec.ofNat 4 (bits q.hdr 7 4))) := by
      rw [cfg, kind, frame]; exact count
    obtain ⟨rd, resp, read⟩ := readWords_subBlockWords (inv.exec packs) qheader data (cfg.trans qcfg.symm) begins
    obtain ⟨t, completes, back⟩ := munpack_of_holdsSlices (v := subBlockRead u (q.answer .ok 1) rd resp)
      (clearState_inv u).fields_wf qheader rfl ulayout cfg ucount holds widths
    rw [read]
    exact ⟨t.answer .ok 1, completes, rfl, back⟩

end Sys2Proof.Machine

/-! MPACK depends on the kind, the header, the fields, the mode and the parameters alone (43_marshaller.md R272). -/

namespace Sys2Proof.Machine

open Sys2Proof Sys2Proof.Spec

/-! ## A serial layout -/

/-- A run of two parts that ends well has a first part that did. -/
theorem exists_of_bind_eq_ok {x : Except Status State} {f : State → Except Status State} {t : State} (h : x.bind f = .ok t) :
    ∃ u, x = .ok u ∧ f u = .ok t := by
  cases x with
  | error e => cases h
  | ok u => exact ⟨u, rfl, h⟩

/-- The states agree in all that serial packing reads. -/
structure PacksAlike (s u : State) : Prop where
  cfg : s.cfg = u.cfg
  streamed : s.streamed = u.streamed
  payload : s.payload = u.payload
  acc : s.acc = u.acc
  wcur : s.wcur = u.wcur
  field : ∀ fid slice index : Slot, s.field fid slice index = u.field fid slice index

section

variable {s u t v : State} (alike : PacksAlike s u)

include alike

theorem PacksAlike.emittedWord (a : Word) : emittedWord s a = emittedWord u a := by
  rw [Machine.emittedWord, Machine.emittedWord, alike.cfg, alike.streamed]

theorem PacksAlike.packBody {value : Word} {n : Nat} (hs : packBody value n s = .ok t) (hu : packBody value n u = .ok v) :
    PacksAlike t v := by
  obtain ⟨-, -, -, hs⟩ := packBody_ok hs
  obtain ⟨-, -, -, hu⟩ := packBody_ok hu
  by_cases within : s.wcur + n < maxbits s.streamed
  · have within' : u.wcur + n < maxbits u.streamed := by rwa [← alike.wcur, ← alike.streamed]
    rw [packStep_within value within] at hs
    rw [packStep_within value within'] at hu
    cases hs
    cases hu
    exact ⟨alike.cfg, alike.streamed, alike.payload, by rw [alike.acc, alike.wcur], by rw [alike.wcur], alike.field⟩
  · obtain ⟨-, ends⟩ := packStep_frame hs
    obtain ⟨-, room, -⟩ := ends.resolve_left fun h => within h.2
    have full : maxbits s.streamed ≤ s.wcur + n := Nat.le_of_not_lt within
    have full' : maxbits u.streamed ≤ u.wcur + n := by rwa [← alike.wcur, ← alike.streamed]
    rw [packStep_over value full room] at hs
    rw [packStep_over value full' (by rwa [← alike.cfg, ← alike.payload])] at hu
    cases hs
    cases hu
    exact ⟨alike.cfg, alike.streamed, by rw [alike.payload, alike.acc, alike.wcur, alike.emittedWord],
      by rw [alike.wcur, alike.streamed], by rw [alike.wcur, alike.streamed], alike.field⟩

theorem PacksAlike.packFlushBody (hs : packFlushBody s = .ok t) (hu : packFlushBody u = .ok v) : t.payload = v.payload := by
  obtain ⟨-, -, flushS⟩ := packFlushBody_ok hs
  obtain ⟨-, -, flushU⟩ := packFlushBody_ok hu
  have := alike.wcur
  obtain ⟨zero, rfl⟩ | ⟨some, -, rfl⟩ := flushS <;> obtain ⟨zero', rfl⟩ | ⟨some', -, rfl⟩ := flushU
  case inl.inl => exact alike.payload
  case inr.inr => exact congrArg₂ (fun p w => p ++ [w]) alike.payload (by rw [alike.acc, alike.emittedWord])
  all_goals omega

end

/-- The walk over the items from states that agree. -/
theorem PacksAlike.packItems {items : List SerialItem} {s u t v : State} (alike : PacksAlike s u)
    (hs : packItems items s = .ok t) (hu : packItems items u = .ok v) : PacksAlike t v := by
  induction items generalizing s u with
  | nil =>
    cases hs
    cases hu
    exact alike
  | cons it rest ih =>
    rw [packItems_cons] at hs hu
    obtain ⟨s', hs', hs⟩ := exists_of_bind_eq_ok hs
    obtain ⟨u', hu', hu⟩ := exists_of_bind_eq_ok hu
    rw [alike.field] at hs'
    exact ih (alike.packBody hs' hu') hs hu

/-! ## A neutral layout -/

/-- The lanes and the fill are all that a packed payload holds. -/
theorem LanesPacked.payload_eq {s u t v : State} {lanes : Nat → List Bool} {par par' : Nat → Bool} (hs : LanesPacked s lanes par t)
    (hu : LanesPacked u lanes par' v) (cfg : s.cfg = u.cfg) : t.payload = v.payload := by
  obtain ⟨q, longest⟩ := hs.lane_max
  obtain ⟨q', longest'⟩ := hu.lane_max
  have length : t.payload.length = v.payload.length :=
    Nat.le_antisymm (longest.trans_le (hu.lane_le q)) (longest'.trans_le (hs.lane_le q'))
  refine payload_ext length fun row hrow col hcol => ?_
  rw [hs.bit row hrow col hcol, hu.bit row (length ▸ hrow) col hcol, cfg]

theorem laneSlices_congr {s u : State} (field : ∀ fid slice index : Slot, s.field fid slice index = u.field fid slice index)
    (L : NeutralLayout) (first count : Nat) : laneSlices s L first count = laneSlices u L first count := by
  have slices (pin : Nat) : laneSlice s L pin = laneSlice u L pin := by
    funext slice
    simp only [laneSlice, field]
  funext pin
  rw [laneSlices, laneSlices, slices]

/-! ## MPACK -/

section

variable {s t : State} (inv : s.Inv) (pass : s.pass = .pack) (mode : s.pmode = .none) (empty : s.payload = [])

include inv pass mode empty

theorem lanesPacked_of_packNeutralLayout {L : NeutralLayout} (layout : layoutOf s.cfg s.kind s.hdr = some (.neutral L))
    (walk : packNeutralLayout L s = .ok t) :
    LanesPacked s (laneSlices s L 0 (timeslicesOf s)) (fun _ => true) t := by
  rw [packNeutralLayout] at walk
  split at walk
  · cases walk
  · have packs := packSlices_packs (neutralLayoutOk layout) (timeslicesOf s) 0 (lanesPacked_start inv pass mode empty)
    rw [walk] at packs
    exact packs

end

/-- Before a serial pass nothing is left to flush. -/
theorem State.Inv.nothing_held {s : State} (inv : s.Inv) (mode : s.pmode ≠ .serial) : s.wcur = 0 ∧ s.acc = 0 := by
  have wcur := (inv.not_serial mode).1
  have acc := inv.acc_lt
  rw [wcur, Nat.pow_zero, Nat.lt_one_iff] at acc
  exact ⟨wcur, BitVec.eq_of_toNat_eq acc⟩

/-- Two MPACKs that complete, from states that agree in what R272 lists. -/
theorem mpackBody_payload_eq {s u t v : State} {r r' : Word} (invS : s.Inv) (invU : u.Inv) (cfg : s.cfg = u.cfg)
    (kind : s.kind = u.kind) (hdr : s.hdr = u.hdr)
    (field : ∀ fid slice index : Slot, s.field fid slice index = u.field fid slice index)
    (hs : mpackBody s = .ok (t, r)) (hu : mpackBody u = .ok (v, r')) : t.payload = v.payload := by
  obtain ⟨-, passS, modeS, emptyS, -, walkS⟩ := mpackBody_ok hs
  obtain ⟨-, passU, modeU, emptyU, -, walkU⟩ := mpackBody_ok hu
  have same {L L' : Layout} (hL : chooseLayout s = .ok L) (hL' : chooseLayout u = .ok L') : L = L' := by
    have layout := (chooseLayout_ok hL).2.1
    rw [cfg, kind, hdr, (chooseLayout_ok hL').2.1] at layout
    exact (Option.some.inj layout).symm
  obtain ⟨L, hL, walkS⟩ | ⟨L, hL, walkS⟩ := walkS <;> obtain ⟨L', hL', walkU⟩ | ⟨L', hL', walkU⟩ := walkU <;> cases same hL hL'
  case inl.inl =>
    have modes := (chooseLayout_ok hL).2.2 L rfl
    have modes' := (chooseLayout_ok hL').2.2 L rfl
    rw [packUncompressed_eq L modes] at walkS
    rw [packUncompressed_eq L modes'] at walkU
    obtain ⟨s', itemsS, flushS⟩ := exists_of_bind_eq_ok walkS
    obtain ⟨u', itemsU, flushU⟩ := exists_of_bind_eq_ok walkU
    obtain ⟨wcurS, accS⟩ := invS.nothing_held (by rw [modeS]; nofun)
    obtain ⟨wcurU, accU⟩ := invU.nothing_held (by rw [modeU]; nofun)
    have start : PacksAlike (s.inMode L.streamed) (u.inMode L.streamed) :=
      ⟨cfg, rfl, emptyS.trans emptyU.symm, accS.trans accU.symm, wcurS.trans wcurU.symm, field⟩
    exact (start.packItems itemsS itemsU).packFlushBody flushS flushU
  case inr.inr =>
    have layout := (chooseLayout_ok hL).2.1
    have layout' := (chooseLayout_ok hL').2.1
    have slices : timeslicesOf s = timeslicesOf u := by
      rw [timeslicesOf_of_empty emptyS layout, timeslicesOf_of_empty emptyU layout', cfg, kind, hdr]
    have packedS := lanesPacked_of_packNeutralLayout invS passS modeS emptyS layout walkS
    rw [slices, laneSlices_congr field] at packedS
    exact packedS.payload_eq (lanesPacked_of_packNeutralLayout invU passU modeU emptyU layout' walkU) cfg

/-- MPACK that answers 1 completed. -/
theorem mpackBody_of_answer_one {s p : State} (run : exec .mpack s = .next p) (answered : p.resp = some ⟨.ok, 1⟩) :
    ∃ t r, mpackBody s = .ok (t, r) ∧ p = t.answer .ok r := by
  obtain done | ⟨c, -, rfl⟩ := finish_next_iff.mp ((exec_mpack s).symm.trans run)
  · exact done
  · cases answered

/-- Settles O59. -/
theorem mpackIsDetermined : Obligations.MpackIsDetermined := by
  unfold Obligations.MpackIsDetermined
  intro s u p q invS invU cfg kind hdr _ field runS runU okS okU
  obtain ⟨t, r, bodyS, rfl⟩ := mpackBody_of_answer_one runS okS
  obtain ⟨v, r', bodyU, rfl⟩ := mpackBody_of_answer_one runU okU
  exact mpackBody_payload_eq (t := t) (v := v) invS invU cfg kind hdr field bodyS bodyU

end Sys2Proof.Machine
